-- ==== Sys2Proof/Word.lean ====
section
/-! DEFINITION. Word.lean: the widths the spec uses (00_scope.md R8, R10). -/

namespace Sys2Proof

/-- An unsigned 8-bit value 0..255 (00_scope.md R10). -/
abbrev Byte := BitVec 8

/-- A 16-bit value: a checksum, a telemetry element (40_checksum.md R141, 10_state.md R43). -/
abbrev Half := BitVec 16

/-- A host data word (00_scope.md R8: host data width 32 bits). -/
abbrev Word := BitVec 32

/-- A host byte offset, 0x000 to 0xFFF (00_scope.md R8: host address width 12 bits). -/
abbrev Offset := BitVec 12

end Sys2Proof
end

