-- ==== Sys2Proof/Syntax.lean ====
section
/-! DEFINITION. Syntax.lean: the two opcode spaces of the NBFE, one constructor per row of opcode_table.json. -/

namespace Sys2Proof

/-- The instructions: the six commands and the illegal command word (30_encoding.md R110, R112), whose operands
are CMD.REG and CMD.PLEN, and the register decoders that response byte 5 selects (30_encoding.md R111, R114). -/
inductive Instr where
  /-- CKCOMP, OP 0x1 (40_checksum.md R143). -/
  | ckcomp (reg plen : Byte)
  /-- CKVER, OP 0x2 (40_checksum.md R145). -/
  | ckver (reg plen : Byte)
  /-- ENCODE, OP 0x3 (41_encode.md R160). -/
  | encode (reg plen : Byte)
  /-- XACT, OP 0x4 (42_transport.md R180). -/
  | xact (reg plen : Byte)
  /-- DECODE, OP 0x5 (43_decode.md R220). -/
  | decode (reg plen : Byte)
  /-- QUERY, OP 0x6 (44_query_host.md R270). -/
  | query (reg plen : Byte)
  /-- DEC_SERIAL, register code 0x10 (43_decode.md R241). -/
  | decSerial
  /-- DEC_FWVER, register code 0x17 (43_decode.md R231). -/
  | decFwver
  /-- DEC_FACTCAP, register code 0x18 (43_decode.md R230). -/
  | decFactcap
  /-- DEC_ACTCAP, register code 0x19 (43_decode.md R232). -/
  | decActcap
  /-- DEC_STATUS, register code 0x30 (43_decode.md R233). -/
  | decStatus
  /-- DEC_REMCAP_MAH, register code 0x31 (43_decode.md R234). -/
  | decRemcapMah
  /-- DEC_REMCAP_PCT, register code 0x32 (43_decode.md R235). -/
  | decRemcapPct
  /-- DEC_CURRENT, register code 0x33 (43_decode.md R236, R237). -/
  | decCurrent
  /-- DEC_VOLTAGE, register code 0x34 (43_decode.md R238). -/
  | decVoltage
  /-- DEC_HEALTH, register code 0x3B (43_decode.md R239). -/
  | decHealth
  /-- DEC_CELLS, register code 0x40 (43_decode.md R240). -/
  | decCells
  /-- DEC_NONE, any other register code (43_decode.md R242). -/
  | decNone (code : Byte)
  /-- ILLEGAL, a command word that R112 calls illegal (60_exceptions.md R306). -/
  | illegal (w : Word)
  deriving DecidableEq, Repr

/-- The two formats: a command word written to CMD, and the register code at response byte 5
(30_encoding.md sections 1 and 3). -/
inductive Encoding where
  /-- Format CMD (30_encoding.md R101). -/
  | cmd (w : Word)
  /-- Format RESP_REG (30_encoding.md R111). -/
  | respReg (code : Byte)
  deriving DecidableEq, Repr

end Sys2Proof
end

