-- ==== Sys2Proof/WellFormed.lean ====
section
/-! DEFINITION. WellFormed.lean: which terms of Instr stand for something the hardware can be given. -/

namespace Sys2Proof

/-- The register codes that have a decoder (30_encoding.md R111). -/
def listedCodes : List Byte :=
  [0x10, 0x17, 0x18, 0x19, 0x30, 0x31, 0x32, 0x33, 0x34, 0x3B, 0x40]

/-- `illegal` carries a word outside the six command rows (30_encoding.md R112: bits 7..0 are the command's OP
with RSV0 = 0, bits 31..24 are RSV1), and `decNone` a register code with no decoder (30_encoding.md R114). -/
def Instr.wf : Instr → Bool
  | .illegal w => !(1 ≤ w.toNat % 256 && w.toNat % 256 ≤ 6 && w.toNat < 0x1000000)
  | .decNone code => !(listedCodes.contains code)
  | .ckcomp _ _ => true
  | .ckver _ _ => true
  | .encode _ _ => true
  | .xact _ _ => true
  | .decode _ _ => true
  | .query _ _ => true
  | .decSerial => true
  | .decFwver => true
  | .decFactcap => true
  | .decActcap => true
  | .decStatus => true
  | .decRemcapMah => true
  | .decRemcapPct => true
  | .decCurrent => true
  | .decVoltage => true
  | .decHealth => true
  | .decCells => true

end Sys2Proof
end

