-- ==== Sys2Proof/Decode.lean ====
section
/-! DEFINITION. Decode.lean: the decoder of both formats, total on every word and every byte, and the encoder. -/

namespace Sys2Proof

/-- CMD.OP, bits 3:0 (30_encoding.md R101). -/
def opField (w : Word) : BitVec 4 := w.extractLsb' 0 4

/-- CMD.RSV0, bits 7:4, must be 0 (30_encoding.md R101). -/
def rsv0Field (w : Word) : BitVec 4 := w.extractLsb' 4 4

/-- CMD.REG, bits 15:8, unsigned (30_encoding.md R101, R107). -/
def regField (w : Word) : Byte := w.extractLsb' 8 8

/-- CMD.PLEN, bits 23:16, unsigned (30_encoding.md R101, R107). -/
def plenField (w : Word) : Byte := w.extractLsb' 16 8

/-- CMD.RSV1, bits 31:24, must be 0 (30_encoding.md R101). -/
def rsv1Field (w : Word) : Byte := w.extractLsb' 24 8

/-- The command a word written to CMD stands for (30_encoding.md R110, R112). A word that is no command is
`illegal`, by name: that is itself a row of the table. -/
def decodeCmd (w : Word) : Instr :=
  if rsv0Field w ≠ 0 ∨ rsv1Field w ≠ 0 then .illegal w
  else match opField w with
    | 0x1 => .ckcomp (regField w) (plenField w)
    | 0x2 => .ckver (regField w) (plenField w)
    | 0x3 => .encode (regField w) (plenField w)
    | 0x4 => .xact (regField w) (plenField w)
    | 0x5 => .decode (regField w) (plenField w)
    | 0x6 => .query (regField w) (plenField w)
    | _ => .illegal w

/-- The decoder that response byte 5 selects (30_encoding.md R111, R114). -/
def decodeRegCode (code : Byte) : Instr :=
  match code with
  | 0x10 => .decSerial
  | 0x17 => .decFwver
  | 0x18 => .decFactcap
  | 0x19 => .decActcap
  | 0x30 => .decStatus
  | 0x31 => .decRemcapMah
  | 0x32 => .decRemcapPct
  | 0x33 => .decCurrent
  | 0x34 => .decVoltage
  | 0x3B => .decHealth
  | 0x40 => .decCells
  | c => .decNone c

/-- The instruction an encoding stands for. -/
def decode : Encoding → Instr
  | .cmd w => decodeCmd w
  | .respReg code => decodeRegCode code

/-- A command word from its fields: `00000000 pppppppp rrrrrrrr 0000oooo` (30_encoding.md R101). -/
def cmdWord (op : BitVec 4) (reg plen : Byte) : Word :=
  0#8 ++ plen ++ reg ++ 0#4 ++ op

/-- The encoding of an instruction, from the tables of 30_encoding.md R110 and R111. -/
def encode : Instr → Encoding
  | .ckcomp reg plen => .cmd (cmdWord 0x1 reg plen)
  | .ckver reg plen => .cmd (cmdWord 0x2 reg plen)
  | .encode reg plen => .cmd (cmdWord 0x3 reg plen)
  | .xact reg plen => .cmd (cmdWord 0x4 reg plen)
  | .decode reg plen => .cmd (cmdWord 0x5 reg plen)
  | .query reg plen => .cmd (cmdWord 0x6 reg plen)
  | .decSerial => .respReg 0x10
  | .decFwver => .respReg 0x17
  | .decFactcap => .respReg 0x18
  | .decActcap => .respReg 0x19
  | .decStatus => .respReg 0x30
  | .decRemcapMah => .respReg 0x31
  | .decRemcapPct => .respReg 0x32
  | .decCurrent => .respReg 0x33
  | .decVoltage => .respReg 0x34
  | .decHealth => .respReg 0x3B
  | .decCells => .respReg 0x40
  | .decNone code => .respReg code
  | .illegal w => .cmd w

/-- The instruction the decoder reads from a row's bits: a row of at most 8 bits is a register code, a longer
one a command word whose missing upper bits are 0; a value that does not fit is none. -/
def decodeTableWord (nbits w : Nat) : Option Instr :=
  if nbits ≤ 8 then
    if w < 2 ^ 8 then some (decode (.respReg (BitVec.ofNat 8 w))) else none
  else if nbits ≤ 32 ∧ w < 2 ^ 32 then some (decode (.cmd (BitVec.ofNat 32 w)))
  else none

end Sys2Proof
end

