-- ==== Sys2Proof/Config.lean ====
section
/-! DEFINITION. Config.lean: what one NBFE fixes (00_scope.md R8) and the values the spec leaves open. -/

namespace Sys2Proof.Config

/-- `RXBUF_SIZE`, the bound of one capture (00_scope.md R8). -/
def rxbufSize : Nat := 256

/-- `TXBUF_SIZE` (00_scope.md R8). -/
def txbufSize : Nat := 256

/-- `TLM_ELEMS`, the elements of TLM_ELEM and the bytes of CACHE_SN (00_scope.md R8). -/
def tlmElems : Nat := 248

/-- `STATUS_BIT_FN`, the OPEN extraction of the 16 status flags from response bytes 6 and 7
(43_decode.md R233, 93_implementation_defined.md U3). A FREE VALUE: it has no body, and nothing is known of
it but that it depends on those two bytes alone (log 4). -/
opaque statusBitFn : Byte → Byte → Half

/-- What the byte of TXBUF, RXBUF, TLM_ELEM or CACHE_SN at a host offset holds after the reset numbered by the
first argument, until something writes it (70_reset_and_hazards.md R351, 93_implementation_defined.md U1).
A FREE VALUE, one draw per reset and per byte: it has no body (log 3). -/
opaque resetByte : Nat → Nat → Byte

end Sys2Proof.Config
end

