-- ==== Sys2Proof/Machine/State.lean ====
section
/-! DEFINITION. Machine/State.lean: the whole state of the NBFE, the link beside it, and the events to come. -/

namespace Sys2Proof.Machine

/-- STATUS.PHASE: the seven phases the engine can be in (10_state.md R48). The codes 7 to 15 are never
entered, so no constructor stands for them (log 9). -/
inductive Phase where
  | idle | ckcomp | ckver | encode | send | wait | decode
  deriving DecidableEq, Repr

/-- STATUS.ERR: the cause of the last completion (60_exceptions.md R300). The codes 6 to 15 are never produced,
so no constructor stands for them (log 9). -/
inductive Cause where
  | none | timeout | checksum | regMismatch | truncated | illegalCmd
  deriving DecidableEq, Repr

/-- CUR_OP: the opcode of the operation in progress, `none` (0) when idle (10_state.md R47). -/
inductive Op where
  | none | ckcomp | ckver | encode | xact | decode | query
  deriving DecidableEq, Repr

/-- The deadline timer: it runs from a SEND push to CAPTURE or EXPIRE (60_exceptions.md R316). -/
inductive Timer where
  | stopped | running
  deriving DecidableEq, Repr

/-- What one agent does at one instant (00_scope.md R14; 20_memory.md R80: each is one atomic transition). -/
inductive Event where
  /-- HOST: a bus read of `width` bytes at `off` (20_memory.md R72). -/
  | hostRead (off : Offset) (width : Nat)
  /-- HOST: a bus write of `width` bytes at `off` (20_memory.md R73). -/
  | hostWrite (off : Offset) (width : Nat) (v : Word)
  /-- HOST: the loop `waitdone`, which polls STATUS until DONE = 1 (30_encoding.md R117; log 15). -/
  | waitDone
  /-- ENGINE: the step its PHASE enables (10_state.md R48). -/
  | engine
  /-- DEADLINE: the per-attempt timer expires (42_transport.md R186). -/
  | deadline
  /-- PEER: bytes are appended to the receive FIFO (10_state.md R50). -/
  | peerDeliver (bytes : List Byte)
  /-- PEER: bytes are consumed from the front of the transmit channel (10_state.md R50). -/
  | peerConsume (count : Nat)
  /-- The reset input `rst` is asserted (70_reset_and_hazards.md R350). -/
  | resetAssert
  /-- The reset input `rst` is released (70_reset_and_hazards.md R350). -/
  | resetRelease
  deriving DecidableEq, Repr

/-- The bytes that have been written into the buffers since the last reset, by host offset, offsets strictly
rising (20_memory.md R71; log 3). -/
abbrev Memory := List Host.Cell

/-- Why the machine stops with a fault. -/
inductive Fault where
  /-- Raised by a host access that is not 32 bits wide or not word-aligned (20_memory.md R74: it is not
  performed, changes no state, and a model treats it as a fault of the host program). Safe. -/
  | hostBusError (off : Offset)
  /-- Raised by the meaning of the operation in progress when PHASE is none of that operation's phases, and by an
  engine step while BUSY = 1 with CUR_OP = 0. No run reaches such a state (10_state.md R48,
  93_implementation_defined.md U13: treat it as a fault). Safe (log 8). -/
  | phaseNotOfOperation
  deriving DecidableEq, Repr

/-- Why the machine has no meaning for an instruction. -/
inductive Refusal where
  /-- For an arm of exec without a meaning; no arm is without one. Safe. -/
  | notModelled (mnemonic : String)
  deriving DecidableEq, Repr

/-- The state. The output `irq` is computed from it (10_state.md R51: `State.irq` of Machine/Flags.lean), and so are
the register words the host reads. -/
structure State where
  /-- CTRL.IE (10_state.md R31). -/
  ie : Bool
  /-- CTRL.CKORD (10_state.md R31). -/
  ckord : Bool
  /-- CTRL.CELLOFF (10_state.md R31). -/
  celloff : Bool
  /-- STATUS.BUSY (10_state.md R32). -/
  busy : Bool
  /-- STATUS.DONE (10_state.md R32). -/
  done : Bool
  /-- STATUS.OVF (10_state.md R32). -/
  ovf : Bool
  /-- STATUS.ERR (10_state.md R32, 60_exceptions.md R300). -/
  err : Cause
  /-- STATUS.TRIES (10_state.md R32). -/
  tries : BitVec 8
  /-- STATUS.PHASE (10_state.md R32, R48). -/
  phase : Phase
  /-- FRAMECFG.LEN (10_state.md R34). -/
  cfgLen : Byte
  /-- FRAMECFG.ADDR (10_state.md R34). -/
  cfgAddr : Byte
  /-- FRAMECFG.FCMD (10_state.md R34). -/
  cfgFcmd : Byte
  /-- TIMING.TIMEOUT_MS (10_state.md R35). -/
  timeoutMs : BitVec 16
  /-- TIMING.MAX_TRIES (10_state.md R35). -/
  maxTries : BitVec 8
  /-- CKSUM.CKV (10_state.md R36). -/
  ckv : Half
  /-- TXLEN, the number of valid bytes in TXBUF, 0..256 (10_state.md R37). -/
  txlen : Fin 257
  /-- RXLEN, the number of valid bytes in RXBUF, 0..256 (10_state.md R38). -/
  rxlen : Fin 257
  /-- TLM_INFO.TREG (10_state.md R39). -/
  treg : Byte
  /-- TLM_INFO.TVALID (10_state.md R39). -/
  tvalid : Bool
  /-- TLM_INFO.TCOUNT (10_state.md R39). -/
  tcount : BitVec 8
  /-- TLM_VALUE (10_state.md R40). -/
  tlmValue : Word
  /-- TLM_RAW, bits 15:0 (10_state.md R41). -/
  tlmRaw : Half
  /-- TLM_FLAGS, bits 15:0 (10_state.md R42). -/
  tlmFlags : Half
  /-- CACHE_I (10_state.md R44). -/
  cacheI : Word
  /-- CACHE_INFO.CIV (10_state.md R44). -/
  civ : Bool
  /-- CACHE_INFO.CSV (10_state.md R44). -/
  csv : Bool
  /-- CACHE_INFO.CSLEN (10_state.md R44). -/
  cslen : BitVec 8
  /-- CUR_OP (10_state.md R47). -/
  curOp : Op
  /-- CUR_REG (10_state.md R47). -/
  curReg : Byte
  /-- CUR_PLEN (10_state.md R47). -/
  curPlen : Byte
  /-- The deadline timer (60_exceptions.md R316). -/
  timer : Timer
  /-- TXBUF, RXBUF, TLM_ELEM and CACHE_SN (10_state.md R43 to R46): what has been written since the last reset. -/
  mem : Memory
  /-- TXCHAN, oldest byte first (10_state.md R50). -/
  txchan : List Byte
  /-- RXFIFO, oldest byte first (10_state.md R50). -/
  rxfifo : List Byte
  /-- The level of the reset input `rst`, active high (70_reset_and_hazards.md R350). -/
  inReset : Bool
  /-- MODEL'S OWN: how many times `rst` has acted; the free draws of unwritten buffer bytes depend on it (log 3). -/
  epoch : Nat
  /-- MODEL'S OWN: the word the last host read returned to the host (log 11). -/
  hostData : Word
  /-- MODEL'S OWN: what the agents do next, in order (log 1). -/
  agenda : List Event
  deriving DecidableEq, Repr

/-- The machine right after reset (70_reset_and_hazards.md R351). The link's two byte sequences, which reset does
not change, are empty here (log 5). -/
def State.reset : State where
  ie := false
  ckord := false
  celloff := false
  busy := false
  done := false
  ovf := false
  err := .none
  tries := 0
  phase := .idle
  cfgLen := 0x03
  cfgAddr := 0x22
  cfgFcmd := 0x01
  timeoutMs := 250
  maxTries := 20
  ckv := 0
  txlen := 0
  rxlen := 0
  treg := 0
  tvalid := false
  tcount := 0
  tlmValue := 0
  tlmRaw := 0
  tlmFlags := 0
  cacheI := 0
  civ := false
  csv := false
  cslen := 0
  curOp := .none
  curReg := 0
  curPlen := 0
  timer := .stopped
  mem := []
  txchan := []
  rxfifo := []
  inReset := false
  epoch := 0
  hostData := 0
  agenda := []

end Sys2Proof.Machine
end

