-- ==== Sys2Proof/Machine/Ops.lean ====
section
/-! DEFINITION. Machine/Ops.lean: the named operations over the buffers, the link and the status, among them command
acceptance, completion (the NBFE's exception entry, 60_exceptions.md) and reset. -/

namespace Sys2Proof.Machine

/-! ## Memory -/

/-- The byte stored at an offset since the last reset, none where nothing was. -/
def Memory.read? : Memory → Nat → Option Byte
  | [], _ => none
  | (b, w) :: m, a => if a = b then some w else Memory.read? m a

/-- Store one byte, keeping the offsets strictly rising. -/
def Memory.write : Memory → Nat → Byte → Memory
  | [], a, v => [(a, v)]
  | (b, w) :: m, a, v =>
    if a < b then (a, v) :: (b, w) :: m
    else if a = b then (a, v) :: m
    else (b, w) :: Memory.write m a v

/-- Store bytes at consecutive offsets. -/
def Memory.writeList : Memory → Nat → List Byte → Memory
  | m, _, [] => m
  | m, a, v :: vs => Memory.writeList (Memory.write m a v) (a + 1) vs

/-- The canonical form: offsets strictly rising. (An unlisted offset holds no stored byte, so no entry can equal
what an unlisted one holds: log 3.) -/
def Memory.wf : Memory → Bool
  | [] => true
  | (a, _) :: m => m.all (fun c => decide (a < c.1)) && Memory.wf m

/-- Offset of TXBUF (20_memory.md R71). -/
def txBase : Nat := 0x100

/-- Offset of RXBUF (20_memory.md R71). -/
def rxBase : Nat := 0x200

/-- Offset of TLM_ELEM; element k is at `elemBase + 2 k` (10_state.md R43, 20_memory.md R71). -/
def elemBase : Nat := 0x300

/-- Offset of CACHE_SN (20_memory.md R71). -/
def snBase : Nat := 0x500

/-- The offsets that belong to a buffer (20_memory.md R71). -/
def isBufferOffset (a : Nat) : Bool :=
  (decide (txBase ≤ a) && decide (a < txBase + Config.txbufSize)) ||
  (decide (rxBase ≤ a) && decide (a < rxBase + Config.rxbufSize)) ||
  (decide (elemBase ≤ a) && decide (a < elemBase + 2 * Config.tlmElems)) ||
  (decide (snBase ≤ a) && decide (a < snBase + Config.tlmElems))

/-- Only buffer bytes are stored. -/
def Memory.onlyBuffers (m : Memory) : Bool := m.all (fun c => isBufferOffset c.1)

/-- The byte a buffer holds at a host offset: what was stored there since the last reset, else that byte's free draw
(70_reset_and_hazards.md R351). This is the one read of a buffer byte. -/
def State.byteAt (s : State) (a : Nat) : Byte :=
  match s.mem.read? a with
  | some b => b
  | none => Config.resetByte s.epoch a

/-- The bytes at `base .. base + n - 1`, lowest offset first. -/
def State.bytesAt (s : State) (base n : Nat) : List Byte :=
  (List.range n).map (fun i => s.byteAt (base + i))

/-- Store bytes from `base` upwards. This is the one write of buffer bytes. -/
def State.store (s : State) (base : Nat) (bytes : List Byte) : State :=
  { s with mem := s.mem.writeList base bytes }

/-! ## Acceptance, completion, rejection -/

/-- The first phase of an operation (60_exceptions.md R305). -/
def Op.firstPhase : Op → Phase
  | .none => .idle
  | .ckcomp => .ckcomp
  | .ckver => .ckver
  | .encode => .encode
  | .xact => .send
  | .decode => .decode
  | .query => .encode

/-- Command acceptance (60_exceptions.md R305). -/
def State.accept (s : State) (op : Op) (reg plen : Byte) : State :=
  { s with
    curOp := op, curReg := reg, curPlen := plen
    done := false, err := .none, tries := 0, busy := true
    phase := op.firstPhase }

/-- Completion with a cause, `complete(e)` (60_exceptions.md R310). -/
def State.complete (s : State) (e : Cause) : State :=
  { s with err := e, phase := .idle, busy := false, done := true, curOp := .none }

/-- An illegal command word written while idle (60_exceptions.md R306). -/
def State.rejectIllegal (s : State) : State :=
  { s with err := .illegalCmd, done := true }

/-- A host write dropped because BUSY = 1 (20_memory.md R76a, 60_exceptions.md R307). -/
def State.dropWrite (s : State) : State := { s with ovf := true }

/-- Return from a completion: a write of STATUS clears DONE if bit 1 is set and OVF if bit 2 is
(20_memory.md R73, 60_exceptions.md R313). -/
def State.w1cStatus (s : State) (v : Word) : State :=
  { s with done := s.done && !v.getLsbD 1, ovf := s.ovf && !v.getLsbD 2 }

/-! ## The link and reset -/

/-- `TxPush` (00_scope.md R11, 10_state.md R50). -/
def State.txPush (s : State) (bytes : List Byte) : State :=
  { s with txchan := s.txchan ++ bytes }

/-- `RxPop k` without its result: the oldest k bytes leave the receive FIFO (10_state.md R50). -/
def State.rxDrop (s : State) (k : Nat) : State :=
  { s with rxfifo := s.rxfifo.drop k }

/-- Reset asserted (70_reset_and_hazards.md R350, R351): every register at its reset value, every buffer byte
a fresh draw, the link untouched; the model's agenda and last read word stay. -/
def State.assertReset (s : State) : State :=
  { State.reset with
    txchan := s.txchan, rxfifo := s.rxfifo
    inReset := true, epoch := s.epoch + 1, hostData := s.hostData, agenda := s.agenda }

/-- Reset released: nothing has acted since it was asserted, so the state is that of 70_reset_and_hazards.md R351. -/
def State.releaseReset (s : State) : State := { s with inReset := false }

/-! ## The model's own fields -/

/-- The agenda is now `es` (log 1). -/
def State.withAgenda (s : State) (es : List Event) : State := { s with agenda := es }

/-- The host receives the word of a read (log 11). -/
def State.hear (s : State) (w : Word) : State := { s with hostData := w }

/-! ## Running a command -/

/-- The outcome of a step of this machine. -/
abbrev Outcome := Host.Outcome State Fault Refusal

/-- One atomic step of a command. While idle the command is accepted (60_exceptions.md R305). While it is itself the
operation in progress its engine step runs. While another operation is in progress it is dropped
(60_exceptions.md R307). (Log 7.) -/
def command (op : Op) (reg plen : Byte) (engineStep : State → Outcome) (s : State) : Outcome :=
  if s.busy then
    if s.curOp = op then engineStep s else .next s.dropWrite
  else .next (s.accept op reg plen)

end Sys2Proof.Machine
end

