-- ==== Sys2Proof/Machine/Operands.lean ====
section
/-! DEFINITION. Machine/Operands.lean: the bit and byte operators of 00_scope.md R11, and how operands are read from
the buffers and from frames (30_encoding.md R108). -/

namespace Sys2Proof.Machine

/-- `x[7:0]`. -/
def loByte (x : Half) : Byte := x.extractLsb' 0 8

/-- `x[15:8]`. -/
def hiByte (x : Half) : Byte := x.extractLsb' 8 8

/-- `swap16` (00_scope.md R11). -/
def swap16 (x : Half) : Half := loByte x ++ hiByte x

/-- `le16(lo, hi)` (00_scope.md R11). -/
def le16 (lo hi : Byte) : Half := hi ++ lo

/-- `le32(a, b, c, d)` (30_encoding.md R117); the packing of buffer bytes in a host word (20_memory.md R72). -/
def le32 (a b c d : Byte) : Word := d ++ c ++ b ++ a

/-- The four bytes of a host word, `v[7:0]` first (20_memory.md R73). -/
def wordBytes (v : Word) : List Byte :=
  [v.extractLsb' 0 8, v.extractLsb' 8 8, v.extractLsb' 16 8, v.extractLsb' 24 8]

/-- `zext_32` of a 16-bit field (00_scope.md R11). -/
def zext32 (x : Half) : Word := x.zeroExtend 32

/-- `sext_16` of a field, in 32-bit two's complement (00_scope.md R11). -/
def sext32 (x : Half) : Word := x.signExtend 32

/-- The bytes of 16-bit elements as they lie in TLM_ELEM (10_state.md R43, 20_memory.md R72). -/
def elemBytes (es : List Half) : List Byte := es.flatMap (fun e => [loByte e, hiByte e])

/-- `TXBUF[0 .. TXLEN-1]` (10_state.md R37). -/
def State.txSpan (s : State) : List Byte := s.bytesAt txBase s.txlen.val

/-- `RXBUF[0 .. RXLEN-1]`, the frame of CKVER and DECODE (10_state.md R38). -/
def State.rxFrame (s : State) : List Byte := s.bytesAt rxBase s.rxlen.val

/-- `b[i]` of the response frame (43_decode.md R221: `b = RXBUF`). -/
def State.rxByte (s : State) (i : Nat) : Byte := s.byteAt (rxBase + i)

/-- The two-byte field at offsets i and i+1 of the response (30_encoding.md R108). -/
def State.rxField (s : State) (i : Nat) : Half := le16 (s.rxByte i) (s.rxByte (i + 1))

/-- A length write stores at most 256 (10_state.md R37, R38: `v[8:0]` greater than 256 stores 256). -/
def clampLen (v : Word) : Fin 257 :=
  ⟨min (v.extractLsb' 0 9).toNat 256, Nat.lt_succ_of_le (Nat.min_le_right _ _)⟩

/-- The length one capture stores: `min(RxCount(), RXBUF_SIZE)` (42_transport.md R185). -/
def captureLen (count : Nat) : Fin 257 :=
  ⟨min count Config.rxbufSize, Nat.lt_succ_of_le (Nat.min_le_right _ _)⟩

end Sys2Proof.Machine
end

