-- ==== Sys2Proof/Machine/Flags.lean ====
section
/-! DEFINITION. Machine/Flags.lean: the codes of PHASE and ERR, the register words the flags are read in
(10_state.md sections 2 and 6), and the interrupt line. -/

namespace Sys2Proof.Machine

/-- The 4-bit code of a phase (10_state.md R48). -/
def Phase.code : Phase → BitVec 4
  | .idle => 0
  | .ckcomp => 1
  | .ckver => 2
  | .encode => 3
  | .send => 4
  | .wait => 5
  | .decode => 6

/-- The 4-bit cause code (60_exceptions.md R300). -/
def Cause.code : Cause → BitVec 4
  | .none => 0
  | .timeout => 1
  | .checksum => 2
  | .regMismatch => 3
  | .truncated => 4
  | .illegalCmd => 5

/-- The 4-bit opcode CUR_OP holds (10_state.md R47, 30_encoding.md R110). -/
def Op.code : Op → BitVec 4
  | .none => 0
  | .ckcomp => 1
  | .ckver => 2
  | .encode => 3
  | .xact => 4
  | .decode => 5
  | .query => 6

/-- The level-sensitive output `irq = CTRL.IE & STATUS.DONE` (10_state.md R51, 60_exceptions.md R311). -/
def State.irq (s : State) : Bool := s.ie && s.done

/-- CTRL as read (10_state.md R31). -/
def State.ctrlWord (s : State) : Word :=
  0#29 ++ BitVec.ofBool s.celloff ++ BitVec.ofBool s.ckord ++ BitVec.ofBool s.ie

/-- STATUS as read (10_state.md R32). -/
def State.statusWord (s : State) : Word :=
  0#12 ++ s.phase.code ++ s.tries ++ s.err.code ++ 0#1 ++
    BitVec.ofBool s.ovf ++ BitVec.ofBool s.done ++ BitVec.ofBool s.busy

/-- FRAMECFG as read (10_state.md R34). -/
def State.framecfgWord (s : State) : Word := 0#8 ++ s.cfgFcmd ++ s.cfgAddr ++ s.cfgLen

/-- TIMING as read (10_state.md R35). -/
def State.timingWord (s : State) : Word := 0#8 ++ s.maxTries ++ s.timeoutMs

/-- TLM_INFO as read (10_state.md R39). -/
def State.tlmInfoWord (s : State) : Word :=
  0#8 ++ s.tcount ++ 0#7 ++ BitVec.ofBool s.tvalid ++ s.treg

/-- CACHE_INFO as read (10_state.md R44). -/
def State.cacheInfoWord (s : State) : Word :=
  0#16 ++ s.cslen ++ 0#6 ++ BitVec.ofBool s.csv ++ BitVec.ofBool s.civ

/-- A write of CTRL's defined fields (10_state.md R31). -/
def State.writeCtrl (s : State) (v : Word) : State :=
  { s with ie := v.getLsbD 0, ckord := v.getLsbD 1, celloff := v.getLsbD 2 }

/-- A write of FRAMECFG's defined fields (10_state.md R34). -/
def State.writeFramecfg (s : State) (v : Word) : State :=
  { s with cfgLen := v.extractLsb' 0 8, cfgAddr := v.extractLsb' 8 8, cfgFcmd := v.extractLsb' 16 8 }

/-- A write of TIMING's defined fields (10_state.md R35). -/
def State.writeTiming (s : State) (v : Word) : State :=
  { s with timeoutMs := v.extractLsb' 0 16, maxTries := v.extractLsb' 16 8 }

end Sys2Proof.Machine
end

