-- ==== Sys2Proof/Machine/Checksum.lean ====
section
/-! DEFINITION. Machine/Checksum.lean: the checksum functions (40_checksum.md) and the operations CKCOMP and CKVER. -/

namespace Sys2Proof.Machine

/-- `sum16`: the sum of the bytes, each unsigned, mod 2^16 (40_checksum.md R140). -/
def sum16 : List Byte → Half
  | [] => 0
  | b :: bs => b.zeroExtend 16 + sum16 bs

/-- `ck16(S) = swap16(sum16(S) XOR 0xFFFF)` (40_checksum.md R141). -/
def ck16 (bytes : List Byte) : Half := swap16 (sum16 bytes ^^^ 0xFFFF)

/-- The two bytes that carry a checksum on the wire (40_checksum.md R142). -/
def emit (ckord : Bool) (v : Half) : List Byte :=
  if ckord then [loByte v, hiByte v] else [hiByte v, loByte v]

/-- The checksum a frame carries in its last two bytes (40_checksum.md R144). -/
def recv (ckord : Bool) (b : List Byte) : Half :=
  let y := b.getD (b.length - 2) 0
  let z := b.getD (b.length - 1) 0
  if ckord then le16 y z else le16 z y

/-- The covered bytes `b[2 .. N-3]` of a frame (40_checksum.md R146). -/
def covered (b : List Byte) : List Byte := (b.drop 2).take (b.length - 4)

/-- `verify(b, N)` with `N` the length of the frame (40_checksum.md R146). -/
def verify (ckord : Bool) (b : List Byte) : Bool :=
  decide (4 ≤ b.length) && decide (ck16 (covered b) = recv ckord b)

/-- The engine step of CKCOMP (40_checksum.md R143). -/
def State.ckcompStep (s : State) : State :=
  State.complete { s with ckv := ck16 s.txSpan } .none

/-- The engine step of CKVER (40_checksum.md R145). -/
def State.ckverStep (s : State) : State :=
  s.complete (if verify s.ckord s.rxFrame then .none else .checksum)

/-- CKCOMP: acceptance, then the checksum over TXBUF in PHASE CKCOMP (40_checksum.md R143). -/
def execCkcomp (reg plen : Byte) (s : State) : Outcome :=
  command .ckcomp reg plen
    (fun s => match s.phase with
      | .ckcomp => .next s.ckcompStep
      | _ => .fault .phaseNotOfOperation) s

/-- CKVER: acceptance, then the verification of RXBUF in PHASE CKVER (40_checksum.md R145). -/
def execCkver (reg plen : Byte) (s : State) : Outcome :=
  command .ckver reg plen
    (fun s => match s.phase with
      | .ckver => .next s.ckverStep
      | _ => .fault .phaseNotOfOperation) s

end Sys2Proof.Machine
end

