-- ==== Sys2Proof/Machine/Encoder.lean ====
section
/-! DEFINITION. Machine/Encoder.lean: the command encoder (41_encode.md). -/

namespace Sys2Proof.Machine

/-- The covered bytes LEN, ADDR, CMD, REG, PAYLOADLEN of a request (30_encoding.md R102, offsets 2 to 6). -/
def State.requestBody (s : State) : List Byte :=
  [s.cfgLen, s.cfgAddr, s.cfgFcmd, s.curReg, s.curPlen]

/-- The checksum of the request (41_encode.md R160). -/
def State.requestCk (s : State) : Half := ck16 s.requestBody

/-- The 9-byte request frame (30_encoding.md R102). -/
def State.requestFrame (s : State) : List Byte :=
  [0x55, 0xAA] ++ s.requestBody ++ emit s.ckord s.requestCk

/-- The ENCODE step up to its end: TXBUF[0..8], TXLEN and CKSUM.CKV (41_encode.md R160). -/
def State.buildFrame (s : State) : State :=
  { s.store txBase s.requestFrame with txlen := 9, ckv := s.requestCk }

/-- The ENCODE step: it ends an ENCODE, and hands a QUERY on to SEND (41_encode.md R160). -/
def State.encodeStep (s : State) : State :=
  if s.curOp = .encode then s.buildFrame.complete .none
  else { s.buildFrame with phase := .send }

/-- ENCODE: acceptance, then the frame in PHASE ENCODE (41_encode.md R160). -/
def execEncode (reg plen : Byte) (s : State) : Outcome :=
  command .encode reg plen
    (fun s => match s.phase with
      | .encode => .next s.encodeStep
      | _ => .fault .phaseNotOfOperation) s

end Sys2Proof.Machine
end

