-- ==== Sys2Proof/Machine/Transport.lean ====
section
/-! DEFINITION. Machine/Transport.lean: the transport state machine (42_transport.md). -/

namespace Sys2Proof.Machine

/-- The SEND step: the exhaustion test, else one whole-frame push and WAIT with the timer started
(42_transport.md R183, 60_exceptions.md R312b, R316). -/
def State.sendStep (s : State) : State :=
  if s.maxTries ≤ s.tries then s.complete .timeout
  else { s.txPush s.txSpan with tries := s.tries + 1, phase := .wait, timer := .running }

/-- The bytes one capture takes: the oldest, at most 256 (42_transport.md R185). -/
def State.captured (s : State) : List Byte := s.rxfifo.take Config.rxbufSize

/-- The CAPTURE step: it moves the captured bytes into RXBUF, stops the timer, and ends an XACT or hands a QUERY on
to DECODE (42_transport.md R185, 60_exceptions.md R316). -/
def State.captureStep (s : State) : State :=
  let t := { (s.store rxBase s.captured).rxDrop Config.rxbufSize with
    rxlen := captureLen s.rxfifo.length, timer := .stopped }
  if s.curOp = .xact then t.complete .none else { t with phase := .decode }

/-- What the engine does in WAIT: CAPTURE when a byte is buffered, else it goes on waiting
(42_transport.md R185, R186). -/
def State.waitStep (s : State) : State :=
  if s.rxfifo = [] then s else s.captureStep

/-- EXPIRE is enabled in PHASE WAIT when no byte is buffered (42_transport.md R186). -/
def State.expireEnabled (s : State) : Bool :=
  decide (s.phase = .wait) && s.rxfifo.isEmpty

/-- The EXPIRE step of the DEADLINE agent: the attempt is abandoned and the timer stops
(42_transport.md R186, 60_exceptions.md R316). -/
def State.expireStep (s : State) : State :=
  { s with phase := .send, timer := .stopped }

/-- XACT: acceptance, then SEND and CAPTURE steps (42_transport.md R180). EXPIRE is the DEADLINE agent's
(Machine/Agents.lean). -/
def execXact (reg plen : Byte) (s : State) : Outcome :=
  command .xact reg plen
    (fun s => match s.phase with
      | .send => .next s.sendStep
      | .wait => .next s.waitStep
      | _ => .fault .phaseNotOfOperation) s

end Sys2Proof.Machine
end

