-- ==== Sys2Proof/Machine/Decoders.lean ====
section
/-! DEFINITION. Machine/Decoders.lean: the register decoders and the DECODE operation (43_decode.md). A decoder's meaning
starts where the DECODE step dispatches to it (43_decode.md R221 step 4): the frame is validated and TREG written. -/

namespace Sys2Proof.Machine

/-! ## The register decoders (43_decode.md section 2) -/

/-- A two-byte decoder on fewer than ten bytes: TRUNCATED and no value (43_decode.md R223, R225). TREG stays the code that
43_decode.md R221 wrote before the dispatch (10_state.md R39; DEDUCED against 60_exceptions.md R301, log 6). -/
def State.shortScalar (s : State) : State := s.complete .truncated

/-- The common part of the two-byte decoders (43_decode.md R223), then the decoder's own writes, then completion. -/
def State.scalarDecode (s : State) (own : Half → State → State) : State :=
  if s.rxlen.val < 10 then s.shortScalar
  else
    let raw := s.rxField 6
    (own raw { s with tlmRaw := raw, tvalid := true, tcount := 0 }).complete .none

/-- `TLM_VALUE <- zext_32(raw)`. -/
def unsignedValue (raw : Half) (s : State) : State := { s with tlmValue := zext32 raw }

/-- The number of elements of a cell-voltage sequence that starts at `start`: the pairs inside `6 .. N-3`
(43_decode.md R240). -/
def cellCount (start n : Nat) : Nat := (n - 2 - start) / 2

/-- The offset at which cell voltages start (43_decode.md R240). -/
def State.cellStart (s : State) : Nat := if s.celloff then 7 else 6

/-- The cell voltages of the frame (43_decode.md R240). -/
def State.cells (s : State) : List Half :=
  (List.range (cellCount s.cellStart s.rxlen.val)).map (fun k => s.rxField (s.cellStart + 2 * k))

/-- The serial-number bytes `b[6 .. N-3]` (43_decode.md R241). -/
def State.serial (s : State) : List Byte := s.bytesAt (rxBase + 6) (s.rxlen.val - 8)

/-- DEC_SERIAL, 0x10 (43_decode.md R241). -/
def execDecSerial (s : State) : Outcome :=
  let c := BitVec.ofNat 8 s.serial.length
  .next (State.complete
    { (s.store elemBase (elemBytes (s.serial.map (fun b => b.zeroExtend 16)))).store snBase s.serial with
      tcount := c, tvalid := true, cslen := c, csv := true } .none)

/-- DEC_FWVER, 0x17 (43_decode.md R231). -/
def execDecFwver (s : State) : Outcome := .next (s.scalarDecode unsignedValue)

/-- DEC_FACTCAP, 0x18 (43_decode.md R230). -/
def execDecFactcap (s : State) : Outcome := .next (s.scalarDecode unsignedValue)

/-- DEC_ACTCAP, 0x19 (43_decode.md R232). -/
def execDecActcap (s : State) : Outcome := .next (s.scalarDecode unsignedValue)

/-- DEC_STATUS, 0x30 (43_decode.md R233): the flags are the OPEN parameter applied to bytes 6 and 7. -/
def execDecStatus (s : State) : Outcome :=
  .next (s.scalarDecode (fun raw t =>
    { unsignedValue raw t with tlmFlags := Config.statusBitFn (s.rxByte 6) (s.rxByte 7) }))

/-- DEC_REMCAP_MAH, 0x31 (43_decode.md R234). -/
def execDecRemcapMah (s : State) : Outcome := .next (s.scalarDecode unsignedValue)

/-- DEC_REMCAP_PCT, 0x32 (43_decode.md R235). -/
def execDecRemcapPct (s : State) : Outcome := .next (s.scalarDecode unsignedValue)

/-- DEC_CURRENT, 0x33, signed and scaled by 10, and the current cache (43_decode.md R236, R237). -/
def execDecCurrent (s : State) : Outcome :=
  .next (s.scalarDecode (fun raw t =>
    { t with tlmValue := sext32 raw * 10, cacheI := sext32 raw * 10, civ := true }))

/-- DEC_VOLTAGE, 0x34, scaled by 10 (43_decode.md R238). -/
def execDecVoltage (s : State) : Outcome :=
  .next (s.scalarDecode (fun raw t => { t with tlmValue := zext32 raw * 10 }))

/-- DEC_HEALTH, 0x3B (43_decode.md R239). -/
def execDecHealth (s : State) : Outcome := .next (s.scalarDecode unsignedValue)

/-- DEC_CELLS, 0x40 (43_decode.md R240). -/
def execDecCells (s : State) : Outcome :=
  .next (State.complete
    { s.store elemBase (elemBytes s.cells) with
      tcount := BitVec.ofNat 8 s.cells.length, tvalid := true } .none)

/-- DEC_NONE, any other code: no decode and no error (43_decode.md R242). -/
def execDecNone (_code : Byte) (s : State) : Outcome := .next (s.complete .none)

/-- The dispatch by response byte 5 (43_decode.md R221 step 4, 30_encoding.md R111, R114). -/
def runDecoder (code : Byte) (s : State) : Outcome :=
  match code with
  | 0x18 => execDecFactcap s
  | 0x17 => execDecFwver s
  | 0x19 => execDecActcap s
  | 0x30 => execDecStatus s
  | 0x31 => execDecRemcapMah s
  | 0x32 => execDecRemcapPct s
  | 0x33 => execDecCurrent s
  | 0x34 => execDecVoltage s
  | 0x3B => execDecHealth s
  | 0x40 => execDecCells s
  | 0x10 => execDecSerial s
  | c => execDecNone c s

/-! ## DECODE (43_decode.md section 1) -/

/-- The telemetry outputs every DECODE writes to 0 first (43_decode.md R222). -/
def State.clearTlm (s : State) : State :=
  { s with
    treg := 0, tvalid := false, tcount := 0
    tlmValue := 0, tlmRaw := 0, tlmFlags := 0 }

/-- The validation of the frame, first failing check first (43_decode.md R221, R224); none when it passes. -/
def State.frameError (s : State) : Option Cause :=
  if s.rxlen.val < 4 then some .truncated
  else if verify s.ckord s.rxFrame = false then some .checksum
  else if s.rxlen.val < 6 then some .regMismatch
  else if s.rxByte 5 ≠ s.curReg then some .regMismatch
  else none

/-- The state in which the DECODE step dispatches: telemetry cleared, TREG the echo (43_decode.md R221). -/
def State.atDispatch (s : State) : State := { s.clearTlm with treg := s.rxByte 5 }

/-- The DECODE step (43_decode.md R221). -/
def State.decodeStep (s : State) : Outcome :=
  match s.frameError with
  | some e => .next (s.clearTlm.complete e)
  | none => runDecoder (s.rxByte 5) s.atDispatch

/-- DECODE: acceptance, then validation and dispatch in PHASE DECODE (43_decode.md R220). -/
def execDecode (reg plen : Byte) (s : State) : Outcome :=
  command .decode reg plen
    (fun s => match s.phase with
      | .decode => s.decodeStep
      | _ => .fault .phaseNotOfOperation) s

end Sys2Proof.Machine
end

