-- ==== Sys2Proof/Machine/Query.lean ====
section
/-! DEFINITION. Machine/Query.lean: the fused query (44_query_host.md) and the illegal command word (60_exceptions.md R306). -/

namespace Sys2Proof.Machine

/-- QUERY: acceptance, then the steps of ENCODE, of the transport and of DECODE (44_query_host.md R270). -/
def execQuery (reg plen : Byte) (s : State) : Outcome :=
  command .query reg plen
    (fun s => match s.phase with
      | .encode => .next s.encodeStep
      | .send => .next s.sendStep
      | .wait => .next s.waitStep
      | .decode => s.decodeStep
      | _ => .fault .phaseNotOfOperation) s

/-- ILLEGAL: while idle the word completes at once with ILLEGAL_CMD (60_exceptions.md R306), while BUSY = 1 it is
dropped (60_exceptions.md R307, R312a). -/
def execIllegal (_w : Word) (s : State) : Outcome :=
  .next (if s.busy then s.dropWrite else s.rejectIllegal)

end Sys2Proof.Machine
end

