-- ==== Sys2Proof/Machine/Bus.lean ====
section
/-! DEFINITION. Machine/Bus.lean: the host register map and the host's accesses (20_memory.md), all but a write of CMD. -/

namespace Sys2Proof.Machine

/-- What lies at a host offset (20_memory.md R71). -/
inductive Region where
  | ctrl | status | cmd | framecfg | timing | cksum | txlen | rxlen | tlmInfo | tlmValue | tlmRaw | tlmFlags
  | cacheI | cacheInfo | txbuf | rxbuf | tlmElem | cacheSn | reserved
  deriving DecidableEq, Repr

/-- The map of 20_memory.md R71, for word-aligned offsets. -/
def regionAt (off : Offset) : Region :=
  let a := off.toNat
  if a = 0x000 then .ctrl
  else if a = 0x004 then .status
  else if a = 0x008 then .cmd
  else if a = 0x00C then .framecfg
  else if a = 0x010 then .timing
  else if a = 0x014 then .cksum
  else if a = 0x018 then .txlen
  else if a = 0x01C then .rxlen
  else if a = 0x020 then .tlmInfo
  else if a = 0x024 then .tlmValue
  else if a = 0x028 then .tlmRaw
  else if a = 0x02C then .tlmFlags
  else if a = 0x030 then .cacheI
  else if a = 0x034 then .cacheInfo
  else if a < 0x100 then .reserved
  else if a < 0x200 then .txbuf
  else if a < 0x300 then .rxbuf
  else if a < 0x4F0 then .tlmElem
  else if a < 0x500 then .reserved
  else if a < 0x5F8 then .cacheSn
  else .reserved

/-- A host access the bus performs: 32 bits wide and word-aligned (20_memory.md R74). -/
def accessOk (off : Offset) (width : Nat) : Bool :=
  decide (width = 4) && decide (off.toNat % 4 = 0)

/-- The word four buffer bytes are read as (20_memory.md R72; TLM_ELEM's elements are two bytes each, so its words are
packed the same way). -/
def State.bufferWord (s : State) (a : Nat) : Word :=
  le32 (s.byteAt a) (s.byteAt (a + 1)) (s.byteAt (a + 2)) (s.byteAt (a + 3))

/-- `MemRead(off, 4)` (20_memory.md R72, R75). -/
def State.memRead (s : State) (off : Offset) : Word :=
  match regionAt off with
  | .ctrl => s.ctrlWord
  | .status => s.statusWord
  | .cmd => 0
  | .framecfg => s.framecfgWord
  | .timing => s.timingWord
  | .cksum => s.ckv.zeroExtend 32
  | .txlen => BitVec.ofNat 32 s.txlen.val
  | .rxlen => BitVec.ofNat 32 s.rxlen.val
  | .tlmInfo => s.tlmInfoWord
  | .tlmValue => s.tlmValue
  | .tlmRaw => s.tlmRaw.zeroExtend 32
  | .tlmFlags => s.tlmFlags.zeroExtend 32
  | .cacheI => s.cacheI
  | .cacheInfo => s.cacheInfoWord
  | .txbuf => s.bufferWord off.toNat
  | .rxbuf => s.bufferWord off.toNat
  | .tlmElem => s.bufferWord off.toNat
  | .cacheSn => s.bufferWord off.toNat
  | .reserved => 0

/-- `MemWrite(off, 4, v)` while STATUS.BUSY = 0, for every offset but CMD's (20_memory.md R73, R75). -/
def State.memWriteIdle (s : State) (off : Offset) (v : Word) : State :=
  match regionAt off with
  | .ctrl => s.writeCtrl v
  | .status => s.w1cStatus v
  | .framecfg => s.writeFramecfg v
  | .timing => s.writeTiming v
  | .txlen => { s with txlen := clampLen v }
  | .rxlen => { s with rxlen := clampLen v }
  | .txbuf => s.store off.toNat (wordBytes v)
  | .rxbuf => s.store off.toNat (wordBytes v)
  | .cmd | .cksum | .tlmInfo | .tlmValue | .tlmRaw | .tlmFlags | .cacheI | .cacheInfo
  | .tlmElem | .cacheSn | .reserved => s

/-- `MemWrite(off, 4, v)` while STATUS.BUSY = 1 (20_memory.md R76, 60_exceptions.md R307). -/
def State.memWriteBusy (s : State) (off : Offset) (v : Word) : State :=
  match regionAt off with
  | .ctrl | .cmd | .framecfg | .timing | .txlen | .rxlen | .txbuf | .rxbuf => s.dropWrite
  | .status => s.w1cStatus v
  | .cksum | .tlmInfo | .tlmValue | .tlmRaw | .tlmFlags | .cacheI | .cacheInfo
  | .tlmElem | .cacheSn | .reserved => s

end Sys2Proof.Machine
end

