-- ==== Sys2Proof/Machine/Dispatch.lean ====
section
/-! DEFINITION. Machine/Dispatch.lean: one arm per row of opcode_table.json. -/

namespace Sys2Proof.Machine

def exec (i : Instr) (s : State) : Host.Outcome State Fault Refusal :=
  match i with
  | .ckcomp reg plen => Sys2Proof.Machine.execCkcomp reg plen s
  | .ckver reg plen => Sys2Proof.Machine.execCkver reg plen s
  | .encode reg plen => Sys2Proof.Machine.execEncode reg plen s
  | .xact reg plen => Sys2Proof.Machine.execXact reg plen s
  | .decode reg plen => Sys2Proof.Machine.execDecode reg plen s
  | .query reg plen => Sys2Proof.Machine.execQuery reg plen s
  | .decSerial => Sys2Proof.Machine.execDecSerial s
  | .decFwver => Sys2Proof.Machine.execDecFwver s
  | .decFactcap => Sys2Proof.Machine.execDecFactcap s
  | .decActcap => Sys2Proof.Machine.execDecActcap s
  | .decStatus => Sys2Proof.Machine.execDecStatus s
  | .decRemcapMah => Sys2Proof.Machine.execDecRemcapMah s
  | .decRemcapPct => Sys2Proof.Machine.execDecRemcapPct s
  | .decCurrent => Sys2Proof.Machine.execDecCurrent s
  | .decVoltage => Sys2Proof.Machine.execDecVoltage s
  | .decHealth => Sys2Proof.Machine.execDecHealth s
  | .decCells => Sys2Proof.Machine.execDecCells s
  | .decNone code => Sys2Proof.Machine.execDecNone code s
  | .illegal w => Sys2Proof.Machine.execIllegal w s

end Sys2Proof.Machine
end

