-- ==== Sys2Proof/Machine/Agents.lean ====
section
/-! DEFINITION. Machine/Agents.lean: what each agent does at one instant (00_scope.md R14, 20_memory.md R80). -/

namespace Sys2Proof.Machine

/-- The command in progress, from its latches (10_state.md R47). -/
def State.current (s : State) : Option Instr :=
  match s.curOp with
  | .none => none
  | .ckcomp => some (.ckcomp s.curReg s.curPlen)
  | .ckver => some (.ckver s.curReg s.curPlen)
  | .encode => some (.encode s.curReg s.curPlen)
  | .xact => some (.xact s.curReg s.curPlen)
  | .decode => some (.decode s.curReg s.curPlen)
  | .query => some (.query s.curReg s.curPlen)

/-- ENGINE: while BUSY = 1 the next step of the command in progress; while idle no step is enabled
(10_state.md R48, 60_exceptions.md R310; log 14). -/
def engineMove (s : State) : Outcome :=
  if s.busy then
    match s.current with
    | some i => exec i s
    | none => .fault .phaseNotOfOperation
  else .next s

/-- DEADLINE: EXPIRE where it is enabled, else nothing (42_transport.md R186; log 14). -/
def deadlineMove (s : State) : Outcome :=
  .next (if s.expireEnabled then s.expireStep else s)

/-- The move of the machine when no other event comes: EXPIRE if the engine waits on an empty FIFO, else the engine
(42_transport.md R187, R190: the fair schedule; log 2). -/
def fairMove (s : State) : Outcome :=
  if s.expireEnabled then deadlineMove s else engineMove s

/-- HOST: a read, or the bus error of an access that is not performed (20_memory.md R72, R74). -/
def hostReadMove (off : Offset) (width : Nat) (s : State) : Outcome :=
  if accessOk off width then .next (s.hear (s.memRead off))
  else .fault (.hostBusError off)

/-- HOST: a write. The BUSY test comes before the command's legality (60_exceptions.md R312a); a word written to CMD
while idle is decoded and run (20_memory.md R73, R74, R76). -/
def hostWriteMove (off : Offset) (width : Nat) (v : Word) (s : State) : Outcome :=
  if accessOk off width then
    if s.busy then .next (s.memWriteBusy off v)
    else if regionAt off = .cmd then exec (decodeCmd v) s
    else .next (s.memWriteIdle off v)
  else .fault (.hostBusError off)

/-- HOST: one turn of `waitdone`: read STATUS, and while its bit 1 is 0 go round again, the machine moving between
the reads (30_encoding.md R117; log 15, which also says what the loop does under reset). -/
def waitDoneMove (s : State) : Outcome :=
  if s.statusWord.getLsbD 1 then .next (s.hear s.statusWord)
  else fairMove ((s.hear s.statusWord).withAgenda (.waitDone :: s.agenda))

/-- PEER: delivery, appended to the receive FIFO (10_state.md R50). -/
def State.deliver (s : State) (bytes : List Byte) : State :=
  { s with rxfifo := s.rxfifo ++ bytes }

/-- PEER: consumption from the front of the transmit channel (10_state.md R50). -/
def State.consume (s : State) (count : Nat) : State :=
  { s with txchan := s.txchan.drop count }

/-- While `rst` is asserted no host access, no engine step and no EXPIRE takes effect
(70_reset_and_hazards.md R350): its event is spent and changes nothing. DESIGN CHOICE for a `waitDone` (log 15): the spec
gives no value for a poll that is not performed, and the model ends the loop there, DONE = 1 not read. -/
def unlessReset (agent : State → Outcome) (s : State) : Outcome :=
  if s.inReset then .next s else agent s

/-- What one event does. The PEER is outside the block, so `rst` does not stop it (10_state.md R50). A `waitDone` met under
reset is spent without DONE = 1 having been read: the model's choice (DESIGN CHOICE, log 15). -/
def move : Event → State → Outcome
  | .hostRead off width, s => unlessReset (hostReadMove off width) s
  | .hostWrite off width v, s => unlessReset (hostWriteMove off width v) s
  | .waitDone, s => unlessReset waitDoneMove s
  | .engine, s => unlessReset engineMove s
  | .deadline, s => unlessReset deadlineMove s
  | .peerDeliver bytes, s => .next (s.deliver bytes)
  | .peerConsume count, s => .next (s.consume count)
  | .resetAssert, s => .next s.assertReset
  | .resetRelease, s => .next s.releaseReset

/-- The 10-byte response by which `State.withFetchWord` presents a register code to the DECODE step: a two-byte zero
payload and the checksum of the state's own profile (30_encoding.md R103; log 16). -/
def probeFrame (ckord : Bool) (code : Byte) : List Byte :=
  let body : List Byte := [0, 0, 0, code, 0, 0]
  [0x55, 0xAA] ++ body ++ emit ckord (ck16 body)

end Sys2Proof.Machine
end

