-- ==== Sys2Proof/Machine/Step.lean ====
section
/-! DEFINITION. Machine/Step.lean: one step of the machine, and how an instruction is placed where the next step
finds it. -/

namespace Sys2Proof.Machine

/-- One step: the next event of the agenda, or, when none is left, the fair move (log 1, log 2). -/
def step (s : State) : Host.Outcome State Fault Refusal :=
  match s.agenda with
  | [] => unlessReset fairMove s
  | e :: rest => move e (s.withAgenda rest)

/-- Place an instruction so that the very next step runs it (log 16). A register code (at most 8 bits) is byte 5 of
a valid response in RXBUF with DECODE in progress; a command word is the host's next write, to CMD, of an idle
engine. -/
def State.withFetchWord (s : State) (nbits w : Nat) : State :=
  if nbits ≤ 8 then
    { s.store rxBase (probeFrame s.ckord (BitVec.ofNat 8 w)) with
      rxlen := 10, busy := true, phase := .decode, timer := .stopped
      curOp := .decode, curReg := BitVec.ofNat 8 w, inReset := false
      agenda := .engine :: s.agenda }
  else
    { s with
      busy := false, phase := .idle, timer := .stopped, curOp := .none, inReset := false
      agenda := .hostWrite 0x008 4 (BitVec.ofNat 32 w) :: s.agenda }

end Sys2Proof.Machine
end

