-- ==== Sys2Proof/Machine/HostProgram.lean ====
section
/-! DEFINITION. Machine/HostProgram.lean: the HOST's side: the assembly syntax and its expansions (30_encoding.md R116,
R117), the sequencer's cycle (44_query_host.md R282, R283) and the report events (44_query_host.md R284). -/

namespace Sys2Proof.Machine

/-- One line of the host assembly syntax, pseudo-instructions included (30_encoding.md R116, R117). -/
inductive AsmLine where
  | sw (off : Offset) (v : Word)
  | lw (off : Offset)
  | ckcomp
  | ckver
  | encode (reg plen : Byte)
  | xact
  | decode (reg : Byte)
  | query (reg plen : Byte)
  | waitdone
  | clrdone
  | clrovf
  | setprofile (ckord celloff ie : Bool)
  | ldrx (bytes : List Byte)
  | ldtx (bytes : List Byte)
  deriving DecidableEq, Repr

/-- Bytes packed four to a word, the last one padded with 0 (30_encoding.md R117). -/
def packWords : List Byte → List Word
  | [] => []
  | [a] => [le32 a 0 0 0]
  | [a, b] => [le32 a b 0 0]
  | [a, b, c] => [le32 a b c 0]
  | a :: b :: c :: d :: rest => le32 a b c d :: packWords rest

/-- Word writes from an offset upwards. -/
def swAll : Offset → List Word → List Event
  | _, [] => []
  | off, v :: vs => .hostWrite off 4 v :: swAll (off + 4) vs

/-- The bus accesses a line stands for (30_encoding.md R116, R117). -/
def AsmLine.expand : AsmLine → List Event
  | .sw off v => [.hostWrite off 4 v]
  | .lw off => [.hostRead off 4]
  | .ckcomp => [.hostWrite 0x008 4 (cmdWord 0x1 0 0)]
  | .ckver => [.hostWrite 0x008 4 (cmdWord 0x2 0 0)]
  | .encode reg plen => [.hostWrite 0x008 4 (cmdWord 0x3 reg plen)]
  | .xact => [.hostWrite 0x008 4 (cmdWord 0x4 0 0)]
  | .decode reg => [.hostWrite 0x008 4 (cmdWord 0x5 reg 0)]
  | .query reg plen => [.hostWrite 0x008 4 (cmdWord 0x6 reg plen)]
  | .waitdone => [.waitDone]
  | .clrdone => [.hostWrite 0x004 4 0x00000002]
  | .clrovf => [.hostWrite 0x004 4 0x00000004]
  | .setprofile ckord celloff ie =>
    [.hostWrite 0x000 4 (0#29 ++ BitVec.ofBool celloff ++ BitVec.ofBool ckord ++ BitVec.ofBool ie)]
  | .ldrx bytes => swAll 0x200 (packWords bytes) ++ [.hostWrite 0x01C 4 (BitVec.ofNat 32 bytes.length)]
  | .ldtx bytes => swAll 0x100 (packWords bytes) ++ [.hostWrite 0x018 4 (BitVec.ofNat 32 bytes.length)]

/-- A host program as the events it puts on the agenda, in program order (44_query_host.md R280). -/
def hostProgram (lines : List AsmLine) : List Event := lines.flatMap AsmLine.expand

/-- One cycle of the sequencer over its list of (REG, PLEN) pairs, each transaction ended before the next and the next
tried whatever the outcome (44_query_host.md R280, R282). The list is the OPEN parameter `SEQ_LIST`: an argument
(44_query_host.md R283; log 17). -/
def sequencerCycle (seqList : List (Byte × Byte)) : List AsmLine :=
  seqList.flatMap (fun rp => [.query rp.1 rp.2, .waitdone])

/-- The field names of 30_encoding.md R111, without the parentheses. -/
inductive FieldName where
  | serialNumber | firmwareVersion | factoryCapacity | actualCapacity | statusBits | remainingCapacity
  | current | packVoltage | health | perCellVoltages
  deriving DecidableEq, Repr

/-- The units of 30_encoding.md R111. DEDUCED: the parenthesis after a name holds its unit, and a name without one, or
with "(16 flags)", has none (log 17). -/
inductive FieldUnit where
  | none | mAh | percent | mA | mV
  deriving DecidableEq, Repr

/-- The name and the unit of a register code (30_encoding.md R111); nothing for a code without a decoder (R114). -/
def fieldOf (code : Byte) : Option (FieldName × FieldUnit) :=
  match code with
  | 0x10 => some (.serialNumber, .none)
  | 0x17 => some (.firmwareVersion, .none)
  | 0x18 => some (.factoryCapacity, .mAh)
  | 0x19 => some (.actualCapacity, .mAh)
  | 0x30 => some (.statusBits, .none)
  | 0x31 => some (.remainingCapacity, .mAh)
  | 0x32 => some (.remainingCapacity, .percent)
  | 0x33 => some (.current, .mA)
  | 0x34 => some (.packVoltage, .mV)
  | 0x3B => some (.health, .percent)
  | 0x40 => some (.perCellVoltages, .mV)
  | _ => none

/-- The value of a field event (44_query_host.md R284). -/
inductive FieldValue where
  /-- TLM_VALUE, of a scalar code. -/
  | scalar (value : Word)
  /-- TLM_ELEM[0 .. TCOUNT-1], of 0x40. -/
  | elements (values : List Half)
  /-- The bytes of TLM_ELEM as a string, of 0x10. -/
  | string (bytes : List Byte)
  deriving DecidableEq, Repr

/-- A report event (44_query_host.md R284). -/
inductive Report where
  /-- One error event with its cause. -/
  | failure (cause : Cause)
  /-- One field event: field name, value, unit. -/
  | field (name : FieldName) (value : FieldValue) (unit : FieldUnit)
  deriving DecidableEq, Repr

/-- `TLM_ELEM[k]` (10_state.md R43). -/
def State.elem (s : State) (k : Nat) : Half :=
  le16 (s.byteAt (elemBase + 2 * k)) (s.byteAt (elemBase + 2 * k + 1))

/-- `TLM_ELEM[0 .. TCOUNT-1]`. -/
def State.elems (s : State) : List Half := (List.range s.tcount.toNat).map s.elem

/-- The value of the field event for TREG (44_query_host.md R284). -/
def State.fieldValue (s : State) : FieldValue :=
  match s.treg with
  | 0x40 => .elements s.elems
  | 0x10 => .string (s.elems.map loByte)
  | _ => .scalar s.tlmValue

/-- The event a host forms from a completed QUERY, none for a register code without a decoder
(44_query_host.md R284). -/
def State.report (s : State) : Option Report :=
  if s.err ≠ .none then some (.failure s.err)
  else if s.tvalid then (fieldOf s.treg).map (fun field => .field field.1 s.fieldValue field.2)
  else none

end Sys2Proof.Machine
end

