-- ==== Sys2Proof/Safety.lean ====
section
/-! DEFINITION. Safety.lean: the invariant of the machine, what a run that keeps the host contract is, and the words
the statements are written in. -/

namespace Sys2Proof.Machine

/-- The phases an operation in progress goes through (10_state.md R48; 44_query_host.md R270). -/
def Op.phases : Op → List Phase
  | .none => [.idle]
  | .ckcomp => [.ckcomp]
  | .ckver => [.ckver]
  | .encode => [.encode]
  | .xact => [.send, .wait]
  | .decode => [.decode]
  | .query => [.encode, .send, .wait, .decode]

/-- The invariant. BUSY = 1 exactly when PHASE is not IDLE (10_state.md R32); PHASE is one of the phases of CUR_OP,
which is 0 exactly when idle (R47, R48); the timer runs exactly in WAIT (60_exceptions.md R316); while BUSY = 1
TRIES has not passed MAX_TRIES (42_transport.md R183); under reset the engine is idle (70_reset_and_hazards.md R350);
TCOUNT and CSLEN are at most 248 (10_state.md R44, 43_decode.md R241); the memory is in canonical form and lists only
buffer bytes. -/
structure State.Inv (s : State) : Prop where
  busy_iff : s.busy = true ↔ s.phase ≠ .idle
  phase_mem : s.phase ∈ s.curOp.phases
  timer_iff : s.timer = .running ↔ s.phase = .wait
  tries_le : s.busy = true → s.tries ≤ s.maxTries
  reset_idle : s.inReset = true → s.phase = .idle
  tcount_le : s.tcount ≤ 248
  cslen_le : s.cslen ≤ 248
  mem_wf : s.mem.wf = true
  mem_buffers : s.mem.onlyBuffers = true

/-- The host contract as a run shows it: no host write was dropped (44_query_host.md R281;
93_implementation_defined.md U14: claims take OVF = 0 as a premise). -/
def State.contractKept (s : State) : Prop := s.ovf = false

/-- An outcome that is no fault: no host bus error (20_memory.md R74). -/
def Outcome.noFault : Outcome → Prop
  | .fault _ => False
  | _ => True

/-- The state an outcome goes on in. -/
def Outcome.state? : Outcome → Option State
  | .next t => some t
  | _ => none

/-! ## Words the statements are written in -/

/-- What a completion with a cause leaves (60_exceptions.md R310). -/
def Completed (e : Cause) (t : State) : Prop :=
  t.err = e ∧ t.phase = .idle ∧ t.busy = false ∧ t.done = true ∧ t.curOp = .none

/-- Every buffer byte outside `base .. base + n - 1` reads as before. -/
def SameBytesOutside (base n : Nat) (s t : State) : Prop :=
  ∀ a, ¬ (base ≤ a ∧ a < base + n) → t.byteAt a = s.byteAt a

/-- The command words 30_encoding.md R112 calls illegal: OP is 0 or 7 to 15, or RSV0 or RSV1 is not 0. -/
def IllegalWord (w : Word) : Prop :=
  w.toNat % 16 = 0 ∨ 7 ≤ w.toNat % 16 ∨ w.toNat / 0x10 % 16 ≠ 0 ∨ w.toNat / 0x1000000 ≠ 0

/-- The engine is at a step of the operation `op`, in the phase `p` (10_state.md R48). -/
def State.At (s : State) (op : Op) (p : Phase) : Prop :=
  s.busy = true ∧ s.curOp = op ∧ s.phase = p

/-- The instruction `i` is the operation in progress, at its DECODE step: a DECODE's, or a QUERY's
(43_decode.md R221, 44_query_host.md R270). -/
def State.AtDecodeStep (s : State) (i : Instr) : Prop :=
  (∃ r p, i = .decode r p ∧ s.At .decode .decode) ∨ (∃ r p, i = .query r p ∧ s.At .query .decode)

/-- The register codes of the two-byte decoders (43_decode.md R230 to R239). -/
def scalarCodes : List Nat := [0x17, 0x18, 0x19, 0x30, 0x31, 0x32, 0x33, 0x34, 0x3B]

/-- The sum of the bytes, a natural number. -/
def byteSum (bytes : List Byte) : Nat := (bytes.map BitVec.toNat).sum

end Sys2Proof.Machine
end

