-- ==== Sys2Proof/Certificates/Slice0/Obligations.lean ====
section
/-! DEFINITION. Certificates/Slice0/Obligations.lean: what is to be proved of the NBFE. A statement of the form
`exec i s = .next t ∧ t = { s with mem := t.mem, … }` gives every field of the next state: the fields written after `with`
as shown, every other field as in `s`, and the buffer bytes by the clauses about `byteAt`. -/

open Sys2Proof Sys2Proof.Machine

/-! ## Encoding -/

/-- Every well-formed instruction decodes back from its encoding, with every operand (30_encoding.md R101, R110, R111). -/
def Obligations.DecodeOfEncodeIsTheInstruction : Prop :=
  ∀ i : Instr, i.wf = true → decode (encode i) = i

/-- Every command word and every register code has one meaning, a well-formed one, which encodes back to it
(30_encoding.md R110 to R114). -/
def Obligations.EncodeOfDecodeIsTheEncoding : Prop :=
  ∀ e : Encoding, (decode e).wf = true ∧ encode (decode e) = e

/-- Words written out from the spec's encodings decode to what they stand for (95_test_vectors.md DV-EN-1, DV-EN-10,
DV-Q-1, DV-X-3, DV-X-5; 30_encoding.md R111). -/
def Obligations.SpecWordsDecodeAsWritten : Prop :=
  decode (.cmd 0x00023303) = .encode 0x33 0x02 ∧ decode (.cmd 0x00104003) = .encode 0x40 0x10 ∧
  decode (.cmd 0x00023406) = .query 0x34 0x02 ∧ decode (.cmd 0x00000011) = .illegal 0x00000011 ∧
  decode (.cmd 0xFFFF3306) = .illegal 0xFFFF3306 ∧ decode (.respReg 0x3B) = .decHealth ∧
  decode (.respReg 0x20) = .decNone 0x20

/-! ## The step -/

/-- A word the host writes to CMD of an idle engine is decoded and run (20_memory.md R73, 60_exceptions.md R305). -/
def Obligations.CmdWriteRunsTheDecodedCommand : Prop :=
  ∀ (s : State) (w : Word) (rest : List Event),
    s.agenda = .hostWrite 0x008 4 w :: rest → s.inReset = false → s.busy = false →
    step s = exec (decodeCmd w) { s with agenda := rest }

/-- An engine step runs the command its latches hold, and an idle engine takes none (10_state.md R47, R48; that an
engine event met while idle is answered by a next state with nothing changed is the model's choice, log 14). -/
def Obligations.EngineRunsTheCommandInProgress : Prop :=
  ∀ (s : State) (rest : List Event), s.agenda = .engine :: rest → s.inReset = false →
    (s.busy = false → step s = .next { s with agenda := rest }) ∧
    (∀ i, s.busy = true → s.current = some i → step s = exec i { s with agenda := rest }) ∧
    (s.curOp = .none → s.current = none) ∧
    (s.curOp ≠ .none → ∃ i, s.current = some i ∧
      encode i = .cmd (cmdWord s.curOp.code s.curReg s.curPlen))

/-- Past the validation of the frame, DECODE and QUERY run the decoder that response byte 5 encodes, on telemetry
outputs cleared and TREG written (43_decode.md R221, 30_encoding.md R111, R114). That the step is divided at the
dispatch, the decoder's meaning starting with TREG written, is the model's reading (DEDUCED, log 18); that a
decoder leaves TREG so after a short scalar is too (DEDUCED, log 6). -/
def Obligations.ResponseByteFiveSelectsTheDecoder : Prop :=
  ∀ (s : State) (r p : Byte),
    6 ≤ s.rxlen.val → verify s.ckord (s.bytesAt 0x200 s.rxlen.val) = true → s.byteAt 0x205 = s.curReg →
    (s.At .decode .decode → exec (.decode r p) s = exec (decodeRegCode (s.byteAt 0x205))
      { s with treg := s.byteAt 0x205, tvalid := false, tcount := 0, tlmValue := 0, tlmRaw := 0, tlmFlags := 0 }) ∧
    (s.At .query .decode → exec (.query r p) s = exec (decodeRegCode (s.byteAt 0x205))
      { s with treg := s.byteAt 0x205, tvalid := false, tcount := 0, tlmValue := 0, tlmRaw := 0, tlmFlags := 0 })

/-- With no event left the model runs the fair schedule: EXPIRE when the engine waits on an empty FIFO, else the
engine (the model's choice, log 2; 42_transport.md R187). -/
def Obligations.EmptyAgendaRunsTheFairSchedule : Prop :=
  ∀ (s : State), s.agenda = [] → s.inReset = false →
    (s.phase = .wait → s.rxfifo = [] → step s = .next { s with phase := .send, timer := .stopped }) ∧
    (s.phase ≠ .wait ∨ s.rxfifo ≠ [] → s.busy = false → step s = .next s) ∧
    (∀ i, s.phase ≠ .wait ∨ s.rxfifo ≠ [] → s.busy = true → s.current = some i → step s = exec i s)

/-! ## The host bus -/

/-- 20_memory.md R74: an access that is not a 32-bit aligned one is a fault of the host program. -/
def Obligations.MisalignedOrNarrowAccessFaults : Prop :=
  ∀ (s : State) (off : Offset) (width : Nat) (v : Word) (rest : List Event),
    s.inReset = false → width ≠ 4 ∨ off.toNat % 4 ≠ 0 →
    (s.agenda = .hostRead off width :: rest → step s = .fault (.hostBusError off)) ∧
    (s.agenda = .hostWrite off width v :: rest → step s = .fault (.hostBusError off))

/-- A read changes nothing of the NBFE, busy or idle; the host receives the word (20_memory.md R72, R77, R81; the place
the word is put is the model's own, log 11). -/
def Obligations.ReadsHaveNoSideEffect : Prop :=
  ∀ (s : State) (off : Offset) (rest : List Event),
    s.agenda = .hostRead off 4 :: rest → s.inReset = false → off.toNat % 4 = 0 →
    step s = .next { s with agenda := rest, hostData := s.memRead off }

/-- The word each register offset reads as, its fields at their bits and every reserved bit 0
(10_state.md R31 to R44, 20_memory.md R72), with the code of every cause in ERR (60_exceptions.md R300) and of every
phase in PHASE (10_state.md R48). -/
def Obligations.RegisterWordsAreTheirFields : Prop :=
  [Cause.none, .timeout, .checksum, .regMismatch, .truncated, .illegalCmd].map (fun e => e.code.toNat) =
    [0, 1, 2, 3, 4, 5] ∧
  [Phase.idle, .ckcomp, .ckver, .encode, .send, .wait, .decode].map (fun p => p.code.toNat) = [0, 1, 2, 3, 4, 5, 6] ∧
  ∀ s : State,
    (s.memRead 0x000).toNat = s.ie.toNat + 2 * s.ckord.toNat + 4 * s.celloff.toNat ∧
    (s.memRead 0x004).toNat = s.busy.toNat + 2 * s.done.toNat + 4 * s.ovf.toNat + 0x10 * s.err.code.toNat +
      0x100 * s.tries.toNat + 0x10000 * s.phase.code.toNat ∧
    (s.memRead 0x008).toNat = 0 ∧
    (s.memRead 0x00C).toNat = s.cfgLen.toNat + 0x100 * s.cfgAddr.toNat + 0x10000 * s.cfgFcmd.toNat ∧
    (s.memRead 0x010).toNat = s.timeoutMs.toNat + 0x10000 * s.maxTries.toNat ∧
    (s.memRead 0x014).toNat = s.ckv.toNat ∧
    (s.memRead 0x018).toNat = s.txlen.val ∧
    (s.memRead 0x01C).toNat = s.rxlen.val ∧
    (s.memRead 0x020).toNat = s.treg.toNat + 0x100 * s.tvalid.toNat + 0x10000 * s.tcount.toNat ∧
    s.memRead 0x024 = s.tlmValue ∧
    (s.memRead 0x028).toNat = s.tlmRaw.toNat ∧
    (s.memRead 0x02C).toNat = s.tlmFlags.toNat ∧
    s.memRead 0x030 = s.cacheI ∧
    (s.memRead 0x034).toNat = s.civ.toNat + 2 * s.csv.toNat + 0x100 * s.cslen.toNat

/-- Host words pack buffer bytes little-endian, and TLM_ELEM two elements to a word, the lower one in the low half
(20_memory.md R72, R78). -/
def Obligations.BufferWordsAreLittleEndian : Prop :=
  ∀ (s : State) (off : Offset), off.toNat % 4 = 0 →
    (0x100 ≤ off.toNat ∧ off.toNat < 0x300 ∨ 0x500 ≤ off.toNat ∧ off.toNat < 0x5F8 →
      (s.memRead off).toNat = (s.byteAt off.toNat).toNat + 0x100 * (s.byteAt (off.toNat + 1)).toNat +
        0x10000 * (s.byteAt (off.toNat + 2)).toNat + 0x1000000 * (s.byteAt (off.toNat + 3)).toNat) ∧
    (∀ j, j < 124 → off.toNat = 0x300 + 4 * j →
      (s.memRead off).toNat = (s.elem (2 * j)).toNat + 0x10000 * (s.elem (2 * j + 1)).toNat)

/-- 20_memory.md R75: a reserved offset reads 0, and a write there is ignored and sets no flag, idle or busy. -/
def Obligations.ReservedOffsetsReadZeroIgnoreWrites : Prop :=
  ∀ (s : State) (off : Offset) (v : Word) (rest : List Event),
    s.inReset = false → off.toNat % 4 = 0 →
    0x038 ≤ off.toNat ∧ off.toNat < 0x100 ∨ 0x4F0 ≤ off.toNat ∧ off.toNat < 0x500 ∨ 0x5F8 ≤ off.toNat →
    (s.agenda = .hostRead off 4 :: rest → step s = .next { s with agenda := rest, hostData := 0 }) ∧
    (s.agenda = .hostWrite off 4 v :: rest → step s = .next { s with agenda := rest })

/-- A write of a read-only register or buffer is ignored, idle or busy (20_memory.md R73, R76). -/
def Obligations.ReadOnlyOffsetsIgnoreWrites : Prop :=
  ∀ (s : State) (off : Offset) (v : Word) (rest : List Event),
    s.agenda = .hostWrite off 4 v :: rest → s.inReset = false → off.toNat % 4 = 0 →
    off.toNat = 0x014 ∨ 0x020 ≤ off.toNat ∧ off.toNat ≤ 0x034 ∨ 0x300 ≤ off.toNat ∧ off.toNat < 0x4F0 ∨
      0x500 ≤ off.toNat ∧ off.toNat < 0x5F8 →
    step s = .next { s with agenda := rest }

/-- A write of an RW register of an idle engine sets its defined fields and nothing else, and the host reads back what
the fields hold: reserved bits 0, the lengths clamped to 256 (20_memory.md R73, 10_state.md R31, R34, R35, R37, R38). -/
def Obligations.RegisterWriteReadsBack : Prop :=
  ∀ (s : State) (v : Word) (rest : List Event), s.inReset = false → s.busy = false →
    (∃ t, step { s with agenda := .hostWrite 0x000 4 v :: rest } = .next t ∧
      t = { s with agenda := rest, ie := t.ie, ckord := t.ckord, celloff := t.celloff } ∧
      t.memRead 0x000 = v &&& 0x00000007) ∧
    (∃ t, step { s with agenda := .hostWrite 0x00C 4 v :: rest } = .next t ∧
      t = { s with agenda := rest, cfgLen := t.cfgLen, cfgAddr := t.cfgAddr, cfgFcmd := t.cfgFcmd } ∧
      t.memRead 0x00C = v &&& 0x00FFFFFF) ∧
    (∃ t, step { s with agenda := .hostWrite 0x010 4 v :: rest } = .next t ∧
      t = { s with agenda := rest, timeoutMs := t.timeoutMs, maxTries := t.maxTries } ∧
      t.memRead 0x010 = v &&& 0x00FFFFFF) ∧
    (∃ t, step { s with agenda := .hostWrite 0x018 4 v :: rest } = .next t ∧
      t = { s with agenda := rest, txlen := t.txlen } ∧ t.txlen.val = min (v.toNat % 512) 256) ∧
    (∃ t, step { s with agenda := .hostWrite 0x01C 4 v :: rest } = .next t ∧
      t = { s with agenda := rest, rxlen := t.rxlen } ∧ t.rxlen.val = min (v.toNat % 512) 256)

/-- A word the host writes to TXBUF or RXBUF of an idle engine is stored low byte first, reads back, and no other byte
changes (20_memory.md R72, R73). -/
def Obligations.BufferWriteReadsBack : Prop :=
  ∀ (s : State) (off : Offset) (v : Word) (rest : List Event),
    s.agenda = .hostWrite off 4 v :: rest → s.inReset = false → s.busy = false →
    off.toNat % 4 = 0 → 0x100 ≤ off.toNat → off.toNat < 0x300 →
    ∃ t, step s = .next t ∧ t = { s with agenda := rest, mem := t.mem } ∧
      (∀ k, k < 4 → t.byteAt (off.toNat + k) = v.extractLsb' (8 * k) 8) ∧
      SameBytesOutside off.toNat 4 s t ∧ t.memRead off = v

/-- A write of STATUS clears DONE where bit 1 is 1 and OVF where bit 2 is 1, idle or busy, and lowers irq with DONE;
ERR stays (20_memory.md R73, R76, 60_exceptions.md R311, R313). -/
def Obligations.StatusWriteClearsDoneAndOvf : Prop :=
  ∀ (s : State) (v : Word) (rest : List Event),
    s.agenda = .hostWrite 0x004 4 v :: rest → s.inReset = false →
    ∃ t, step s = .next t ∧ t = { s with agenda := rest, done := t.done, ovf := t.ovf } ∧
      t.done = (s.done && !v.getLsbD 1) ∧ t.ovf = (s.ovf && !v.getLsbD 2) ∧
      (v.getLsbD 1 = true → t.irq = false)

/-- 20_memory.md R76, 60_exceptions.md R307: while BUSY = 1 a write to CMD, to an RW register or to TXBUF or RXBUF
changes nothing but OVF, which it sets; a write to STATUS performs its W1C effect; the other offsets ignore it. -/
def Obligations.WritesWhileBusyAreDropped : Prop :=
  ∀ (s : State) (off : Offset) (v : Word) (rest : List Event),
    s.agenda = .hostWrite off 4 v :: rest → s.inReset = false → s.busy = true → off.toNat % 4 = 0 →
    (off.toNat ∈ [0x000, 0x008, 0x00C, 0x010, 0x018, 0x01C] ∨ 0x100 ≤ off.toNat ∧ off.toNat < 0x300 →
      step s = .next { s with agenda := rest, ovf := true }) ∧
    (off.toNat = 0x004 →
      step s = .next { s with agenda := rest, done := s.done && !v.getLsbD 1, ovf := s.ovf && !v.getLsbD 2 }) ∧
    (off.toNat = 0x014 ∨ 0x020 ≤ off.toNat ∧ off.toNat < 0x100 ∨ 0x300 ≤ off.toNat →
      step s = .next { s with agenda := rest })

/-- While BUSY = 1 no read or write of the host changes anything but DONE, OVF and the word the host read: the
operation sees none of them (20_memory.md R76, R84, 42_transport.md R192). -/
def Obligations.HostCannotDisturbAnOperation : Prop :=
  ∀ (s t : State) (e : Event) (rest : List Event), s.agenda = e :: rest → s.busy = true →
    ((∃ off width, e = .hostRead off width) ∨ (∃ off width v, e = .hostWrite off width v)) →
    step s = .next t →
    t = { s with agenda := rest, done := t.done, ovf := t.ovf, hostData := t.hostData } ∧
    (t.done = true → s.done = true)

/-! ## Acceptance and rejection -/

/-- 60_exceptions.md R305: a legal word written to CMD of an idle engine is latched, clears DONE, ERR and TRIES, sets
BUSY and enters the command's first phase; no other state changes. -/
def Obligations.LegalCommandIsAccepted : Prop :=
  ∀ (s : State) (w : Word) (rest : List Event),
    s.agenda = .hostWrite 0x008 4 w :: rest → s.inReset = false → s.busy = false → ¬ IllegalWord w →
    ∃ t, step s = .next t ∧
      t = { s with
        agenda := rest, curOp := t.curOp, curReg := BitVec.ofNat 8 (w.toNat / 0x100),
        curPlen := BitVec.ofNat 8 (w.toNat / 0x10000), done := false, err := .none, tries := 0, busy := true,
        phase := t.phase } ∧
      t.curOp.code.toNat = w.toNat % 16 ∧
      (w.toNat % 16, t.phase.code.toNat) ∈ [(1, 1), (2, 2), (3, 3), (4, 4), (5, 6), (6, 3)]

/-- 30_encoding.md R112, 60_exceptions.md R306: exactly the illegal words decode to ILLEGAL, and one written while idle
sets ERR to ILLEGAL_CMD and DONE to 1 and changes nothing else; irq rises if CTRL.IE = 1. -/
def Obligations.IllegalCommandIsRejected : Prop :=
  (∀ w : Word, decodeCmd w = .illegal w ↔ IllegalWord w) ∧
  ∀ (s : State) (w : Word) (rest : List Event),
    s.agenda = .hostWrite 0x008 4 w :: rest → s.inReset = false → s.busy = false → IllegalWord w →
    step s = .next { s with agenda := rest, err := .illegalCmd, done := true } ∧
    exec (.illegal w) s = .next { s with err := .illegalCmd, done := true } ∧
    State.irq { s with agenda := rest, err := .illegalCmd, done := true } = s.ie

/-! ## The checksum -/

/-- 40_checksum.md R140, R141: `ck16` is the complement of the bytes' unsigned sum mod 2^16, its two bytes swapped. -/
def Obligations.ChecksumIsTheSwappedComplementOfTheSum : Prop :=
  ∀ S : List Byte,
    (sum16 S).toNat = byteSum S % 0x10000 ∧
    (ck16 S).toNat =
      0x100 * ((0xFFFF - byteSum S % 0x10000) % 0x100) + (0xFFFF - byteSum S % 0x10000) / 0x100

/-- 40_checksum.md R142, R144: with CKORD = 0 the high byte is sent first, with CKORD = 1 the low byte, and what is
sent is reconstructed under the same CKORD. -/
def Obligations.EmitAndReconstructAgree : Prop :=
  ∀ (b : List Byte) (v : Half),
    emit false v = [v.extractLsb' 8 8, v.extractLsb' 0 8] ∧
    emit true v = [v.extractLsb' 0 8, v.extractLsb' 8 8] ∧
    recv false (b ++ emit false v) = v ∧ recv true (b ++ emit true v) = v ∧
    (∀ y z : Byte, (recv false (b ++ [y, z])).toNat = 0x100 * y.toNat + z.toNat ∧
      (recv true (b ++ [y, z])).toNat = 0x100 * z.toNat + y.toNat)

/-- A frame of fewer than four bytes never verifies, one of exactly four verifies when its last two bytes are FF FF,
and the first two bytes take no part (40_checksum.md R146). -/
def Obligations.VerifyOfShortFramesAndMagic : Prop :=
  ∀ (ckord : Bool) (m0 m1 n0 n1 y z : Byte) (S b : List Byte),
    (b.length < 4 → verify ckord b = false) ∧
    (verify ckord [m0, m1, y, z] = true ↔ y = 0xFF ∧ z = 0xFF) ∧
    verify ckord (m0 :: m1 :: (S ++ [y, z])) = verify ckord (n0 :: n1 :: (S ++ [y, z]))

/-- 40_checksum.md R147: a frame made of any two bytes, any S of at most 252 bytes and the emitted checksum of S
verifies, under either order. -/
def Obligations.ChecksumRoundTrip : Prop :=
  ∀ (ckord : Bool) (m0 m1 : Byte) (S : List Byte), S.length ≤ 252 →
    verify ckord ([m0, m1] ++ S ++ emit ckord (ck16 S)) = true

/-- 40_checksum.md R148: flipping one bit of any byte at offset 2 to N-1 of a frame that verifies makes `verify` false;
flipping one at offset 0 or 1 never does. -/
def Obligations.SingleBitCorruptionIsDetected : Prop :=
  ∀ (ckord : Bool) (F : List Byte) (i : Nat) (j : Nat) (hi : i < F.length), F.length ≤ 256 → j < 8 →
    verify ckord F = true →
    (2 ≤ i → verify ckord (F.set i (F[i] ^^^ BitVec.twoPow 8 j)) = false) ∧
    (i < 2 → verify ckord (F.set i (F[i] ^^^ BitVec.twoPow 8 j)) = true)

/-- 40_checksum.md R149: a permutation of the covered bytes, or any other change that keeps their sum, leaves `sum16` and
the outcome of `verify` as they were. -/
def Obligations.ReorderingIsNotDetected : Prop :=
  ∀ (ckord : Bool) (m0 m1 y z : Byte) (S T : List Byte),
    S.Perm T ∨ byteSum S = byteSum T →
      sum16 S = sum16 T ∧ verify ckord ([m0, m1] ++ S ++ [y, z]) = verify ckord ([m0, m1] ++ T ++ [y, z])

/-- A frame sent with the other checksum order verifies exactly when the two bytes of its checksum are equal
(70_reset_and_hazards.md R367). -/
def Obligations.ProfileMismatchVerifiesOnlyEqualBytes : Prop :=
  ∀ (ckord : Bool) (m0 m1 : Byte) (S : List Byte),
    verify (!ckord) ([m0, m1] ++ S ++ emit ckord (ck16 S)) = true ↔
      (ck16 S).extractLsb' 8 8 = (ck16 S).extractLsb' 0 8

/-! ## CKCOMP, CKVER, ENCODE -/

/-- 40_checksum.md R143: CKCOMP completes with NONE; CKV is the checksum of TXBUF[0..TXLEN-1], 0xFFFF for TXLEN = 0;
nothing else but the completion state changes; the sum of the bytes never wraps. -/
def Obligations.CkcompWritesTheChecksum : Prop :=
  ∀ (s : State) (r p : Byte), s.At .ckcomp .ckcomp →
    ∃ t, exec (.ckcomp r p) s = .next t ∧
      t = { s with ckv := t.ckv, err := .none, phase := .idle, busy := false, done := true, curOp := .none } ∧
      t.ckv = ck16 (s.bytesAt 0x100 s.txlen.val) ∧ (s.txlen.val = 0 → t.ckv = 0xFFFF) ∧
      byteSum (s.bytesAt 0x100 s.txlen.val) ≤ 65280

/-- CKVER completes with NONE when RXBUF[0..RXLEN-1] verifies and with CHECKSUM when it does not, RXLEN < 4 included;
nothing but the completion state changes (40_checksum.md R145, 60_exceptions.md R310). -/
def Obligations.CkverReportsTheVerification : Prop :=
  ∀ (s : State) (r p : Byte), s.At .ckver .ckver →
    ∃ t, exec (.ckver r p) s = .next t ∧
      t = { s with err := t.err, phase := .idle, busy := false, done := true, curOp := .none } ∧
      (t.err = .none ↔ verify s.ckord (s.bytesAt 0x200 s.rxlen.val) = true) ∧
      (t.err = .none ∨ t.err = .checksum) ∧ (s.rxlen.val < 4 → t.err = .checksum)

/-- The ENCODE step writes the nine bytes of the request frame, TXLEN = 9 and CKV, leaves every other byte, and ends an
ENCODE or hands a QUERY on to SEND (41_encode.md R160). -/
def Obligations.EncodeBuildsTheRequestFrame : Prop :=
  ∀ (s : State) (r p : Byte),
    let body := [s.cfgLen, s.cfgAddr, s.cfgFcmd, s.curReg, s.curPlen]
    (s.At .encode .encode → ∃ t, exec (.encode r p) s = .next t ∧
      t = { s with
        mem := t.mem, txlen := 9, ckv := ck16 body, err := .none, phase := .idle, busy := false, done := true,
        curOp := .none } ∧
      t.bytesAt 0x100 9 = [0x55, 0xAA] ++ body ++ emit s.ckord (ck16 body) ∧ SameBytesOutside 0x100 9 s t) ∧
    (s.At .query .encode → ∃ t, exec (.query r p) s = .next t ∧
      t = { s with mem := t.mem, txlen := 9, ckv := ck16 body, phase := .send } ∧
      t.bytesAt 0x100 9 = [0x55, 0xAA] ++ body ++ emit s.ckord (ck16 body) ∧ SameBytesOutside 0x100 9 s t)

/-- The frame ENCODE leaves in TXBUF passes `verify` under the same CKORD (41_encode.md R160, 40_checksum.md R147), and
its content depends on the descriptor and CKORD alone (41_encode.md R162). -/
def Obligations.EncodedFrameVerifies : Prop :=
  ∀ (s u : State) (r p r' p' : Byte), s.At .encode .encode → u.At .encode .encode →
    ∃ t v, exec (.encode r p) s = .next t ∧ exec (.encode r' p') u = .next v ∧
      verify t.ckord (t.bytesAt 0x100 t.txlen.val) = true ∧
      (u.cfgLen = s.cfgLen → u.cfgAddr = s.cfgAddr → u.cfgFcmd = s.cfgFcmd → u.curReg = s.curReg →
        u.curPlen = s.curPlen → u.ckord = s.ckord → v.bytesAt 0x100 9 = t.bytesAt 0x100 9)

/-! ## The transport -/

/-- 42_transport.md R183: a SEND step with attempts left pushes TXBUF[0..TXLEN-1] once, counts it and waits; with none
left it completes with TIMEOUT. TRIES does not wrap. The same step serves XACT and QUERY. -/
def Obligations.SendPushesTheFrameOrTimesOut : Prop :=
  ∀ (s : State) (r p : Byte) (i : Instr),
    (i = .xact r p ∧ s.At .xact .send) ∨ (i = .query r p ∧ s.At .query .send) →
    (s.tries.toNat < s.maxTries.toNat →
      exec i s = .next { s with
        txchan := s.txchan ++ s.bytesAt 0x100 s.txlen.val, tries := s.tries + 1, phase := .wait,
        timer := .running } ∧ (s.tries + 1).toNat = s.tries.toNat + 1) ∧
    (s.maxTries.toNat ≤ s.tries.toNat →
      exec i s = .next { s with
        err := .timeout, phase := .idle, busy := false, done := true, curOp := .none })

/-- 42_transport.md R185: CAPTURE moves the oldest min(RxCount, 256) bytes of the receive FIFO into RXBUF[0..k-1] and
RXLEN, whatever they are, leaves the rest buffered and every other byte as it was, and ends an XACT with NONE or hands a
QUERY on to DECODE. -/
def Obligations.CaptureTakesWhatIsBuffered : Prop :=
  ∀ (s : State) (r p : Byte), s.rxfifo ≠ [] →
    let k := min s.rxfifo.length 256
    (s.At .xact .wait → ∃ t, exec (.xact r p) s = .next t ∧
      t = { s with
        mem := t.mem, rxlen := t.rxlen, rxfifo := s.rxfifo.drop k, timer := .stopped, err := .none, phase := .idle,
        busy := false, done := true, curOp := .none } ∧
      t.rxlen.val = k ∧ t.bytesAt 0x200 k = s.rxfifo.take k ∧ SameBytesOutside 0x200 k s t) ∧
    (s.At .query .wait → ∃ t, exec (.query r p) s = .next t ∧
      t = { s with
        mem := t.mem, rxlen := t.rxlen, rxfifo := s.rxfifo.drop k, timer := .stopped, phase := .decode } ∧
      t.rxlen.val = k ∧ t.bytesAt 0x200 k = s.rxfifo.take k ∧ SameBytesOutside 0x200 k s t)

/-- While no byte is buffered the engine only waits: no step of it leaves WAIT (42_transport.md R185, R186; that an
engine event is then answered by a next state with nothing changed is the model's choice, log 14). -/
def Obligations.WaitWithoutAByteOnlyWaits : Prop :=
  ∀ (s : State) (r p : Byte), s.rxfifo = [] →
    (s.At .xact .wait → exec (.xact r p) s = .next s) ∧ (s.At .query .wait → exec (.query r p) s = .next s)

/-- 42_transport.md R186: the deadline abandons the attempt in WAIT with no byte buffered, and is not enabled
otherwise (there the model's deadline event does nothing, log 14). -/
def Obligations.DeadlineAbandonsTheAttempt : Prop :=
  ∀ (s : State) (rest : List Event), s.agenda = .deadline :: rest → s.inReset = false →
    (s.phase = .wait → s.rxfifo = [] →
      step s = .next { s with agenda := rest, phase := .send, timer := .stopped }) ∧
    (s.phase ≠ .wait ∨ s.rxfifo ≠ [] → step s = .next { s with agenda := rest })

/-- On a silent link an XACT accepted with an empty receive FIFO pushes the frame exactly MAX_TRIES times, completes
with TIMEOUT and TRIES = MAX_TRIES, and leaves RXBUF, RXLEN and everything but STATUS, the latches and TXCHAN as they
were; MAX_TRIES = 0 and TXLEN = 0 included (42_transport.md R189, R190, R191, R195; the schedule is the fair one the
model runs on an empty agenda, log 2). -/
def Obligations.SilentLinkSendsExactlyMaxTries : Prop :=
  ∀ (s : State) (r p : Byte), s.Inv → s.busy = false → s.inReset = false → s.rxfifo = [] →
    s.agenda = [.hostWrite 0x008 4 (cmdWord 0x4 r p)] →
    Host.Core.run Sys2Proof.core (2 * s.maxTries.toNat + 2) s = .next { s with
      agenda := [], curReg := r, curPlen := p, done := true, err := .timeout, tries := s.maxTries,
      txchan := s.txchan ++ (List.replicate s.maxTries.toNat (s.bytesAt 0x100 s.txlen.val)).flatten }

/-! ## DECODE and the register decoders -/

/-- A frame that fails the validation completes DECODE, and QUERY's DECODE step, with the first failing check's cause,
all telemetry outputs 0 and everything else as it was (43_decode.md R221, R222, R224). -/
def Obligations.InvalidFrameCompletesWithTheFirstCause : Prop :=
  ∀ (s : State) (r p : Byte) (i : Instr) (e : Cause),
    (i = .decode r p ∧ s.At .decode .decode) ∨ (i = .query r p ∧ s.At .query .decode) →
    let ok := verify s.ckord (s.bytesAt 0x200 s.rxlen.val)
    (e = .truncated ∧ s.rxlen.val < 4) ∨
    (e = .checksum ∧ 4 ≤ s.rxlen.val ∧ ok = false) ∨
    (e = .regMismatch ∧ 4 ≤ s.rxlen.val ∧ ok = true ∧ (s.rxlen.val < 6 ∨ s.byteAt 0x205 ≠ s.curReg)) →
    exec i s = .next { s with
      treg := 0, tvalid := false, tcount := 0, tlmValue := 0, tlmRaw := 0, tlmFlags := 0,
      err := e, phase := .idle, busy := false, done := true, curOp := .none }

/-- The DECODE step of a DECODE or a QUERY always completes, with one of four causes, and changes nothing but the
telemetry outputs, TLM_ELEM, the cache and the status (43_decode.md R220, 44_query_host.md R270,
60_exceptions.md R302). -/
def Obligations.DecodeCompletesOnEveryFrame : Prop :=
  ∀ (s : State) (i : Instr), s.AtDecodeStep i →
    ∃ t, exec i s = .next t ∧ Completed t.err t ∧
      t.err ∈ [Cause.none, .checksum, .regMismatch, .truncated] ∧
      t = { s with
        treg := t.treg, tvalid := t.tvalid, tcount := t.tcount, tlmValue := t.tlmValue, tlmRaw := t.tlmRaw,
        tlmFlags := t.tlmFlags, cacheI := t.cacheI, civ := t.civ, csv := t.csv, cslen := t.cslen, mem := t.mem,
        err := t.err, phase := .idle, busy := false, done := true, curOp := .none } ∧
      SameBytesOutside 0x300 (0x5F8 - 0x300) s t ∧
      (t.err ≠ .none → (∀ a, t.byteAt a = s.byteAt a) ∧ t.cacheI = s.cacheI ∧ t.civ = s.civ ∧ t.csv = s.csv ∧
        t.cslen = s.cslen ∧ t.tvalid = false ∧ t.tcount = 0 ∧ t.tlmValue = 0 ∧ t.tlmRaw = 0 ∧ t.tlmFlags = 0)

/-- 43_decode.md R230, R231, R232, R234, R235, R239: the decoders of 0x18, 0x17, 0x19, 0x31, 0x32 and 0x3B write the
unsigned field to TLM_RAW and TLM_VALUE; on a frame of fewer than ten bytes they write no value and give TRUNCATED, TREG
left to ShortScalarFrameIsTruncated. -/
def Obligations.UnsignedScalarsDecode : Prop :=
  ∀ (s : State) (i : Instr),
    i ∈ [Instr.decFwver, .decFactcap, .decActcap, .decRemcapMah, .decRemcapPct, .decHealth] →
    (10 ≤ s.rxlen.val → ∃ t, exec i s = .next t ∧
      t = { s with
        tlmValue := t.tlmValue, tlmRaw := t.tlmRaw, tvalid := true, tcount := 0,
        err := .none, phase := .idle, busy := false, done := true, curOp := .none } ∧
      t.tlmRaw.toNat = (s.byteAt 0x206).toNat + 0x100 * (s.byteAt 0x207).toNat ∧
      t.tlmValue.toNat = t.tlmRaw.toNat) ∧
    (s.rxlen.val < 10 → ∃ t, exec i s = .next t ∧
      t = { s with
        treg := t.treg, err := .truncated, phase := .idle, busy := false, done := true, curOp := .none })

/-- 43_decode.md R233: 0x30 writes raw and value as an unsigned scalar and the flags STATUS_BIT_FN of bytes 6 and 7,
whatever that OPEN parameter is; on a frame of fewer than ten bytes it gives TRUNCATED, TREG left to
ShortScalarFrameIsTruncated. -/
def Obligations.StatusBitsDecode : Prop :=
  ∀ s : State,
    (10 ≤ s.rxlen.val → ∃ t, exec .decStatus s = .next t ∧
      t = { s with
        tlmValue := t.tlmValue, tlmRaw := t.tlmRaw,
        tlmFlags := Config.statusBitFn (s.byteAt 0x206) (s.byteAt 0x207), tvalid := true, tcount := 0,
        err := .none, phase := .idle, busy := false, done := true, curOp := .none } ∧
      t.tlmRaw.toNat = (s.byteAt 0x206).toNat + 0x100 * (s.byteAt 0x207).toNat ∧
      t.tlmValue.toNat = t.tlmRaw.toNat) ∧
    (s.rxlen.val < 10 → ∃ t, exec .decStatus s = .next t ∧
      t = { s with
        treg := t.treg, err := .truncated, phase := .idle, busy := false, done := true, curOp := .none })

/-- 43_decode.md R236: the value of 0x33 is ten times the signed raw field, and it is also written to CACHE_I, with
CIV = 1 (R237); on a frame of fewer than ten bytes the decoder gives TRUNCATED, TREG left to
ShortScalarFrameIsTruncated. -/
def Obligations.CurrentDecodesSignedAndIsCached : Prop :=
  ∀ s : State,
    (10 ≤ s.rxlen.val → ∃ t, exec .decCurrent s = .next t ∧
      t = { s with
        tlmValue := t.tlmValue, tlmRaw := t.tlmRaw, cacheI := t.tlmValue, civ := true, tvalid := true, tcount := 0,
        err := .none, phase := .idle, busy := false, done := true, curOp := .none } ∧
      t.tlmRaw.toNat = (s.byteAt 0x206).toNat + 0x100 * (s.byteAt 0x207).toNat ∧
      t.tlmValue.toInt = 10 * t.tlmRaw.toInt) ∧
    (s.rxlen.val < 10 → ∃ t, exec .decCurrent s = .next t ∧
      t = { s with
        treg := t.treg, err := .truncated, phase := .idle, busy := false, done := true, curOp := .none })

/-- 43_decode.md R238: the value of 0x34 is ten times the unsigned raw field; on a frame of fewer than ten bytes the
decoder gives TRUNCATED, TREG left to ShortScalarFrameIsTruncated. -/
def Obligations.VoltageDecodesScaled : Prop :=
  ∀ s : State,
    (10 ≤ s.rxlen.val → ∃ t, exec .decVoltage s = .next t ∧
      t = { s with
        tlmValue := t.tlmValue, tlmRaw := t.tlmRaw, tvalid := true, tcount := 0,
        err := .none, phase := .idle, busy := false, done := true, curOp := .none } ∧
      t.tlmRaw.toNat = (s.byteAt 0x206).toNat + 0x100 * (s.byteAt 0x207).toNat ∧
      t.tlmValue.toNat = 10 * t.tlmRaw.toNat) ∧
    (s.rxlen.val < 10 → ∃ t, exec .decVoltage s = .next t ∧
      t = { s with
        treg := t.treg, err := .truncated, phase := .idle, busy := false, done := true, curOp := .none })

/-- 0x40: the little-endian pairs from offset 6 (7 with CELLOFF = 1) inside the payload span become TLM_ELEM[0..c-1];
no other byte changes, and an empty sequence succeeds (43_decode.md R240). -/
def Obligations.CellVoltagesDecode : Prop :=
  ∀ s : State,
    let n := s.rxlen.val
    let st := if s.celloff then 7 else 6
    let c := if 2 + st < n then (n - 2 - st) / 2 else 0
    ∃ t, exec .decCells s = .next t ∧
      t = { s with
        mem := t.mem, tcount := t.tcount, tvalid := true,
        err := .none, phase := .idle, busy := false, done := true, curOp := .none } ∧
      t.tcount.toNat = c ∧ c ≤ 124 ∧
      (∀ k, k < c → st + 2 * k + 1 ≤ n - 3 ∧
        (t.elem k).toNat = (s.byteAt (0x200 + st + 2 * k)).toNat + 0x100 * (s.byteAt (0x200 + st + 2 * k + 1)).toNat) ∧
      SameBytesOutside 0x300 (2 * c) s t

/-- 0x10: the payload bytes 6..N-3 become TLM_ELEM[0..c-1], zero-extended, and CACHE_SN[0..c-1]; CSLEN = c and CSV = 1;
no other byte changes (43_decode.md R241). -/
def Obligations.SerialNumberDecodesAndIsCached : Prop :=
  ∀ s : State,
    let n := s.rxlen.val
    let c := if 8 < n then n - 8 else 0
    ∃ t, exec .decSerial s = .next t ∧
      t = { s with
        mem := t.mem, tcount := t.tcount, tvalid := true, cslen := t.tcount, csv := true,
        err := .none, phase := .idle, busy := false, done := true, curOp := .none } ∧
      t.tcount.toNat = c ∧ c ≤ 248 ∧
      (∀ k, k < c → 6 + k ≤ n - 3 ∧ t.elem k = (s.byteAt (0x206 + k)).zeroExtend 16 ∧
        t.byteAt (0x500 + k) = s.byteAt (0x206 + k)) ∧
      (∀ a, ¬ (0x300 ≤ a ∧ a < 0x300 + 2 * c) → ¬ (0x500 ≤ a ∧ a < 0x500 + c) → t.byteAt a = s.byteAt a)

/-- 43_decode.md R242: a valid echoing frame whose code has no decoder completes a DECODE, or a QUERY in its DECODE step,
with NONE, TREG the code, TVALID = 0 and TCOUNT = 0; no element, byte or cache field is written. -/
def Obligations.UnlistedRegisterCodeIsIgnored : Prop :=
  (∀ (s : State) (code : Byte),
    exec (.decNone code) s = .next { s with
      err := .none, phase := .idle, busy := false, done := true, curOp := .none }) ∧
  ∀ (s : State) (i : Instr), s.AtDecodeStep i →
    6 ≤ s.rxlen.val → verify s.ckord (s.bytesAt 0x200 s.rxlen.val) = true → s.byteAt 0x205 = s.curReg →
    s.curReg.toNat ∉ 0x10 :: 0x40 :: scalarCodes →
    exec i s = .next { s with
      treg := s.curReg, tvalid := false, tcount := 0, tlmValue := 0, tlmRaw := 0, tlmFlags := 0,
      err := .none, phase := .idle, busy := false, done := true, curOp := .none }

/-- The DECODE step of a DECODE or a QUERY on a valid echoing frame of at least ten bytes with a scalar code completes
with NONE, TREG the code, TVALID = 1, TCOUNT = 0 and TLM_RAW the field (43_decode.md R221 to R223). -/
def Obligations.DecodeOfAScalarFrame : Prop :=
  ∀ (s : State) (i : Instr), s.AtDecodeStep i →
    10 ≤ s.rxlen.val → verify s.ckord (s.bytesAt 0x200 s.rxlen.val) = true → s.byteAt 0x205 = s.curReg →
    s.curReg.toNat ∈ scalarCodes →
    ∃ t, exec i s = .next t ∧ Completed .none t ∧
      t.treg = s.curReg ∧ t.tvalid = true ∧ t.tcount = 0 ∧
      t.tlmRaw.toNat = (s.byteAt 0x206).toNat + 0x100 * (s.byteAt 0x207).toNat ∧
      (s.curReg.toNat ∉ [0x33, 0x34] → t.tlmValue.toNat = t.tlmRaw.toNat) ∧
      (s.curReg.toNat = 0x33 → t.tlmValue.toInt = 10 * t.tlmRaw.toInt ∧ t.cacheI = t.tlmValue ∧ t.civ = true) ∧
      (s.curReg.toNat = 0x34 → t.tlmValue.toNat = 10 * t.tlmRaw.toNat) ∧
      (s.curReg.toNat ≠ 0x30 → t.tlmFlags = 0) ∧
      (s.curReg.toNat ≠ 0x33 → t.cacheI = s.cacheI ∧ t.civ = s.civ)

/-- The DECODE step of a DECODE or a QUERY on a valid echoing frame of six to nine bytes with a scalar code completes with
TRUNCATED and no telemetry value, element, byte or cache field (43_decode.md R221 to R225). TREG is the code that the step
wrote before the dispatch (43_decode.md R221, 10_state.md R39), although 60_exceptions.md R301 says TLM_INFO is 0: the
model's reading (DEDUCED, log 6). -/
def Obligations.ShortScalarFrameIsTruncated : Prop :=
  ∀ (s : State) (i : Instr), s.AtDecodeStep i →
    6 ≤ s.rxlen.val → s.rxlen.val < 10 → verify s.ckord (s.bytesAt 0x200 s.rxlen.val) = true →
    s.byteAt 0x205 = s.curReg → s.curReg.toNat ∈ scalarCodes →
    exec i s = .next { s with
        treg := s.curReg, tvalid := false, tcount := 0, tlmValue := 0, tlmRaw := 0, tlmFlags := 0,
        err := .truncated, phase := .idle, busy := false, done := true, curOp := .none }

/-- The results of a DECODE step, of a DECODE or a QUERY, are a function of RXBUF[0..RXLEN-1], RXLEN, CUR_REG, CKORD and
CELLOFF: two states that agree on these give the same cause, the same telemetry outputs and the same elements, whichever
of the two commands each runs, and no byte at or past RXLEN is seen (43_decode.md R226, R244). -/
def Obligations.DecodeDependsOnTheFrameAlone : Prop :=
  ∀ (s u : State) (i j : Instr), s.AtDecodeStep i → u.AtDecodeStep j →
    u.rxlen = s.rxlen → u.curReg = s.curReg → u.ckord = s.ckord → u.celloff = s.celloff →
    u.bytesAt 0x200 s.rxlen.val = s.bytesAt 0x200 s.rxlen.val →
    ∃ t v, exec i s = .next t ∧ exec j u = .next v ∧
      v.err = t.err ∧ v.treg = t.treg ∧ v.tvalid = t.tvalid ∧ v.tcount = t.tcount ∧ v.tlmValue = t.tlmValue ∧
      v.tlmRaw = t.tlmRaw ∧ v.tlmFlags = t.tlmFlags ∧ v.elems = t.elems

/-! ## QUERY -/

/-- A QUERY accepted with an empty receive FIFO, its one reply delivered in its (k+1)th attempt, leaves the state that ENCODE, XACT and DECODE leave one after the
other with the same deliveries, but for TRIES, which the DECODE's acceptance clears (44_query_host.md R270, R273; the
DECODE word here carries the same PLEN, which it ignores and latches). -/
def Obligations.QueryEqualsEncodeXactDecode : Prop :=
  ∀ (s : State) (r p : Byte) (k : Nat) (reply : List Byte),
    s.Inv → s.busy = false → s.inReset = false → s.rxfifo = [] → reply ≠ [] → k < s.maxTries.toNat →
    let retries := (List.replicate k [Event.deadline, .engine]).flatten
    ∃ q x,
      Host.Core.run Sys2Proof.core (2 * k + 6) { s with
        agenda := [.hostWrite 0x008 4 (cmdWord 0x6 r p), .engine, .engine] ++ retries ++
          [.peerDeliver reply, .engine, .engine] } = .next q ∧
      Host.Core.run Sys2Proof.core (2 * k + 8) { s with
        agenda := [.hostWrite 0x008 4 (cmdWord 0x3 r p), .engine, .hostWrite 0x008 4 (cmdWord 0x4 r p), .engine] ++
          retries ++ [.peerDeliver reply, .engine, .hostWrite 0x008 4 (cmdWord 0x5 r p), .engine] } = .next x ∧
      x = { q with tries := 0 } ∧ q.tries.toNat = k + 1 ∧ q.busy = false ∧ q.done = true

/-- A QUERY on a silent link pushes its request frame (41_encode.md R160) exactly MAX_TRIES times and completes with TIMEOUT
without a DECODE: CKV is the frame's checksum, the telemetry, the cache, RXBUF and RXLEN stay, and MAX_TRIES = 0 still runs the ENCODE step (44_query_host.md R270, R272;
the schedule is the fair one the model runs on an empty agenda, log 2). -/
def Obligations.SilentQueryTimesOutWithoutDecode : Prop :=
  ∀ (s : State) (r p : Byte), s.Inv → s.busy = false → s.inReset = false → s.rxfifo = [] →
    s.agenda = [.hostWrite 0x008 4 (cmdWord 0x6 r p)] →
    let body := [s.cfgLen, s.cfgAddr, s.cfgFcmd, r, p]
    let request := [0x55, 0xAA] ++ body ++ emit s.ckord (ck16 body)
    ∃ t, Host.Core.run Sys2Proof.core (2 * s.maxTries.toNat + 3) s = .next t ∧
      t = { s with
        agenda := [], curReg := r, curPlen := p, done := true, err := .timeout, tries := s.maxTries,
        mem := t.mem, txlen := 9, ckv := ck16 body,
        txchan := s.txchan ++ (List.replicate s.maxTries.toNat request).flatten } ∧
      t.bytesAt 0x100 9 = request ∧ SameBytesOutside 0x100 9 s t

/-! ## The host program -/

/-- The pseudo-instruction `ldrx` run on an idle engine leaves its bytes in RXBUF and their number in RXLEN; no byte but
those of the words it writes changes (30_encoding.md R117). -/
def Obligations.LdrxPresentsTheFrame : Prop :=
  ∀ (s : State) (bytes : List Byte) (rest : List Event),
    s.agenda = hostProgram [.ldrx bytes] ++ rest → s.inReset = false → s.busy = false → bytes.length ≤ 256 →
    ∃ t, Host.Core.run Sys2Proof.core (hostProgram [.ldrx bytes]).length s = .next t ∧
      t = { s with agenda := rest, mem := t.mem, rxlen := t.rxlen } ∧
      t.rxlen.val = bytes.length ∧ t.bytesAt 0x200 bytes.length = bytes ∧
      SameBytesOutside 0x200 (4 * ((bytes.length + 3) / 4)) s t

/-- `waitdone` ends with the read of a STATUS that has DONE = 1, and goes round again while DONE = 0 (30_encoding.md
R117; that the machine moves between two reads is the model's choice, log 15). -/
def Obligations.WaitDoneEndsWithDone : Prop :=
  ∀ (s : State) (rest : List Event), s.Inv → s.agenda = .waitDone :: rest → s.inReset = false →
    (s.done = true → step s = .next { s with agenda := rest, hostData := s.statusWord }) ∧
    (s.done = false → ∃ t, step s = .next t ∧ t.agenda = .waitDone :: rest ∧ t.hostData = s.statusWord)

/-! ## The whole machine -/

/-- Every step keeps the invariant. -/
def Obligations.StepKeepsTheInvariant : Prop :=
  ∀ s t : State, s.Inv → step s = .next t → t.Inv

/-- The state after reset meets the invariant and has the values of 70_reset_and_hazards.md R351; each buffer byte is the
model's free draw (log 3). Nothing is said of the link, which the model has empty there (log 5). -/
def Obligations.ResetMeetsTheInvariant : Prop :=
  State.reset.Inv ∧
  (State.reset.ie = false ∧ State.reset.ckord = false ∧ State.reset.celloff = false) ∧
  State.reset.statusWord = 0 ∧
  (State.reset.cfgLen = 0x03 ∧ State.reset.cfgAddr = 0x22 ∧ State.reset.cfgFcmd = 0x01) ∧
  (State.reset.timeoutMs = 250 ∧ State.reset.maxTries = 20) ∧
  (State.reset.ckv = 0 ∧ State.reset.txlen = 0 ∧ State.reset.rxlen = 0) ∧
  (State.reset.tlmInfoWord = 0 ∧ State.reset.tlmValue = 0 ∧ State.reset.tlmRaw = 0 ∧ State.reset.tlmFlags = 0) ∧
  (State.reset.cacheI = 0 ∧ State.reset.cacheInfoWord = 0) ∧
  (State.reset.curOp = .none ∧ State.reset.curReg = 0 ∧ State.reset.curPlen = 0) ∧
  State.reset.timer = .stopped ∧ State.reset.irq = false ∧
  ∀ a, State.reset.byteAt a = Config.resetByte 0 a

/-- From a state that meets the invariant the machine stops at nothing but a host bus error: no cause is fatal and none
leaves the engine stuck (60_exceptions.md R302, R303, 20_memory.md R74). -/
def Obligations.OnlyBusErrorsStopTheMachine : Prop :=
  ∀ s : State, s.Inv →
    (∃ t, step s = .next t) ∨
    (∃ off width v rest, s.inReset = false ∧ step s = .fault (.hostBusError off) ∧
      (width ≠ 4 ∨ off.toNat % 4 ≠ 0) ∧
      (s.agenda = .hostRead off width :: rest ∨ s.agenda = .hostWrite off width v :: rest))

/-- 70_reset_and_hazards.md R350, R351: reset asserted and released at any moment leaves every register at its reset
value, every buffer byte a fresh draw, the link as it was. -/
def Obligations.ResetLeavesTheResetState : Prop :=
  ∀ (s : State) (rest : List Event), s.agenda = .resetAssert :: .resetRelease :: rest →
    ∃ t, Host.Core.run Sys2Proof.core 2 s = .next t ∧
      (t.ie = false ∧ t.ckord = false ∧ t.celloff = false) ∧
      t.statusWord = 0 ∧
      (t.cfgLen = 0x03 ∧ t.cfgAddr = 0x22 ∧ t.cfgFcmd = 0x01) ∧
      (t.timeoutMs = 250 ∧ t.maxTries = 20) ∧
      (t.ckv = 0 ∧ t.txlen = 0 ∧ t.rxlen = 0) ∧
      (t.tlmInfoWord = 0 ∧ t.tlmValue = 0 ∧ t.tlmRaw = 0 ∧ t.tlmFlags = 0) ∧
      (t.cacheI = 0 ∧ t.cacheInfoWord = 0) ∧
      (t.curOp = .none ∧ t.curReg = 0 ∧ t.curPlen = 0) ∧
      t.timer = .stopped ∧ t.irq = false ∧ t.txchan = s.txchan ∧ t.rxfifo = s.rxfifo ∧
      t.inReset = false ∧ t.agenda = rest ∧
      (∀ a, t.byteAt a = Config.resetByte (s.epoch + 1) a)

/-- While reset is asserted no host access, engine step or EXPIRE takes effect (70_reset_and_hazards.md R350; reset as a
level between two events is the model's choice, log 10, and so is that a `waitDone` met under it is spent, log 15). -/
def Obligations.UnderResetNothingTakesEffect : Prop :=
  ∀ (s : State) (e : Event) (rest : List Event), s.inReset = true → s.agenda = e :: rest →
    (∀ bytes, e ≠ .peerDeliver bytes) → (∀ count, e ≠ .peerConsume count) → e ≠ .resetAssert → e ≠ .resetRelease →
    step s = .next { s with agenda := rest }

/-- The latest-value cache changes only in a DECODE step or by reset, and nothing but reset clears its valid bits
(10_state.md R44). -/
def Obligations.CacheIsWrittenOnlyByDecode : Prop :=
  ∀ s t : State, step s = .next t → s.agenda.head? ≠ some .resetAssert →
    (s.civ = true → t.civ = true) ∧ (s.csv = true → t.csv = true) ∧
    (s.busy = true ∧ s.phase = .decode ∨
      t.cacheI = s.cacheI ∧ t.civ = s.civ ∧ t.csv = s.csv ∧ t.cslen = s.cslen ∧
        ∀ k, k < 248 → t.byteAt (0x500 + k) = s.byteAt (0x500 + k))

/-- The link is a FIFO both ways. The PEER's delivery appends to RXFIFO and its consumption takes from the front of TXCHAN,
under reset too. Otherwise TXCHAN changes only by a SEND step's whole frame, appended, and RXFIFO only by a CAPTURE, which
takes the oldest min(RxCount, 256) bytes into RXBUF (10_state.md R50, 20_memory.md R79, R85, 42_transport.md R183 to
R185). That a consumption past the end takes all of TXCHAN is the model's choice (log 14). -/
def Obligations.LinkIsFifoBothWays : Prop :=
  (∀ (s : State) (bytes : List Byte) (rest : List Event), s.agenda = .peerDeliver bytes :: rest →
    step s = .next { s with agenda := rest, rxfifo := s.rxfifo ++ bytes }) ∧
  (∀ (s : State) (count : Nat) (rest : List Event), s.agenda = .peerConsume count :: rest →
    step s = .next { s with agenda := rest, txchan := s.txchan.drop count }) ∧
  ∀ s t : State, step s = .next t →
    (∀ bytes, s.agenda.head? ≠ some (.peerDeliver bytes)) → (∀ count, s.agenda.head? ≠ some (.peerConsume count)) →
    let k := min s.rxfifo.length 256
    (t.txchan = s.txchan ∨
      s.inReset = false ∧ s.busy = true ∧ s.phase = .send ∧ t.txchan = s.txchan ++ s.bytesAt 0x100 s.txlen.val) ∧
    (t.rxfifo = s.rxfifo ∨
      s.inReset = false ∧ s.busy = true ∧ s.phase = .wait ∧ t.rxfifo = s.rxfifo.drop k ∧ t.rxlen.val = k ∧
        t.bytesAt 0x200 k = s.rxfifo.take k)

/-- After a completion everything an operation wrote stays until a host write or reset: reads, engine and deadline
events, the PEER and the wait loop change nothing but the link and the model's own fields (20_memory.md R82,
60_exceptions.md R310). -/
def Obligations.ResultsStayWhileIdle : Prop :=
  ∀ s t : State, s.Inv → s.busy = false → step s = .next t →
    (∀ off width v, s.agenda.head? ≠ some (.hostWrite off width v)) → s.agenda.head? ≠ some .resetAssert →
    t = { s with
      agenda := t.agenda, hostData := t.hostData, txchan := t.txchan, rxfifo := t.rxfifo, inReset := t.inReset }
end

