-- ==== Sys2Proof/Laws/Memory.lean ====
section
/-! SUPPORT. Laws/Memory.lean: what the memory operations do, and that each keeps the canonical form. -/

namespace Sys2Proof.Machine

@[simp] theorem Memory.read?_write (m : Memory) (a x : Nat) (v : Byte) :
    (m.write a v).read? x = if x = a then some v else m.read? x := by
  induction m with
  | nil => simp [Memory.write, Memory.read?]
  | cons c m ih =>
    obtain ⟨b, w⟩ := c
    simp only [Memory.write]
    split
    · simp [Memory.read?]
    · split
      · subst_vars
        simp only [Memory.read?]
        split <;> rfl
      · simp only [Memory.read?, ih]
        split <;> split <;> simp_all

theorem Memory.mem_of_mem_write {m : Memory} {a : Nat} {v : Byte} {c : Host.Cell}
    (h : c ∈ m.write a v) : c.1 = a ∨ c ∈ m := by
  induction m with
  | nil => simp [Memory.write] at h; simp [h]
  | cons d m ih =>
    obtain ⟨b, w⟩ := d
    simp only [Memory.write] at h
    split at h
    · simp only [List.mem_cons] at h ⊢
      rcases h with rfl | rfl | h <;> simp_all
    · split at h
      · simp only [List.mem_cons] at h ⊢
        rcases h with rfl | h <;> simp_all
      · simp only [List.mem_cons] at h ⊢
        rcases h with rfl | h
        · simp
        · rcases ih h with h | h <;> simp [h]

theorem Memory.wf_cons {a : Nat} {w : Byte} {m : Memory} :
    Memory.wf ((a, w) :: m) = true ↔ (∀ c ∈ m, a < c.1) ∧ Memory.wf m = true := by
  simp [Memory.wf, List.all_eq_true]

theorem Memory.wf_write {m : Memory} (a : Nat) (v : Byte) (h : m.wf = true) : (m.write a v).wf = true := by
  induction m with
  | nil => simp [Memory.write, Memory.wf]
  | cons d m ih =>
    obtain ⟨b, w⟩ := d
    obtain ⟨hb, hm⟩ := Memory.wf_cons.mp h
    simp only [Memory.write]
    split
    · rename_i hab
      refine Memory.wf_cons.mpr ⟨fun c hc => ?_, h⟩
      rcases List.mem_cons.mp hc with rfl | hc
      · exact hab
      · exact Nat.lt_trans hab (hb c hc)
    · split
      · subst_vars
        exact Memory.wf_cons.mpr ⟨hb, hm⟩
      · refine Memory.wf_cons.mpr ⟨fun c hc => ?_, ih hm⟩
        rcases Memory.mem_of_mem_write hc with h | h
        · omega
        · exact hb c h

theorem Memory.onlyBuffers_write {m : Memory} {a : Nat} (v : Byte) (h : m.onlyBuffers = true)
    (ha : isBufferOffset a = true) : (m.write a v).onlyBuffers = true := by
  simp only [Memory.onlyBuffers, List.all_eq_true] at *
  intro c hc
  rcases Memory.mem_of_mem_write hc with hc | hc
  · rw [hc]; exact ha
  · exact h c hc

theorem Memory.wf_writeList {m : Memory} (a : Nat) (vs : List Byte) (h : m.wf = true) :
    (m.writeList a vs).wf = true := by
  induction vs generalizing m a with
  | nil => exact h
  | cons v vs ih => exact ih (a + 1) (Memory.wf_write a v h)

theorem Memory.onlyBuffers_writeList {m : Memory} (a : Nat) (vs : List Byte) (h : m.onlyBuffers = true)
    (ha : ∀ i, i < vs.length → isBufferOffset (a + i) = true) : (m.writeList a vs).onlyBuffers = true := by
  induction vs generalizing m a with
  | nil => exact h
  | cons v vs ih =>
    refine ih (a + 1) (Memory.onlyBuffers_write v h (ha 0 (by simp))) fun i hi => ?_
    have := ha (i + 1) (by simpa using hi)
    rwa [show a + 1 + i = a + (i + 1) by omega]

/-- What a block write leaves at every offset. -/
theorem Memory.read?_writeList (m : Memory) (a x : Nat) (vs : List Byte) :
    (m.writeList a vs).read? x =
      if a ≤ x ∧ x < a + vs.length then vs[x - a]? else m.read? x := by
  induction vs generalizing m a with
  | nil => simp [Memory.writeList]
  | cons v vs ih =>
    simp only [Memory.writeList, ih, Memory.read?_write, List.length_cons]
    by_cases h : x = a
    · subst h; simp
    · by_cases h2 : a + 1 ≤ x ∧ x < a + 1 + vs.length
      · rw [if_pos h2, if_pos (by omega), show x - a = (x - (a + 1)) + 1 by omega,
          List.getElem?_cons_succ]
      · rw [if_neg h2, if_neg h, if_neg (by omega)]

/-- The buffer offsets, as numbers (20_memory.md R71). -/
theorem isBufferOffset_iff (a : Nat) :
    isBufferOffset a = true ↔ 0x100 ≤ a ∧ a < 0x4F0 ∨ 0x500 ≤ a ∧ a < 0x5F8 := by
  show ((decide (0x100 ≤ a) && decide (a < 0x100 + 256)) || (decide (0x200 ≤ a) && decide (a < 0x200 + 256)) ||
    (decide (0x300 ≤ a) && decide (a < 0x300 + 2 * 248)) || (decide (0x500 ≤ a) && decide (a < 0x500 + 248))) = true ↔ _
  simp only [Bool.or_eq_true, Bool.and_eq_true, decide_eq_true_eq]
  omega

theorem State.reset_mem_wf : State.reset.mem.wf = true := rfl

/-! ## Buffer bytes -/

theorem State.byteAt_congr {s t : State} (hm : t.mem = s.mem) (he : t.epoch = s.epoch) (a : Nat) :
    t.byteAt a = s.byteAt a := by
  simp only [State.byteAt, hm, he]

/-- What a store leaves at every offset. -/
theorem State.byteAt_store (s : State) (base a : Nat) (bs : List Byte) :
    (s.store base bs).byteAt a =
      if h : base ≤ a ∧ a < base + bs.length then bs[a - base]'(by omega) else s.byteAt a := by
  by_cases h : base ≤ a ∧ a < base + bs.length
  · simp only [State.byteAt, State.store, Memory.read?_writeList, if_pos h, dif_pos h]
    rw [List.getElem?_eq_getElem (by omega)]
  · simp only [State.byteAt, State.store, Memory.read?_writeList, if_neg h, dif_neg h]

theorem State.byteAt_store_outside (s : State) (base a : Nat) (bs : List Byte)
    (h : ¬ (base ≤ a ∧ a < base + bs.length)) : (s.store base bs).byteAt a = s.byteAt a := by
  rw [State.byteAt_store, dif_neg h]

theorem State.byteAt_store_inside (s : State) (base i : Nat) (bs : List Byte) (h : i < bs.length) :
    (s.store base bs).byteAt (base + i) = bs[i] := by
  rw [State.byteAt_store, dif_pos (by omega)]
  congr 1
  omega

@[simp] theorem State.length_bytesAt (s : State) (base n : Nat) : (s.bytesAt base n).length = n := by
  simp [State.bytesAt]

@[simp] theorem State.getElem_bytesAt (s : State) (base n i : Nat) (h : i < (s.bytesAt base n).length) :
    (s.bytesAt base n)[i] = s.byteAt (base + i) := by
  simp [State.bytesAt]

theorem State.bytesAt_congr {s t : State} {base n : Nat}
    (h : ∀ i, i < n → t.byteAt (base + i) = s.byteAt (base + i)) : t.bytesAt base n = s.bytesAt base n := by
  apply List.ext_getElem <;> simp +contextual [h]

/-- A block just stored reads back. -/
theorem State.bytesAt_store (s : State) (base : Nat) (bs : List Byte) :
    (s.store base bs).bytesAt base bs.length = bs := by
  apply List.ext_getElem
  · simp
  · intro i h1 h2
    simp [State.byteAt_store_inside s base i bs h2]

@[simp] theorem length_elemBytes (es : List Half) : (elemBytes es).length = 2 * es.length := by
  induction es with
  | nil => rfl
  | cons e es ih => simp [elemBytes] at ih ⊢; omega

/-- The two bytes of element k. -/
theorem getElem_elemBytes (es : List Half) (k : Nat) (h : k < es.length) :
    (elemBytes es)[2 * k]'(by simp; omega) = loByte es[k] ∧
    (elemBytes es)[2 * k + 1]'(by simp; omega) = hiByte es[k] := by
  induction es generalizing k with
  | nil => simp at h
  | cons e es ih =>
    cases k with
    | zero => exact ⟨rfl, rfl⟩
    | succ k => exact ih k (by simpa using h)

end Sys2Proof.Machine
end

