-- ==== Sys2Proof/Laws/State.lean ====
section
/-! SUPPORT. Laws/State.lean: every field after every named update of the state. -/

namespace Sys2Proof.Machine

/-! ### accept -/

@[simp] theorem State.accept_ie (s : State) (op : Op) (r p : Byte) : (s.accept op r p).ie = s.ie := rfl
@[simp] theorem State.accept_ckord (s : State) (op : Op) (r p : Byte) : (s.accept op r p).ckord = s.ckord := rfl
@[simp] theorem State.accept_celloff (s : State) (op : Op) (r p : Byte) : (s.accept op r p).celloff = s.celloff := rfl
@[simp] theorem State.accept_busy (s : State) (op : Op) (r p : Byte) : (s.accept op r p).busy = true := rfl
@[simp] theorem State.accept_done (s : State) (op : Op) (r p : Byte) : (s.accept op r p).done = false := rfl
@[simp] theorem State.accept_ovf (s : State) (op : Op) (r p : Byte) : (s.accept op r p).ovf = s.ovf := rfl
@[simp] theorem State.accept_err (s : State) (op : Op) (r p : Byte) : (s.accept op r p).err = .none := rfl
@[simp] theorem State.accept_tries (s : State) (op : Op) (r p : Byte) : (s.accept op r p).tries = 0 := rfl
@[simp] theorem State.accept_phase (s : State) (op : Op) (r p : Byte) : (s.accept op r p).phase = op.firstPhase := rfl
@[simp] theorem State.accept_cfgLen (s : State) (op : Op) (r p : Byte) : (s.accept op r p).cfgLen = s.cfgLen := rfl
@[simp] theorem State.accept_cfgAddr (s : State) (op : Op) (r p : Byte) : (s.accept op r p).cfgAddr = s.cfgAddr := rfl
@[simp] theorem State.accept_cfgFcmd (s : State) (op : Op) (r p : Byte) : (s.accept op r p).cfgFcmd = s.cfgFcmd := rfl
@[simp] theorem State.accept_timeoutMs (s : State) (op : Op) (r p : Byte) : (s.accept op r p).timeoutMs = s.timeoutMs := rfl
@[simp] theorem State.accept_maxTries (s : State) (op : Op) (r p : Byte) : (s.accept op r p).maxTries = s.maxTries := rfl
@[simp] theorem State.accept_ckv (s : State) (op : Op) (r p : Byte) : (s.accept op r p).ckv = s.ckv := rfl
@[simp] theorem State.accept_txlen (s : State) (op : Op) (r p : Byte) : (s.accept op r p).txlen = s.txlen := rfl
@[simp] theorem State.accept_rxlen (s : State) (op : Op) (r p : Byte) : (s.accept op r p).rxlen = s.rxlen := rfl
@[simp] theorem State.accept_treg (s : State) (op : Op) (r p : Byte) : (s.accept op r p).treg = s.treg := rfl
@[simp] theorem State.accept_tvalid (s : State) (op : Op) (r p : Byte) : (s.accept op r p).tvalid = s.tvalid := rfl
@[simp] theorem State.accept_tcount (s : State) (op : Op) (r p : Byte) : (s.accept op r p).tcount = s.tcount := rfl
@[simp] theorem State.accept_tlmValue (s : State) (op : Op) (r p : Byte) : (s.accept op r p).tlmValue = s.tlmValue := rfl
@[simp] theorem State.accept_tlmRaw (s : State) (op : Op) (r p : Byte) : (s.accept op r p).tlmRaw = s.tlmRaw := rfl
@[simp] theorem State.accept_tlmFlags (s : State) (op : Op) (r p : Byte) : (s.accept op r p).tlmFlags = s.tlmFlags := rfl
@[simp] theorem State.accept_cacheI (s : State) (op : Op) (r p : Byte) : (s.accept op r p).cacheI = s.cacheI := rfl
@[simp] theorem State.accept_civ (s : State) (op : Op) (r p : Byte) : (s.accept op r p).civ = s.civ := rfl
@[simp] theorem State.accept_csv (s : State) (op : Op) (r p : Byte) : (s.accept op r p).csv = s.csv := rfl
@[simp] theorem State.accept_cslen (s : State) (op : Op) (r p : Byte) : (s.accept op r p).cslen = s.cslen := rfl
@[simp] theorem State.accept_curOp (s : State) (op : Op) (r p : Byte) : (s.accept op r p).curOp = op := rfl
@[simp] theorem State.accept_curReg (s : State) (op : Op) (r p : Byte) : (s.accept op r p).curReg = r := rfl
@[simp] theorem State.accept_curPlen (s : State) (op : Op) (r p : Byte) : (s.accept op r p).curPlen = p := rfl
@[simp] theorem State.accept_timer (s : State) (op : Op) (r p : Byte) : (s.accept op r p).timer = s.timer := rfl
@[simp] theorem State.accept_mem (s : State) (op : Op) (r p : Byte) : (s.accept op r p).mem = s.mem := rfl
@[simp] theorem State.accept_txchan (s : State) (op : Op) (r p : Byte) : (s.accept op r p).txchan = s.txchan := rfl
@[simp] theorem State.accept_rxfifo (s : State) (op : Op) (r p : Byte) : (s.accept op r p).rxfifo = s.rxfifo := rfl
@[simp] theorem State.accept_inReset (s : State) (op : Op) (r p : Byte) : (s.accept op r p).inReset = s.inReset := rfl
@[simp] theorem State.accept_epoch (s : State) (op : Op) (r p : Byte) : (s.accept op r p).epoch = s.epoch := rfl
@[simp] theorem State.accept_hostData (s : State) (op : Op) (r p : Byte) : (s.accept op r p).hostData = s.hostData := rfl
@[simp] theorem State.accept_agenda (s : State) (op : Op) (r p : Byte) : (s.accept op r p).agenda = s.agenda := rfl
@[simp] theorem State.byteAt_accept (s : State) (op : Op) (r p : Byte) (x : Nat) : (s.accept op r p).byteAt x = s.byteAt x := rfl
@[simp] theorem State.bytesAt_accept (s : State) (op : Op) (r p : Byte) (x n : Nat) : (s.accept op r p).bytesAt x n = s.bytesAt x n := rfl

/-! ### complete -/

@[simp] theorem State.complete_ie (s : State) (e : Cause) : (s.complete e).ie = s.ie := rfl
@[simp] theorem State.complete_ckord (s : State) (e : Cause) : (s.complete e).ckord = s.ckord := rfl
@[simp] theorem State.complete_celloff (s : State) (e : Cause) : (s.complete e).celloff = s.celloff := rfl
@[simp] theorem State.complete_busy (s : State) (e : Cause) : (s.complete e).busy = false := rfl
@[simp] theorem State.complete_done (s : State) (e : Cause) : (s.complete e).done = true := rfl
@[simp] theorem State.complete_ovf (s : State) (e : Cause) : (s.complete e).ovf = s.ovf := rfl
@[simp] theorem State.complete_err (s : State) (e : Cause) : (s.complete e).err = e := rfl
@[simp] theorem State.complete_tries (s : State) (e : Cause) : (s.complete e).tries = s.tries := rfl
@[simp] theorem State.complete_phase (s : State) (e : Cause) : (s.complete e).phase = .idle := rfl
@[simp] theorem State.complete_cfgLen (s : State) (e : Cause) : (s.complete e).cfgLen = s.cfgLen := rfl
@[simp] theorem State.complete_cfgAddr (s : State) (e : Cause) : (s.complete e).cfgAddr = s.cfgAddr := rfl
@[simp] theorem State.complete_cfgFcmd (s : State) (e : Cause) : (s.complete e).cfgFcmd = s.cfgFcmd := rfl
@[simp] theorem State.complete_timeoutMs (s : State) (e : Cause) : (s.complete e).timeoutMs = s.timeoutMs := rfl
@[simp] theorem State.complete_maxTries (s : State) (e : Cause) : (s.complete e).maxTries = s.maxTries := rfl
@[simp] theorem State.complete_ckv (s : State) (e : Cause) : (s.complete e).ckv = s.ckv := rfl
@[simp] theorem State.complete_txlen (s : State) (e : Cause) : (s.complete e).txlen = s.txlen := rfl
@[simp] theorem State.complete_rxlen (s : State) (e : Cause) : (s.complete e).rxlen = s.rxlen := rfl
@[simp] theorem State.complete_treg (s : State) (e : Cause) : (s.complete e).treg = s.treg := rfl
@[simp] theorem State.complete_tvalid (s : State) (e : Cause) : (s.complete e).tvalid = s.tvalid := rfl
@[simp] theorem State.complete_tcount (s : State) (e : Cause) : (s.complete e).tcount = s.tcount := rfl
@[simp] theorem State.complete_tlmValue (s : State) (e : Cause) : (s.complete e).tlmValue = s.tlmValue := rfl
@[simp] theorem State.complete_tlmRaw (s : State) (e : Cause) : (s.complete e).tlmRaw = s.tlmRaw := rfl
@[simp] theorem State.complete_tlmFlags (s : State) (e : Cause) : (s.complete e).tlmFlags = s.tlmFlags := rfl
@[simp] theorem State.complete_cacheI (s : State) (e : Cause) : (s.complete e).cacheI = s.cacheI := rfl
@[simp] theorem State.complete_civ (s : State) (e : Cause) : (s.complete e).civ = s.civ := rfl
@[simp] theorem State.complete_csv (s : State) (e : Cause) : (s.complete e).csv = s.csv := rfl
@[simp] theorem State.complete_cslen (s : State) (e : Cause) : (s.complete e).cslen = s.cslen := rfl
@[simp] theorem State.complete_curOp (s : State) (e : Cause) : (s.complete e).curOp = .none := rfl
@[simp] theorem State.complete_curReg (s : State) (e : Cause) : (s.complete e).curReg = s.curReg := rfl
@[simp] theorem State.complete_curPlen (s : State) (e : Cause) : (s.complete e).curPlen = s.curPlen := rfl
@[simp] theorem State.complete_timer (s : State) (e : Cause) : (s.complete e).timer = s.timer := rfl
@[simp] theorem State.complete_mem (s : State) (e : Cause) : (s.complete e).mem = s.mem := rfl
@[simp] theorem State.complete_txchan (s : State) (e : Cause) : (s.complete e).txchan = s.txchan := rfl
@[simp] theorem State.complete_rxfifo (s : State) (e : Cause) : (s.complete e).rxfifo = s.rxfifo := rfl
@[simp] theorem State.complete_inReset (s : State) (e : Cause) : (s.complete e).inReset = s.inReset := rfl
@[simp] theorem State.complete_epoch (s : State) (e : Cause) : (s.complete e).epoch = s.epoch := rfl
@[simp] theorem State.complete_hostData (s : State) (e : Cause) : (s.complete e).hostData = s.hostData := rfl
@[simp] theorem State.complete_agenda (s : State) (e : Cause) : (s.complete e).agenda = s.agenda := rfl
@[simp] theorem State.byteAt_complete (s : State) (e : Cause) (x : Nat) : (s.complete e).byteAt x = s.byteAt x := rfl
@[simp] theorem State.bytesAt_complete (s : State) (e : Cause) (x n : Nat) : (s.complete e).bytesAt x n = s.bytesAt x n := rfl

/-! ### rejectIllegal -/

@[simp] theorem State.rejectIllegal_ie (s : State) : (s.rejectIllegal).ie = s.ie := rfl
@[simp] theorem State.rejectIllegal_ckord (s : State) : (s.rejectIllegal).ckord = s.ckord := rfl
@[simp] theorem State.rejectIllegal_celloff (s : State) : (s.rejectIllegal).celloff = s.celloff := rfl
@[simp] theorem State.rejectIllegal_busy (s : State) : (s.rejectIllegal).busy = s.busy := rfl
@[simp] theorem State.rejectIllegal_done (s : State) : (s.rejectIllegal).done = true := rfl
@[simp] theorem State.rejectIllegal_ovf (s : State) : (s.rejectIllegal).ovf = s.ovf := rfl
@[simp] theorem State.rejectIllegal_err (s : State) : (s.rejectIllegal).err = .illegalCmd := rfl
@[simp] theorem State.rejectIllegal_tries (s : State) : (s.rejectIllegal).tries = s.tries := rfl
@[simp] theorem State.rejectIllegal_phase (s : State) : (s.rejectIllegal).phase = s.phase := rfl
@[simp] theorem State.rejectIllegal_cfgLen (s : State) : (s.rejectIllegal).cfgLen = s.cfgLen := rfl
@[simp] theorem State.rejectIllegal_cfgAddr (s : State) : (s.rejectIllegal).cfgAddr = s.cfgAddr := rfl
@[simp] theorem State.rejectIllegal_cfgFcmd (s : State) : (s.rejectIllegal).cfgFcmd = s.cfgFcmd := rfl
@[simp] theorem State.rejectIllegal_timeoutMs (s : State) : (s.rejectIllegal).timeoutMs = s.timeoutMs := rfl
@[simp] theorem State.rejectIllegal_maxTries (s : State) : (s.rejectIllegal).maxTries = s.maxTries := rfl
@[simp] theorem State.rejectIllegal_ckv (s : State) : (s.rejectIllegal).ckv = s.ckv := rfl
@[simp] theorem State.rejectIllegal_txlen (s : State) : (s.rejectIllegal).txlen = s.txlen := rfl
@[simp] theorem State.rejectIllegal_rxlen (s : State) : (s.rejectIllegal).rxlen = s.rxlen := rfl
@[simp] theorem State.rejectIllegal_treg (s : State) : (s.rejectIllegal).treg = s.treg := rfl
@[simp] theorem State.rejectIllegal_tvalid (s : State) : (s.rejectIllegal).tvalid = s.tvalid := rfl
@[simp] theorem State.rejectIllegal_tcount (s : State) : (s.rejectIllegal).tcount = s.tcount := rfl
@[simp] theorem State.rejectIllegal_tlmValue (s : State) : (s.rejectIllegal).tlmValue = s.tlmValue := rfl
@[simp] theorem State.rejectIllegal_tlmRaw (s : State) : (s.rejectIllegal).tlmRaw = s.tlmRaw := rfl
@[simp] theorem State.rejectIllegal_tlmFlags (s : State) : (s.rejectIllegal).tlmFlags = s.tlmFlags := rfl
@[simp] theorem State.rejectIllegal_cacheI (s : State) : (s.rejectIllegal).cacheI = s.cacheI := rfl
@[simp] theorem State.rejectIllegal_civ (s : State) : (s.rejectIllegal).civ = s.civ := rfl
@[simp] theorem State.rejectIllegal_csv (s : State) : (s.rejectIllegal).csv = s.csv := rfl
@[simp] theorem State.rejectIllegal_cslen (s : State) : (s.rejectIllegal).cslen = s.cslen := rfl
@[simp] theorem State.rejectIllegal_curOp (s : State) : (s.rejectIllegal).curOp = s.curOp := rfl
@[simp] theorem State.rejectIllegal_curReg (s : State) : (s.rejectIllegal).curReg = s.curReg := rfl
@[simp] theorem State.rejectIllegal_curPlen (s : State) : (s.rejectIllegal).curPlen = s.curPlen := rfl
@[simp] theorem State.rejectIllegal_timer (s : State) : (s.rejectIllegal).timer = s.timer := rfl
@[simp] theorem State.rejectIllegal_mem (s : State) : (s.rejectIllegal).mem = s.mem := rfl
@[simp] theorem State.rejectIllegal_txchan (s : State) : (s.rejectIllegal).txchan = s.txchan := rfl
@[simp] theorem State.rejectIllegal_rxfifo (s : State) : (s.rejectIllegal).rxfifo = s.rxfifo := rfl
@[simp] theorem State.rejectIllegal_inReset (s : State) : (s.rejectIllegal).inReset = s.inReset := rfl
@[simp] theorem State.rejectIllegal_epoch (s : State) : (s.rejectIllegal).epoch = s.epoch := rfl
@[simp] theorem State.rejectIllegal_hostData (s : State) : (s.rejectIllegal).hostData = s.hostData := rfl
@[simp] theorem State.rejectIllegal_agenda (s : State) : (s.rejectIllegal).agenda = s.agenda := rfl
@[simp] theorem State.byteAt_rejectIllegal (s : State) (x : Nat) : (s.rejectIllegal).byteAt x = s.byteAt x := rfl
@[simp] theorem State.bytesAt_rejectIllegal (s : State) (x n : Nat) : (s.rejectIllegal).bytesAt x n = s.bytesAt x n := rfl

/-! ### dropWrite -/

@[simp] theorem State.dropWrite_ie (s : State) : (s.dropWrite).ie = s.ie := rfl
@[simp] theorem State.dropWrite_ckord (s : State) : (s.dropWrite).ckord = s.ckord := rfl
@[simp] theorem State.dropWrite_celloff (s : State) : (s.dropWrite).celloff = s.celloff := rfl
@[simp] theorem State.dropWrite_busy (s : State) : (s.dropWrite).busy = s.busy := rfl
@[simp] theorem State.dropWrite_done (s : State) : (s.dropWrite).done = s.done := rfl
@[simp] theorem State.dropWrite_ovf (s : State) : (s.dropWrite).ovf = true := rfl
@[simp] theorem State.dropWrite_err (s : State) : (s.dropWrite).err = s.err := rfl
@[simp] theorem State.dropWrite_tries (s : State) : (s.dropWrite).tries = s.tries := rfl
@[simp] theorem State.dropWrite_phase (s : State) : (s.dropWrite).phase = s.phase := rfl
@[simp] theorem State.dropWrite_cfgLen (s : State) : (s.dropWrite).cfgLen = s.cfgLen := rfl
@[simp] theorem State.dropWrite_cfgAddr (s : State) : (s.dropWrite).cfgAddr = s.cfgAddr := rfl
@[simp] theorem State.dropWrite_cfgFcmd (s : State) : (s.dropWrite).cfgFcmd = s.cfgFcmd := rfl
@[simp] theorem State.dropWrite_timeoutMs (s : State) : (s.dropWrite).timeoutMs = s.timeoutMs := rfl
@[simp] theorem State.dropWrite_maxTries (s : State) : (s.dropWrite).maxTries = s.maxTries := rfl
@[simp] theorem State.dropWrite_ckv (s : State) : (s.dropWrite).ckv = s.ckv := rfl
@[simp] theorem State.dropWrite_txlen (s : State) : (s.dropWrite).txlen = s.txlen := rfl
@[simp] theorem State.dropWrite_rxlen (s : State) : (s.dropWrite).rxlen = s.rxlen := rfl
@[simp] theorem State.dropWrite_treg (s : State) : (s.dropWrite).treg = s.treg := rfl
@[simp] theorem State.dropWrite_tvalid (s : State) : (s.dropWrite).tvalid = s.tvalid := rfl
@[simp] theorem State.dropWrite_tcount (s : State) : (s.dropWrite).tcount = s.tcount := rfl
@[simp] theorem State.dropWrite_tlmValue (s : State) : (s.dropWrite).tlmValue = s.tlmValue := rfl
@[simp] theorem State.dropWrite_tlmRaw (s : State) : (s.dropWrite).tlmRaw = s.tlmRaw := rfl
@[simp] theorem State.dropWrite_tlmFlags (s : State) : (s.dropWrite).tlmFlags = s.tlmFlags := rfl
@[simp] theorem State.dropWrite_cacheI (s : State) : (s.dropWrite).cacheI = s.cacheI := rfl
@[simp] theorem State.dropWrite_civ (s : State) : (s.dropWrite).civ = s.civ := rfl
@[simp] theorem State.dropWrite_csv (s : State) : (s.dropWrite).csv = s.csv := rfl
@[simp] theorem State.dropWrite_cslen (s : State) : (s.dropWrite).cslen = s.cslen := rfl
@[simp] theorem State.dropWrite_curOp (s : State) : (s.dropWrite).curOp = s.curOp := rfl
@[simp] theorem State.dropWrite_curReg (s : State) : (s.dropWrite).curReg = s.curReg := rfl
@[simp] theorem State.dropWrite_curPlen (s : State) : (s.dropWrite).curPlen = s.curPlen := rfl
@[simp] theorem State.dropWrite_timer (s : State) : (s.dropWrite).timer = s.timer := rfl
@[simp] theorem State.dropWrite_mem (s : State) : (s.dropWrite).mem = s.mem := rfl
@[simp] theorem State.dropWrite_txchan (s : State) : (s.dropWrite).txchan = s.txchan := rfl
@[simp] theorem State.dropWrite_rxfifo (s : State) : (s.dropWrite).rxfifo = s.rxfifo := rfl
@[simp] theorem State.dropWrite_inReset (s : State) : (s.dropWrite).inReset = s.inReset := rfl
@[simp] theorem State.dropWrite_epoch (s : State) : (s.dropWrite).epoch = s.epoch := rfl
@[simp] theorem State.dropWrite_hostData (s : State) : (s.dropWrite).hostData = s.hostData := rfl
@[simp] theorem State.dropWrite_agenda (s : State) : (s.dropWrite).agenda = s.agenda := rfl
@[simp] theorem State.byteAt_dropWrite (s : State) (x : Nat) : (s.dropWrite).byteAt x = s.byteAt x := rfl
@[simp] theorem State.bytesAt_dropWrite (s : State) (x n : Nat) : (s.dropWrite).bytesAt x n = s.bytesAt x n := rfl

/-! ### w1cStatus -/

@[simp] theorem State.w1cStatus_ie (s : State) (v : Word) : (s.w1cStatus v).ie = s.ie := rfl
@[simp] theorem State.w1cStatus_ckord (s : State) (v : Word) : (s.w1cStatus v).ckord = s.ckord := rfl
@[simp] theorem State.w1cStatus_celloff (s : State) (v : Word) : (s.w1cStatus v).celloff = s.celloff := rfl
@[simp] theorem State.w1cStatus_busy (s : State) (v : Word) : (s.w1cStatus v).busy = s.busy := rfl
@[simp] theorem State.w1cStatus_done (s : State) (v : Word) : (s.w1cStatus v).done = (s.done && !v.getLsbD 1) := rfl
@[simp] theorem State.w1cStatus_ovf (s : State) (v : Word) : (s.w1cStatus v).ovf = (s.ovf && !v.getLsbD 2) := rfl
@[simp] theorem State.w1cStatus_err (s : State) (v : Word) : (s.w1cStatus v).err = s.err := rfl
@[simp] theorem State.w1cStatus_tries (s : State) (v : Word) : (s.w1cStatus v).tries = s.tries := rfl
@[simp] theorem State.w1cStatus_phase (s : State) (v : Word) : (s.w1cStatus v).phase = s.phase := rfl
@[simp] theorem State.w1cStatus_cfgLen (s : State) (v : Word) : (s.w1cStatus v).cfgLen = s.cfgLen := rfl
@[simp] theorem State.w1cStatus_cfgAddr (s : State) (v : Word) : (s.w1cStatus v).cfgAddr = s.cfgAddr := rfl
@[simp] theorem State.w1cStatus_cfgFcmd (s : State) (v : Word) : (s.w1cStatus v).cfgFcmd = s.cfgFcmd := rfl
@[simp] theorem State.w1cStatus_timeoutMs (s : State) (v : Word) : (s.w1cStatus v).timeoutMs = s.timeoutMs := rfl
@[simp] theorem State.w1cStatus_maxTries (s : State) (v : Word) : (s.w1cStatus v).maxTries = s.maxTries := rfl
@[simp] theorem State.w1cStatus_ckv (s : State) (v : Word) : (s.w1cStatus v).ckv = s.ckv := rfl
@[simp] theorem State.w1cStatus_txlen (s : State) (v : Word) : (s.w1cStatus v).txlen = s.txlen := rfl
@[simp] theorem State.w1cStatus_rxlen (s : State) (v : Word) : (s.w1cStatus v).rxlen = s.rxlen := rfl
@[simp] theorem State.w1cStatus_treg (s : State) (v : Word) : (s.w1cStatus v).treg = s.treg := rfl
@[simp] theorem State.w1cStatus_tvalid (s : State) (v : Word) : (s.w1cStatus v).tvalid = s.tvalid := rfl
@[simp] theorem State.w1cStatus_tcount (s : State) (v : Word) : (s.w1cStatus v).tcount = s.tcount := rfl
@[simp] theorem State.w1cStatus_tlmValue (s : State) (v : Word) : (s.w1cStatus v).tlmValue = s.tlmValue := rfl
@[simp] theorem State.w1cStatus_tlmRaw (s : State) (v : Word) : (s.w1cStatus v).tlmRaw = s.tlmRaw := rfl
@[simp] theorem State.w1cStatus_tlmFlags (s : State) (v : Word) : (s.w1cStatus v).tlmFlags = s.tlmFlags := rfl
@[simp] theorem State.w1cStatus_cacheI (s : State) (v : Word) : (s.w1cStatus v).cacheI = s.cacheI := rfl
@[simp] theorem State.w1cStatus_civ (s : State) (v : Word) : (s.w1cStatus v).civ = s.civ := rfl
@[simp] theorem State.w1cStatus_csv (s : State) (v : Word) : (s.w1cStatus v).csv = s.csv := rfl
@[simp] theorem State.w1cStatus_cslen (s : State) (v : Word) : (s.w1cStatus v).cslen = s.cslen := rfl
@[simp] theorem State.w1cStatus_curOp (s : State) (v : Word) : (s.w1cStatus v).curOp = s.curOp := rfl
@[simp] theorem State.w1cStatus_curReg (s : State) (v : Word) : (s.w1cStatus v).curReg = s.curReg := rfl
@[simp] theorem State.w1cStatus_curPlen (s : State) (v : Word) : (s.w1cStatus v).curPlen = s.curPlen := rfl
@[simp] theorem State.w1cStatus_timer (s : State) (v : Word) : (s.w1cStatus v).timer = s.timer := rfl
@[simp] theorem State.w1cStatus_mem (s : State) (v : Word) : (s.w1cStatus v).mem = s.mem := rfl
@[simp] theorem State.w1cStatus_txchan (s : State) (v : Word) : (s.w1cStatus v).txchan = s.txchan := rfl
@[simp] theorem State.w1cStatus_rxfifo (s : State) (v : Word) : (s.w1cStatus v).rxfifo = s.rxfifo := rfl
@[simp] theorem State.w1cStatus_inReset (s : State) (v : Word) : (s.w1cStatus v).inReset = s.inReset := rfl
@[simp] theorem State.w1cStatus_epoch (s : State) (v : Word) : (s.w1cStatus v).epoch = s.epoch := rfl
@[simp] theorem State.w1cStatus_hostData (s : State) (v : Word) : (s.w1cStatus v).hostData = s.hostData := rfl
@[simp] theorem State.w1cStatus_agenda (s : State) (v : Word) : (s.w1cStatus v).agenda = s.agenda := rfl
@[simp] theorem State.byteAt_w1cStatus (s : State) (v : Word) (x : Nat) : (s.w1cStatus v).byteAt x = s.byteAt x := rfl
@[simp] theorem State.bytesAt_w1cStatus (s : State) (v : Word) (x n : Nat) : (s.w1cStatus v).bytesAt x n = s.bytesAt x n := rfl

/-! ### store -/

@[simp] theorem State.store_ie (s : State) (a : Nat) (bs : List Byte) : (s.store a bs).ie = s.ie := rfl
@[simp] theorem State.store_ckord (s : State) (a : Nat) (bs : List Byte) : (s.store a bs).ckord = s.ckord := rfl
@[simp] theorem State.store_celloff (s : State) (a : Nat) (bs : List Byte) : (s.store a bs).celloff = s.celloff := rfl
@[simp] theorem State.store_busy (s : State) (a : Nat) (bs : List Byte) : (s.store a bs).busy = s.busy := rfl
@[simp] theorem State.store_done (s : State) (a : Nat) (bs : List Byte) : (s.store a bs).done = s.done := rfl
@[simp] theorem State.store_ovf (s : State) (a : Nat) (bs : List Byte) : (s.store a bs).ovf = s.ovf := rfl
@[simp] theorem State.store_err (s : State) (a : Nat) (bs : List Byte) : (s.store a bs).err = s.err := rfl
@[simp] theorem State.store_tries (s : State) (a : Nat) (bs : List Byte) : (s.store a bs).tries = s.tries := rfl
@[simp] theorem State.store_phase (s : State) (a : Nat) (bs : List Byte) : (s.store a bs).phase = s.phase := rfl
@[simp] theorem State.store_cfgLen (s : State) (a : Nat) (bs : List Byte) : (s.store a bs).cfgLen = s.cfgLen := rfl
@[simp] theorem State.store_cfgAddr (s : State) (a : Nat) (bs : List Byte) : (s.store a bs).cfgAddr = s.cfgAddr := rfl
@[simp] theorem State.store_cfgFcmd (s : State) (a : Nat) (bs : List Byte) : (s.store a bs).cfgFcmd = s.cfgFcmd := rfl
@[simp] theorem State.store_timeoutMs (s : State) (a : Nat) (bs : List Byte) : (s.store a bs).timeoutMs = s.timeoutMs := rfl
@[simp] theorem State.store_maxTries (s : State) (a : Nat) (bs : List Byte) : (s.store a bs).maxTries = s.maxTries := rfl
@[simp] theorem State.store_ckv (s : State) (a : Nat) (bs : List Byte) : (s.store a bs).ckv = s.ckv := rfl
@[simp] theorem State.store_txlen (s : State) (a : Nat) (bs : List Byte) : (s.store a bs).txlen = s.txlen := rfl
@[simp] theorem State.store_rxlen (s : State) (a : Nat) (bs : List Byte) : (s.store a bs).rxlen = s.rxlen := rfl
@[simp] theorem State.store_treg (s : State) (a : Nat) (bs : List Byte) : (s.store a bs).treg = s.treg := rfl
@[simp] theorem State.store_tvalid (s : State) (a : Nat) (bs : List Byte) : (s.store a bs).tvalid = s.tvalid := rfl
@[simp] theorem State.store_tcount (s : State) (a : Nat) (bs : List Byte) : (s.store a bs).tcount = s.tcount := rfl
@[simp] theorem State.store_tlmValue (s : State) (a : Nat) (bs : List Byte) : (s.store a bs).tlmValue = s.tlmValue := rfl
@[simp] theorem State.store_tlmRaw (s : State) (a : Nat) (bs : List Byte) : (s.store a bs).tlmRaw = s.tlmRaw := rfl
@[simp] theorem State.store_tlmFlags (s : State) (a : Nat) (bs : List Byte) : (s.store a bs).tlmFlags = s.tlmFlags := rfl
@[simp] theorem State.store_cacheI (s : State) (a : Nat) (bs : List Byte) : (s.store a bs).cacheI = s.cacheI := rfl
@[simp] theorem State.store_civ (s : State) (a : Nat) (bs : List Byte) : (s.store a bs).civ = s.civ := rfl
@[simp] theorem State.store_csv (s : State) (a : Nat) (bs : List Byte) : (s.store a bs).csv = s.csv := rfl
@[simp] theorem State.store_cslen (s : State) (a : Nat) (bs : List Byte) : (s.store a bs).cslen = s.cslen := rfl
@[simp] theorem State.store_curOp (s : State) (a : Nat) (bs : List Byte) : (s.store a bs).curOp = s.curOp := rfl
@[simp] theorem State.store_curReg (s : State) (a : Nat) (bs : List Byte) : (s.store a bs).curReg = s.curReg := rfl
@[simp] theorem State.store_curPlen (s : State) (a : Nat) (bs : List Byte) : (s.store a bs).curPlen = s.curPlen := rfl
@[simp] theorem State.store_timer (s : State) (a : Nat) (bs : List Byte) : (s.store a bs).timer = s.timer := rfl
@[simp] theorem State.store_mem (s : State) (a : Nat) (bs : List Byte) : (s.store a bs).mem = s.mem.writeList a bs := rfl
@[simp] theorem State.store_txchan (s : State) (a : Nat) (bs : List Byte) : (s.store a bs).txchan = s.txchan := rfl
@[simp] theorem State.store_rxfifo (s : State) (a : Nat) (bs : List Byte) : (s.store a bs).rxfifo = s.rxfifo := rfl
@[simp] theorem State.store_inReset (s : State) (a : Nat) (bs : List Byte) : (s.store a bs).inReset = s.inReset := rfl
@[simp] theorem State.store_epoch (s : State) (a : Nat) (bs : List Byte) : (s.store a bs).epoch = s.epoch := rfl
@[simp] theorem State.store_hostData (s : State) (a : Nat) (bs : List Byte) : (s.store a bs).hostData = s.hostData := rfl
@[simp] theorem State.store_agenda (s : State) (a : Nat) (bs : List Byte) : (s.store a bs).agenda = s.agenda := rfl

/-! ### txPush -/

@[simp] theorem State.txPush_ie (s : State) (bs : List Byte) : (s.txPush bs).ie = s.ie := rfl
@[simp] theorem State.txPush_ckord (s : State) (bs : List Byte) : (s.txPush bs).ckord = s.ckord := rfl
@[simp] theorem State.txPush_celloff (s : State) (bs : List Byte) : (s.txPush bs).celloff = s.celloff := rfl
@[simp] theorem State.txPush_busy (s : State) (bs : List Byte) : (s.txPush bs).busy = s.busy := rfl
@[simp] theorem State.txPush_done (s : State) (bs : List Byte) : (s.txPush bs).done = s.done := rfl
@[simp] theorem State.txPush_ovf (s : State) (bs : List Byte) : (s.txPush bs).ovf = s.ovf := rfl
@[simp] theorem State.txPush_err (s : State) (bs : List Byte) : (s.txPush bs).err = s.err := rfl
@[simp] theorem State.txPush_tries (s : State) (bs : List Byte) : (s.txPush bs).tries = s.tries := rfl
@[simp] theorem State.txPush_phase (s : State) (bs : List Byte) : (s.txPush bs).phase = s.phase := rfl
@[simp] theorem State.txPush_cfgLen (s : State) (bs : List Byte) : (s.txPush bs).cfgLen = s.cfgLen := rfl
@[simp] theorem State.txPush_cfgAddr (s : State) (bs : List Byte) : (s.txPush bs).cfgAddr = s.cfgAddr := rfl
@[simp] theorem State.txPush_cfgFcmd (s : State) (bs : List Byte) : (s.txPush bs).cfgFcmd = s.cfgFcmd := rfl
@[simp] theorem State.txPush_timeoutMs (s : State) (bs : List Byte) : (s.txPush bs).timeoutMs = s.timeoutMs := rfl
@[simp] theorem State.txPush_maxTries (s : State) (bs : List Byte) : (s.txPush bs).maxTries = s.maxTries := rfl
@[simp] theorem State.txPush_ckv (s : State) (bs : List Byte) : (s.txPush bs).ckv = s.ckv := rfl
@[simp] theorem State.txPush_txlen (s : State) (bs : List Byte) : (s.txPush bs).txlen = s.txlen := rfl
@[simp] theorem State.txPush_rxlen (s : State) (bs : List Byte) : (s.txPush bs).rxlen = s.rxlen := rfl
@[simp] theorem State.txPush_treg (s : State) (bs : List Byte) : (s.txPush bs).treg = s.treg := rfl
@[simp] theorem State.txPush_tvalid (s : State) (bs : List Byte) : (s.txPush bs).tvalid = s.tvalid := rfl
@[simp] theorem State.txPush_tcount (s : State) (bs : List Byte) : (s.txPush bs).tcount = s.tcount := rfl
@[simp] theorem State.txPush_tlmValue (s : State) (bs : List Byte) : (s.txPush bs).tlmValue = s.tlmValue := rfl
@[simp] theorem State.txPush_tlmRaw (s : State) (bs : List Byte) : (s.txPush bs).tlmRaw = s.tlmRaw := rfl
@[simp] theorem State.txPush_tlmFlags (s : State) (bs : List Byte) : (s.txPush bs).tlmFlags = s.tlmFlags := rfl
@[simp] theorem State.txPush_cacheI (s : State) (bs : List Byte) : (s.txPush bs).cacheI = s.cacheI := rfl
@[simp] theorem State.txPush_civ (s : State) (bs : List Byte) : (s.txPush bs).civ = s.civ := rfl
@[simp] theorem State.txPush_csv (s : State) (bs : List Byte) : (s.txPush bs).csv = s.csv := rfl
@[simp] theorem State.txPush_cslen (s : State) (bs : List Byte) : (s.txPush bs).cslen = s.cslen := rfl
@[simp] theorem State.txPush_curOp (s : State) (bs : List Byte) : (s.txPush bs).curOp = s.curOp := rfl
@[simp] theorem State.txPush_curReg (s : State) (bs : List Byte) : (s.txPush bs).curReg = s.curReg := rfl
@[simp] theorem State.txPush_curPlen (s : State) (bs : List Byte) : (s.txPush bs).curPlen = s.curPlen := rfl
@[simp] theorem State.txPush_timer (s : State) (bs : List Byte) : (s.txPush bs).timer = s.timer := rfl
@[simp] theorem State.txPush_mem (s : State) (bs : List Byte) : (s.txPush bs).mem = s.mem := rfl
@[simp] theorem State.txPush_txchan (s : State) (bs : List Byte) : (s.txPush bs).txchan = s.txchan ++ bs := rfl
@[simp] theorem State.txPush_rxfifo (s : State) (bs : List Byte) : (s.txPush bs).rxfifo = s.rxfifo := rfl
@[simp] theorem State.txPush_inReset (s : State) (bs : List Byte) : (s.txPush bs).inReset = s.inReset := rfl
@[simp] theorem State.txPush_epoch (s : State) (bs : List Byte) : (s.txPush bs).epoch = s.epoch := rfl
@[simp] theorem State.txPush_hostData (s : State) (bs : List Byte) : (s.txPush bs).hostData = s.hostData := rfl
@[simp] theorem State.txPush_agenda (s : State) (bs : List Byte) : (s.txPush bs).agenda = s.agenda := rfl
@[simp] theorem State.byteAt_txPush (s : State) (bs : List Byte) (x : Nat) : (s.txPush bs).byteAt x = s.byteAt x := rfl
@[simp] theorem State.bytesAt_txPush (s : State) (bs : List Byte) (x n : Nat) : (s.txPush bs).bytesAt x n = s.bytesAt x n := rfl

/-! ### rxDrop -/

@[simp] theorem State.rxDrop_ie (s : State) (k : Nat) : (s.rxDrop k).ie = s.ie := rfl
@[simp] theorem State.rxDrop_ckord (s : State) (k : Nat) : (s.rxDrop k).ckord = s.ckord := rfl
@[simp] theorem State.rxDrop_celloff (s : State) (k : Nat) : (s.rxDrop k).celloff = s.celloff := rfl
@[simp] theorem State.rxDrop_busy (s : State) (k : Nat) : (s.rxDrop k).busy = s.busy := rfl
@[simp] theorem State.rxDrop_done (s : State) (k : Nat) : (s.rxDrop k).done = s.done := rfl
@[simp] theorem State.rxDrop_ovf (s : State) (k : Nat) : (s.rxDrop k).ovf = s.ovf := rfl
@[simp] theorem State.rxDrop_err (s : State) (k : Nat) : (s.rxDrop k).err = s.err := rfl
@[simp] theorem State.rxDrop_tries (s : State) (k : Nat) : (s.rxDrop k).tries = s.tries := rfl
@[simp] theorem State.rxDrop_phase (s : State) (k : Nat) : (s.rxDrop k).phase = s.phase := rfl
@[simp] theorem State.rxDrop_cfgLen (s : State) (k : Nat) : (s.rxDrop k).cfgLen = s.cfgLen := rfl
@[simp] theorem State.rxDrop_cfgAddr (s : State) (k : Nat) : (s.rxDrop k).cfgAddr = s.cfgAddr := rfl
@[simp] theorem State.rxDrop_cfgFcmd (s : State) (k : Nat) : (s.rxDrop k).cfgFcmd = s.cfgFcmd := rfl
@[simp] theorem State.rxDrop_timeoutMs (s : State) (k : Nat) : (s.rxDrop k).timeoutMs = s.timeoutMs := rfl
@[simp] theorem State.rxDrop_maxTries (s : State) (k : Nat) : (s.rxDrop k).maxTries = s.maxTries := rfl
@[simp] theorem State.rxDrop_ckv (s : State) (k : Nat) : (s.rxDrop k).ckv = s.ckv := rfl
@[simp] theorem State.rxDrop_txlen (s : State) (k : Nat) : (s.rxDrop k).txlen = s.txlen := rfl
@[simp] theorem State.rxDrop_rxlen (s : State) (k : Nat) : (s.rxDrop k).rxlen = s.rxlen := rfl
@[simp] theorem State.rxDrop_treg (s : State) (k : Nat) : (s.rxDrop k).treg = s.treg := rfl
@[simp] theorem State.rxDrop_tvalid (s : State) (k : Nat) : (s.rxDrop k).tvalid = s.tvalid := rfl
@[simp] theorem State.rxDrop_tcount (s : State) (k : Nat) : (s.rxDrop k).tcount = s.tcount := rfl
@[simp] theorem State.rxDrop_tlmValue (s : State) (k : Nat) : (s.rxDrop k).tlmValue = s.tlmValue := rfl
@[simp] theorem State.rxDrop_tlmRaw (s : State) (k : Nat) : (s.rxDrop k).tlmRaw = s.tlmRaw := rfl
@[simp] theorem State.rxDrop_tlmFlags (s : State) (k : Nat) : (s.rxDrop k).tlmFlags = s.tlmFlags := rfl
@[simp] theorem State.rxDrop_cacheI (s : State) (k : Nat) : (s.rxDrop k).cacheI = s.cacheI := rfl
@[simp] theorem State.rxDrop_civ (s : State) (k : Nat) : (s.rxDrop k).civ = s.civ := rfl
@[simp] theorem State.rxDrop_csv (s : State) (k : Nat) : (s.rxDrop k).csv = s.csv := rfl
@[simp] theorem State.rxDrop_cslen (s : State) (k : Nat) : (s.rxDrop k).cslen = s.cslen := rfl
@[simp] theorem State.rxDrop_curOp (s : State) (k : Nat) : (s.rxDrop k).curOp = s.curOp := rfl
@[simp] theorem State.rxDrop_curReg (s : State) (k : Nat) : (s.rxDrop k).curReg = s.curReg := rfl
@[simp] theorem State.rxDrop_curPlen (s : State) (k : Nat) : (s.rxDrop k).curPlen = s.curPlen := rfl
@[simp] theorem State.rxDrop_timer (s : State) (k : Nat) : (s.rxDrop k).timer = s.timer := rfl
@[simp] theorem State.rxDrop_mem (s : State) (k : Nat) : (s.rxDrop k).mem = s.mem := rfl
@[simp] theorem State.rxDrop_txchan (s : State) (k : Nat) : (s.rxDrop k).txchan = s.txchan := rfl
@[simp] theorem State.rxDrop_rxfifo (s : State) (k : Nat) : (s.rxDrop k).rxfifo = s.rxfifo.drop k := rfl
@[simp] theorem State.rxDrop_inReset (s : State) (k : Nat) : (s.rxDrop k).inReset = s.inReset := rfl
@[simp] theorem State.rxDrop_epoch (s : State) (k : Nat) : (s.rxDrop k).epoch = s.epoch := rfl
@[simp] theorem State.rxDrop_hostData (s : State) (k : Nat) : (s.rxDrop k).hostData = s.hostData := rfl
@[simp] theorem State.rxDrop_agenda (s : State) (k : Nat) : (s.rxDrop k).agenda = s.agenda := rfl
@[simp] theorem State.byteAt_rxDrop (s : State) (k : Nat) (x : Nat) : (s.rxDrop k).byteAt x = s.byteAt x := rfl
@[simp] theorem State.bytesAt_rxDrop (s : State) (k : Nat) (x n : Nat) : (s.rxDrop k).bytesAt x n = s.bytesAt x n := rfl

/-! ### clearTlm -/

@[simp] theorem State.clearTlm_ie (s : State) : (s.clearTlm).ie = s.ie := rfl
@[simp] theorem State.clearTlm_ckord (s : State) : (s.clearTlm).ckord = s.ckord := rfl
@[simp] theorem State.clearTlm_celloff (s : State) : (s.clearTlm).celloff = s.celloff := rfl
@[simp] theorem State.clearTlm_busy (s : State) : (s.clearTlm).busy = s.busy := rfl
@[simp] theorem State.clearTlm_done (s : State) : (s.clearTlm).done = s.done := rfl
@[simp] theorem State.clearTlm_ovf (s : State) : (s.clearTlm).ovf = s.ovf := rfl
@[simp] theorem State.clearTlm_err (s : State) : (s.clearTlm).err = s.err := rfl
@[simp] theorem State.clearTlm_tries (s : State) : (s.clearTlm).tries = s.tries := rfl
@[simp] theorem State.clearTlm_phase (s : State) : (s.clearTlm).phase = s.phase := rfl
@[simp] theorem State.clearTlm_cfgLen (s : State) : (s.clearTlm).cfgLen = s.cfgLen := rfl
@[simp] theorem State.clearTlm_cfgAddr (s : State) : (s.clearTlm).cfgAddr = s.cfgAddr := rfl
@[simp] theorem State.clearTlm_cfgFcmd (s : State) : (s.clearTlm).cfgFcmd = s.cfgFcmd := rfl
@[simp] theorem State.clearTlm_timeoutMs (s : State) : (s.clearTlm).timeoutMs = s.timeoutMs := rfl
@[simp] theorem State.clearTlm_maxTries (s : State) : (s.clearTlm).maxTries = s.maxTries := rfl
@[simp] theorem State.clearTlm_ckv (s : State) : (s.clearTlm).ckv = s.ckv := rfl
@[simp] theorem State.clearTlm_txlen (s : State) : (s.clearTlm).txlen = s.txlen := rfl
@[simp] theorem State.clearTlm_rxlen (s : State) : (s.clearTlm).rxlen = s.rxlen := rfl
@[simp] theorem State.clearTlm_treg (s : State) : (s.clearTlm).treg = 0 := rfl
@[simp] theorem State.clearTlm_tvalid (s : State) : (s.clearTlm).tvalid = false := rfl
@[simp] theorem State.clearTlm_tcount (s : State) : (s.clearTlm).tcount = 0 := rfl
@[simp] theorem State.clearTlm_tlmValue (s : State) : (s.clearTlm).tlmValue = 0 := rfl
@[simp] theorem State.clearTlm_tlmRaw (s : State) : (s.clearTlm).tlmRaw = 0 := rfl
@[simp] theorem State.clearTlm_tlmFlags (s : State) : (s.clearTlm).tlmFlags = 0 := rfl
@[simp] theorem State.clearTlm_cacheI (s : State) : (s.clearTlm).cacheI = s.cacheI := rfl
@[simp] theorem State.clearTlm_civ (s : State) : (s.clearTlm).civ = s.civ := rfl
@[simp] theorem State.clearTlm_csv (s : State) : (s.clearTlm).csv = s.csv := rfl
@[simp] theorem State.clearTlm_cslen (s : State) : (s.clearTlm).cslen = s.cslen := rfl
@[simp] theorem State.clearTlm_curOp (s : State) : (s.clearTlm).curOp = s.curOp := rfl
@[simp] theorem State.clearTlm_curReg (s : State) : (s.clearTlm).curReg = s.curReg := rfl
@[simp] theorem State.clearTlm_curPlen (s : State) : (s.clearTlm).curPlen = s.curPlen := rfl
@[simp] theorem State.clearTlm_timer (s : State) : (s.clearTlm).timer = s.timer := rfl
@[simp] theorem State.clearTlm_mem (s : State) : (s.clearTlm).mem = s.mem := rfl
@[simp] theorem State.clearTlm_txchan (s : State) : (s.clearTlm).txchan = s.txchan := rfl
@[simp] theorem State.clearTlm_rxfifo (s : State) : (s.clearTlm).rxfifo = s.rxfifo := rfl
@[simp] theorem State.clearTlm_inReset (s : State) : (s.clearTlm).inReset = s.inReset := rfl
@[simp] theorem State.clearTlm_epoch (s : State) : (s.clearTlm).epoch = s.epoch := rfl
@[simp] theorem State.clearTlm_hostData (s : State) : (s.clearTlm).hostData = s.hostData := rfl
@[simp] theorem State.clearTlm_agenda (s : State) : (s.clearTlm).agenda = s.agenda := rfl
@[simp] theorem State.byteAt_clearTlm (s : State) (x : Nat) : (s.clearTlm).byteAt x = s.byteAt x := rfl
@[simp] theorem State.bytesAt_clearTlm (s : State) (x n : Nat) : (s.clearTlm).bytesAt x n = s.bytesAt x n := rfl

/-! ### expireStep -/

@[simp] theorem State.expireStep_ie (s : State) : (s.expireStep).ie = s.ie := rfl
@[simp] theorem State.expireStep_ckord (s : State) : (s.expireStep).ckord = s.ckord := rfl
@[simp] theorem State.expireStep_celloff (s : State) : (s.expireStep).celloff = s.celloff := rfl
@[simp] theorem State.expireStep_busy (s : State) : (s.expireStep).busy = s.busy := rfl
@[simp] theorem State.expireStep_done (s : State) : (s.expireStep).done = s.done := rfl
@[simp] theorem State.expireStep_ovf (s : State) : (s.expireStep).ovf = s.ovf := rfl
@[simp] theorem State.expireStep_err (s : State) : (s.expireStep).err = s.err := rfl
@[simp] theorem State.expireStep_tries (s : State) : (s.expireStep).tries = s.tries := rfl
@[simp] theorem State.expireStep_phase (s : State) : (s.expireStep).phase = .send := rfl
@[simp] theorem State.expireStep_cfgLen (s : State) : (s.expireStep).cfgLen = s.cfgLen := rfl
@[simp] theorem State.expireStep_cfgAddr (s : State) : (s.expireStep).cfgAddr = s.cfgAddr := rfl
@[simp] theorem State.expireStep_cfgFcmd (s : State) : (s.expireStep).cfgFcmd = s.cfgFcmd := rfl
@[simp] theorem State.expireStep_timeoutMs (s : State) : (s.expireStep).timeoutMs = s.timeoutMs := rfl
@[simp] theorem State.expireStep_maxTries (s : State) : (s.expireStep).maxTries = s.maxTries := rfl
@[simp] theorem State.expireStep_ckv (s : State) : (s.expireStep).ckv = s.ckv := rfl
@[simp] theorem State.expireStep_txlen (s : State) : (s.expireStep).txlen = s.txlen := rfl
@[simp] theorem State.expireStep_rxlen (s : State) : (s.expireStep).rxlen = s.rxlen := rfl
@[simp] theorem State.expireStep_treg (s : State) : (s.expireStep).treg = s.treg := rfl
@[simp] theorem State.expireStep_tvalid (s : State) : (s.expireStep).tvalid = s.tvalid := rfl
@[simp] theorem State.expireStep_tcount (s : State) : (s.expireStep).tcount = s.tcount := rfl
@[simp] theorem State.expireStep_tlmValue (s : State) : (s.expireStep).tlmValue = s.tlmValue := rfl
@[simp] theorem State.expireStep_tlmRaw (s : State) : (s.expireStep).tlmRaw = s.tlmRaw := rfl
@[simp] theorem State.expireStep_tlmFlags (s : State) : (s.expireStep).tlmFlags = s.tlmFlags := rfl
@[simp] theorem State.expireStep_cacheI (s : State) : (s.expireStep).cacheI = s.cacheI := rfl
@[simp] theorem State.expireStep_civ (s : State) : (s.expireStep).civ = s.civ := rfl
@[simp] theorem State.expireStep_csv (s : State) : (s.expireStep).csv = s.csv := rfl
@[simp] theorem State.expireStep_cslen (s : State) : (s.expireStep).cslen = s.cslen := rfl
@[simp] theorem State.expireStep_curOp (s : State) : (s.expireStep).curOp = s.curOp := rfl
@[simp] theorem State.expireStep_curReg (s : State) : (s.expireStep).curReg = s.curReg := rfl
@[simp] theorem State.expireStep_curPlen (s : State) : (s.expireStep).curPlen = s.curPlen := rfl
@[simp] theorem State.expireStep_timer (s : State) : (s.expireStep).timer = .stopped := rfl
@[simp] theorem State.expireStep_mem (s : State) : (s.expireStep).mem = s.mem := rfl
@[simp] theorem State.expireStep_txchan (s : State) : (s.expireStep).txchan = s.txchan := rfl
@[simp] theorem State.expireStep_rxfifo (s : State) : (s.expireStep).rxfifo = s.rxfifo := rfl
@[simp] theorem State.expireStep_inReset (s : State) : (s.expireStep).inReset = s.inReset := rfl
@[simp] theorem State.expireStep_epoch (s : State) : (s.expireStep).epoch = s.epoch := rfl
@[simp] theorem State.expireStep_hostData (s : State) : (s.expireStep).hostData = s.hostData := rfl
@[simp] theorem State.expireStep_agenda (s : State) : (s.expireStep).agenda = s.agenda := rfl
@[simp] theorem State.byteAt_expireStep (s : State) (x : Nat) : (s.expireStep).byteAt x = s.byteAt x := rfl
@[simp] theorem State.bytesAt_expireStep (s : State) (x n : Nat) : (s.expireStep).bytesAt x n = s.bytesAt x n := rfl

/-! ### releaseReset -/

@[simp] theorem State.releaseReset_ie (s : State) : (s.releaseReset).ie = s.ie := rfl
@[simp] theorem State.releaseReset_ckord (s : State) : (s.releaseReset).ckord = s.ckord := rfl
@[simp] theorem State.releaseReset_celloff (s : State) : (s.releaseReset).celloff = s.celloff := rfl
@[simp] theorem State.releaseReset_busy (s : State) : (s.releaseReset).busy = s.busy := rfl
@[simp] theorem State.releaseReset_done (s : State) : (s.releaseReset).done = s.done := rfl
@[simp] theorem State.releaseReset_ovf (s : State) : (s.releaseReset).ovf = s.ovf := rfl
@[simp] theorem State.releaseReset_err (s : State) : (s.releaseReset).err = s.err := rfl
@[simp] theorem State.releaseReset_tries (s : State) : (s.releaseReset).tries = s.tries := rfl
@[simp] theorem State.releaseReset_phase (s : State) : (s.releaseReset).phase = s.phase := rfl
@[simp] theorem State.releaseReset_cfgLen (s : State) : (s.releaseReset).cfgLen = s.cfgLen := rfl
@[simp] theorem State.releaseReset_cfgAddr (s : State) : (s.releaseReset).cfgAddr = s.cfgAddr := rfl
@[simp] theorem State.releaseReset_cfgFcmd (s : State) : (s.releaseReset).cfgFcmd = s.cfgFcmd := rfl
@[simp] theorem State.releaseReset_timeoutMs (s : State) : (s.releaseReset).timeoutMs = s.timeoutMs := rfl
@[simp] theorem State.releaseReset_maxTries (s : State) : (s.releaseReset).maxTries = s.maxTries := rfl
@[simp] theorem State.releaseReset_ckv (s : State) : (s.releaseReset).ckv = s.ckv := rfl
@[simp] theorem State.releaseReset_txlen (s : State) : (s.releaseReset).txlen = s.txlen := rfl
@[simp] theorem State.releaseReset_rxlen (s : State) : (s.releaseReset).rxlen = s.rxlen := rfl
@[simp] theorem State.releaseReset_treg (s : State) : (s.releaseReset).treg = s.treg := rfl
@[simp] theorem State.releaseReset_tvalid (s : State) : (s.releaseReset).tvalid = s.tvalid := rfl
@[simp] theorem State.releaseReset_tcount (s : State) : (s.releaseReset).tcount = s.tcount := rfl
@[simp] theorem State.releaseReset_tlmValue (s : State) : (s.releaseReset).tlmValue = s.tlmValue := rfl
@[simp] theorem State.releaseReset_tlmRaw (s : State) : (s.releaseReset).tlmRaw = s.tlmRaw := rfl
@[simp] theorem State.releaseReset_tlmFlags (s : State) : (s.releaseReset).tlmFlags = s.tlmFlags := rfl
@[simp] theorem State.releaseReset_cacheI (s : State) : (s.releaseReset).cacheI = s.cacheI := rfl
@[simp] theorem State.releaseReset_civ (s : State) : (s.releaseReset).civ = s.civ := rfl
@[simp] theorem State.releaseReset_csv (s : State) : (s.releaseReset).csv = s.csv := rfl
@[simp] theorem State.releaseReset_cslen (s : State) : (s.releaseReset).cslen = s.cslen := rfl
@[simp] theorem State.releaseReset_curOp (s : State) : (s.releaseReset).curOp = s.curOp := rfl
@[simp] theorem State.releaseReset_curReg (s : State) : (s.releaseReset).curReg = s.curReg := rfl
@[simp] theorem State.releaseReset_curPlen (s : State) : (s.releaseReset).curPlen = s.curPlen := rfl
@[simp] theorem State.releaseReset_timer (s : State) : (s.releaseReset).timer = s.timer := rfl
@[simp] theorem State.releaseReset_mem (s : State) : (s.releaseReset).mem = s.mem := rfl
@[simp] theorem State.releaseReset_txchan (s : State) : (s.releaseReset).txchan = s.txchan := rfl
@[simp] theorem State.releaseReset_rxfifo (s : State) : (s.releaseReset).rxfifo = s.rxfifo := rfl
@[simp] theorem State.releaseReset_inReset (s : State) : (s.releaseReset).inReset = false := rfl
@[simp] theorem State.releaseReset_epoch (s : State) : (s.releaseReset).epoch = s.epoch := rfl
@[simp] theorem State.releaseReset_hostData (s : State) : (s.releaseReset).hostData = s.hostData := rfl
@[simp] theorem State.releaseReset_agenda (s : State) : (s.releaseReset).agenda = s.agenda := rfl
@[simp] theorem State.byteAt_releaseReset (s : State) (x : Nat) : (s.releaseReset).byteAt x = s.byteAt x := rfl
@[simp] theorem State.bytesAt_releaseReset (s : State) (x n : Nat) : (s.releaseReset).bytesAt x n = s.bytesAt x n := rfl

/-! ### withAgenda -/

@[simp] theorem State.withAgenda_ie (s : State) (es : List Event) : (s.withAgenda es).ie = s.ie := rfl
@[simp] theorem State.withAgenda_ckord (s : State) (es : List Event) : (s.withAgenda es).ckord = s.ckord := rfl
@[simp] theorem State.withAgenda_celloff (s : State) (es : List Event) : (s.withAgenda es).celloff = s.celloff := rfl
@[simp] theorem State.withAgenda_busy (s : State) (es : List Event) : (s.withAgenda es).busy = s.busy := rfl
@[simp] theorem State.withAgenda_done (s : State) (es : List Event) : (s.withAgenda es).done = s.done := rfl
@[simp] theorem State.withAgenda_ovf (s : State) (es : List Event) : (s.withAgenda es).ovf = s.ovf := rfl
@[simp] theorem State.withAgenda_err (s : State) (es : List Event) : (s.withAgenda es).err = s.err := rfl
@[simp] theorem State.withAgenda_tries (s : State) (es : List Event) : (s.withAgenda es).tries = s.tries := rfl
@[simp] theorem State.withAgenda_phase (s : State) (es : List Event) : (s.withAgenda es).phase = s.phase := rfl
@[simp] theorem State.withAgenda_cfgLen (s : State) (es : List Event) : (s.withAgenda es).cfgLen = s.cfgLen := rfl
@[simp] theorem State.withAgenda_cfgAddr (s : State) (es : List Event) : (s.withAgenda es).cfgAddr = s.cfgAddr := rfl
@[simp] theorem State.withAgenda_cfgFcmd (s : State) (es : List Event) : (s.withAgenda es).cfgFcmd = s.cfgFcmd := rfl
@[simp] theorem State.withAgenda_timeoutMs (s : State) (es : List Event) : (s.withAgenda es).timeoutMs = s.timeoutMs := rfl
@[simp] theorem State.withAgenda_maxTries (s : State) (es : List Event) : (s.withAgenda es).maxTries = s.maxTries := rfl
@[simp] theorem State.withAgenda_ckv (s : State) (es : List Event) : (s.withAgenda es).ckv = s.ckv := rfl
@[simp] theorem State.withAgenda_txlen (s : State) (es : List Event) : (s.withAgenda es).txlen = s.txlen := rfl
@[simp] theorem State.withAgenda_rxlen (s : State) (es : List Event) : (s.withAgenda es).rxlen = s.rxlen := rfl
@[simp] theorem State.withAgenda_treg (s : State) (es : List Event) : (s.withAgenda es).treg = s.treg := rfl
@[simp] theorem State.withAgenda_tvalid (s : State) (es : List Event) : (s.withAgenda es).tvalid = s.tvalid := rfl
@[simp] theorem State.withAgenda_tcount (s : State) (es : List Event) : (s.withAgenda es).tcount = s.tcount := rfl
@[simp] theorem State.withAgenda_tlmValue (s : State) (es : List Event) : (s.withAgenda es).tlmValue = s.tlmValue := rfl
@[simp] theorem State.withAgenda_tlmRaw (s : State) (es : List Event) : (s.withAgenda es).tlmRaw = s.tlmRaw := rfl
@[simp] theorem State.withAgenda_tlmFlags (s : State) (es : List Event) : (s.withAgenda es).tlmFlags = s.tlmFlags := rfl
@[simp] theorem State.withAgenda_cacheI (s : State) (es : List Event) : (s.withAgenda es).cacheI = s.cacheI := rfl
@[simp] theorem State.withAgenda_civ (s : State) (es : List Event) : (s.withAgenda es).civ = s.civ := rfl
@[simp] theorem State.withAgenda_csv (s : State) (es : List Event) : (s.withAgenda es).csv = s.csv := rfl
@[simp] theorem State.withAgenda_cslen (s : State) (es : List Event) : (s.withAgenda es).cslen = s.cslen := rfl
@[simp] theorem State.withAgenda_curOp (s : State) (es : List Event) : (s.withAgenda es).curOp = s.curOp := rfl
@[simp] theorem State.withAgenda_curReg (s : State) (es : List Event) : (s.withAgenda es).curReg = s.curReg := rfl
@[simp] theorem State.withAgenda_curPlen (s : State) (es : List Event) : (s.withAgenda es).curPlen = s.curPlen := rfl
@[simp] theorem State.withAgenda_timer (s : State) (es : List Event) : (s.withAgenda es).timer = s.timer := rfl
@[simp] theorem State.withAgenda_mem (s : State) (es : List Event) : (s.withAgenda es).mem = s.mem := rfl
@[simp] theorem State.withAgenda_txchan (s : State) (es : List Event) : (s.withAgenda es).txchan = s.txchan := rfl
@[simp] theorem State.withAgenda_rxfifo (s : State) (es : List Event) : (s.withAgenda es).rxfifo = s.rxfifo := rfl
@[simp] theorem State.withAgenda_inReset (s : State) (es : List Event) : (s.withAgenda es).inReset = s.inReset := rfl
@[simp] theorem State.withAgenda_epoch (s : State) (es : List Event) : (s.withAgenda es).epoch = s.epoch := rfl
@[simp] theorem State.withAgenda_hostData (s : State) (es : List Event) : (s.withAgenda es).hostData = s.hostData := rfl
@[simp] theorem State.withAgenda_agenda (s : State) (es : List Event) : (s.withAgenda es).agenda = es := rfl
@[simp] theorem State.byteAt_withAgenda (s : State) (es : List Event) (x : Nat) : (s.withAgenda es).byteAt x = s.byteAt x := rfl
@[simp] theorem State.bytesAt_withAgenda (s : State) (es : List Event) (x k : Nat) : (s.withAgenda es).bytesAt x k = s.bytesAt x k := rfl

/-! ### hear -/

@[simp] theorem State.hear_ie (s : State) (w : Word) : (s.hear w).ie = s.ie := rfl
@[simp] theorem State.hear_ckord (s : State) (w : Word) : (s.hear w).ckord = s.ckord := rfl
@[simp] theorem State.hear_celloff (s : State) (w : Word) : (s.hear w).celloff = s.celloff := rfl
@[simp] theorem State.hear_busy (s : State) (w : Word) : (s.hear w).busy = s.busy := rfl
@[simp] theorem State.hear_done (s : State) (w : Word) : (s.hear w).done = s.done := rfl
@[simp] theorem State.hear_ovf (s : State) (w : Word) : (s.hear w).ovf = s.ovf := rfl
@[simp] theorem State.hear_err (s : State) (w : Word) : (s.hear w).err = s.err := rfl
@[simp] theorem State.hear_tries (s : State) (w : Word) : (s.hear w).tries = s.tries := rfl
@[simp] theorem State.hear_phase (s : State) (w : Word) : (s.hear w).phase = s.phase := rfl
@[simp] theorem State.hear_cfgLen (s : State) (w : Word) : (s.hear w).cfgLen = s.cfgLen := rfl
@[simp] theorem State.hear_cfgAddr (s : State) (w : Word) : (s.hear w).cfgAddr = s.cfgAddr := rfl
@[simp] theorem State.hear_cfgFcmd (s : State) (w : Word) : (s.hear w).cfgFcmd = s.cfgFcmd := rfl
@[simp] theorem State.hear_timeoutMs (s : State) (w : Word) : (s.hear w).timeoutMs = s.timeoutMs := rfl
@[simp] theorem State.hear_maxTries (s : State) (w : Word) : (s.hear w).maxTries = s.maxTries := rfl
@[simp] theorem State.hear_ckv (s : State) (w : Word) : (s.hear w).ckv = s.ckv := rfl
@[simp] theorem State.hear_txlen (s : State) (w : Word) : (s.hear w).txlen = s.txlen := rfl
@[simp] theorem State.hear_rxlen (s : State) (w : Word) : (s.hear w).rxlen = s.rxlen := rfl
@[simp] theorem State.hear_treg (s : State) (w : Word) : (s.hear w).treg = s.treg := rfl
@[simp] theorem State.hear_tvalid (s : State) (w : Word) : (s.hear w).tvalid = s.tvalid := rfl
@[simp] theorem State.hear_tcount (s : State) (w : Word) : (s.hear w).tcount = s.tcount := rfl
@[simp] theorem State.hear_tlmValue (s : State) (w : Word) : (s.hear w).tlmValue = s.tlmValue := rfl
@[simp] theorem State.hear_tlmRaw (s : State) (w : Word) : (s.hear w).tlmRaw = s.tlmRaw := rfl
@[simp] theorem State.hear_tlmFlags (s : State) (w : Word) : (s.hear w).tlmFlags = s.tlmFlags := rfl
@[simp] theorem State.hear_cacheI (s : State) (w : Word) : (s.hear w).cacheI = s.cacheI := rfl
@[simp] theorem State.hear_civ (s : State) (w : Word) : (s.hear w).civ = s.civ := rfl
@[simp] theorem State.hear_csv (s : State) (w : Word) : (s.hear w).csv = s.csv := rfl
@[simp] theorem State.hear_cslen (s : State) (w : Word) : (s.hear w).cslen = s.cslen := rfl
@[simp] theorem State.hear_curOp (s : State) (w : Word) : (s.hear w).curOp = s.curOp := rfl
@[simp] theorem State.hear_curReg (s : State) (w : Word) : (s.hear w).curReg = s.curReg := rfl
@[simp] theorem State.hear_curPlen (s : State) (w : Word) : (s.hear w).curPlen = s.curPlen := rfl
@[simp] theorem State.hear_timer (s : State) (w : Word) : (s.hear w).timer = s.timer := rfl
@[simp] theorem State.hear_mem (s : State) (w : Word) : (s.hear w).mem = s.mem := rfl
@[simp] theorem State.hear_txchan (s : State) (w : Word) : (s.hear w).txchan = s.txchan := rfl
@[simp] theorem State.hear_rxfifo (s : State) (w : Word) : (s.hear w).rxfifo = s.rxfifo := rfl
@[simp] theorem State.hear_inReset (s : State) (w : Word) : (s.hear w).inReset = s.inReset := rfl
@[simp] theorem State.hear_epoch (s : State) (w : Word) : (s.hear w).epoch = s.epoch := rfl
@[simp] theorem State.hear_hostData (s : State) (w : Word) : (s.hear w).hostData = w := rfl
@[simp] theorem State.hear_agenda (s : State) (w : Word) : (s.hear w).agenda = s.agenda := rfl
@[simp] theorem State.byteAt_hear (s : State) (w : Word) (x : Nat) : (s.hear w).byteAt x = s.byteAt x := rfl
@[simp] theorem State.bytesAt_hear (s : State) (w : Word) (x k : Nat) : (s.hear w).bytesAt x k = s.bytesAt x k := rfl

/-! ### deliver -/

@[simp] theorem State.deliver_ie (s : State) (bs : List Byte) : (s.deliver bs).ie = s.ie := rfl
@[simp] theorem State.deliver_ckord (s : State) (bs : List Byte) : (s.deliver bs).ckord = s.ckord := rfl
@[simp] theorem State.deliver_celloff (s : State) (bs : List Byte) : (s.deliver bs).celloff = s.celloff := rfl
@[simp] theorem State.deliver_busy (s : State) (bs : List Byte) : (s.deliver bs).busy = s.busy := rfl
@[simp] theorem State.deliver_done (s : State) (bs : List Byte) : (s.deliver bs).done = s.done := rfl
@[simp] theorem State.deliver_ovf (s : State) (bs : List Byte) : (s.deliver bs).ovf = s.ovf := rfl
@[simp] theorem State.deliver_err (s : State) (bs : List Byte) : (s.deliver bs).err = s.err := rfl
@[simp] theorem State.deliver_tries (s : State) (bs : List Byte) : (s.deliver bs).tries = s.tries := rfl
@[simp] theorem State.deliver_phase (s : State) (bs : List Byte) : (s.deliver bs).phase = s.phase := rfl
@[simp] theorem State.deliver_cfgLen (s : State) (bs : List Byte) : (s.deliver bs).cfgLen = s.cfgLen := rfl
@[simp] theorem State.deliver_cfgAddr (s : State) (bs : List Byte) : (s.deliver bs).cfgAddr = s.cfgAddr := rfl
@[simp] theorem State.deliver_cfgFcmd (s : State) (bs : List Byte) : (s.deliver bs).cfgFcmd = s.cfgFcmd := rfl
@[simp] theorem State.deliver_timeoutMs (s : State) (bs : List Byte) : (s.deliver bs).timeoutMs = s.timeoutMs := rfl
@[simp] theorem State.deliver_maxTries (s : State) (bs : List Byte) : (s.deliver bs).maxTries = s.maxTries := rfl
@[simp] theorem State.deliver_ckv (s : State) (bs : List Byte) : (s.deliver bs).ckv = s.ckv := rfl
@[simp] theorem State.deliver_txlen (s : State) (bs : List Byte) : (s.deliver bs).txlen = s.txlen := rfl
@[simp] theorem State.deliver_rxlen (s : State) (bs : List Byte) : (s.deliver bs).rxlen = s.rxlen := rfl
@[simp] theorem State.deliver_treg (s : State) (bs : List Byte) : (s.deliver bs).treg = s.treg := rfl
@[simp] theorem State.deliver_tvalid (s : State) (bs : List Byte) : (s.deliver bs).tvalid = s.tvalid := rfl
@[simp] theorem State.deliver_tcount (s : State) (bs : List Byte) : (s.deliver bs).tcount = s.tcount := rfl
@[simp] theorem State.deliver_tlmValue (s : State) (bs : List Byte) : (s.deliver bs).tlmValue = s.tlmValue := rfl
@[simp] theorem State.deliver_tlmRaw (s : State) (bs : List Byte) : (s.deliver bs).tlmRaw = s.tlmRaw := rfl
@[simp] theorem State.deliver_tlmFlags (s : State) (bs : List Byte) : (s.deliver bs).tlmFlags = s.tlmFlags := rfl
@[simp] theorem State.deliver_cacheI (s : State) (bs : List Byte) : (s.deliver bs).cacheI = s.cacheI := rfl
@[simp] theorem State.deliver_civ (s : State) (bs : List Byte) : (s.deliver bs).civ = s.civ := rfl
@[simp] theorem State.deliver_csv (s : State) (bs : List Byte) : (s.deliver bs).csv = s.csv := rfl
@[simp] theorem State.deliver_cslen (s : State) (bs : List Byte) : (s.deliver bs).cslen = s.cslen := rfl
@[simp] theorem State.deliver_curOp (s : State) (bs : List Byte) : (s.deliver bs).curOp = s.curOp := rfl
@[simp] theorem State.deliver_curReg (s : State) (bs : List Byte) : (s.deliver bs).curReg = s.curReg := rfl
@[simp] theorem State.deliver_curPlen (s : State) (bs : List Byte) : (s.deliver bs).curPlen = s.curPlen := rfl
@[simp] theorem State.deliver_timer (s : State) (bs : List Byte) : (s.deliver bs).timer = s.timer := rfl
@[simp] theorem State.deliver_mem (s : State) (bs : List Byte) : (s.deliver bs).mem = s.mem := rfl
@[simp] theorem State.deliver_txchan (s : State) (bs : List Byte) : (s.deliver bs).txchan = s.txchan := rfl
@[simp] theorem State.deliver_rxfifo (s : State) (bs : List Byte) : (s.deliver bs).rxfifo = s.rxfifo ++ bs := rfl
@[simp] theorem State.deliver_inReset (s : State) (bs : List Byte) : (s.deliver bs).inReset = s.inReset := rfl
@[simp] theorem State.deliver_epoch (s : State) (bs : List Byte) : (s.deliver bs).epoch = s.epoch := rfl
@[simp] theorem State.deliver_hostData (s : State) (bs : List Byte) : (s.deliver bs).hostData = s.hostData := rfl
@[simp] theorem State.deliver_agenda (s : State) (bs : List Byte) : (s.deliver bs).agenda = s.agenda := rfl
@[simp] theorem State.byteAt_deliver (s : State) (bs : List Byte) (x : Nat) : (s.deliver bs).byteAt x = s.byteAt x := rfl
@[simp] theorem State.bytesAt_deliver (s : State) (bs : List Byte) (x k : Nat) : (s.deliver bs).bytesAt x k = s.bytesAt x k := rfl

/-! ### consume -/

@[simp] theorem State.consume_ie (s : State) (n : Nat) : (s.consume n).ie = s.ie := rfl
@[simp] theorem State.consume_ckord (s : State) (n : Nat) : (s.consume n).ckord = s.ckord := rfl
@[simp] theorem State.consume_celloff (s : State) (n : Nat) : (s.consume n).celloff = s.celloff := rfl
@[simp] theorem State.consume_busy (s : State) (n : Nat) : (s.consume n).busy = s.busy := rfl
@[simp] theorem State.consume_done (s : State) (n : Nat) : (s.consume n).done = s.done := rfl
@[simp] theorem State.consume_ovf (s : State) (n : Nat) : (s.consume n).ovf = s.ovf := rfl
@[simp] theorem State.consume_err (s : State) (n : Nat) : (s.consume n).err = s.err := rfl
@[simp] theorem State.consume_tries (s : State) (n : Nat) : (s.consume n).tries = s.tries := rfl
@[simp] theorem State.consume_phase (s : State) (n : Nat) : (s.consume n).phase = s.phase := rfl
@[simp] theorem State.consume_cfgLen (s : State) (n : Nat) : (s.consume n).cfgLen = s.cfgLen := rfl
@[simp] theorem State.consume_cfgAddr (s : State) (n : Nat) : (s.consume n).cfgAddr = s.cfgAddr := rfl
@[simp] theorem State.consume_cfgFcmd (s : State) (n : Nat) : (s.consume n).cfgFcmd = s.cfgFcmd := rfl
@[simp] theorem State.consume_timeoutMs (s : State) (n : Nat) : (s.consume n).timeoutMs = s.timeoutMs := rfl
@[simp] theorem State.consume_maxTries (s : State) (n : Nat) : (s.consume n).maxTries = s.maxTries := rfl
@[simp] theorem State.consume_ckv (s : State) (n : Nat) : (s.consume n).ckv = s.ckv := rfl
@[simp] theorem State.consume_txlen (s : State) (n : Nat) : (s.consume n).txlen = s.txlen := rfl
@[simp] theorem State.consume_rxlen (s : State) (n : Nat) : (s.consume n).rxlen = s.rxlen := rfl
@[simp] theorem State.consume_treg (s : State) (n : Nat) : (s.consume n).treg = s.treg := rfl
@[simp] theorem State.consume_tvalid (s : State) (n : Nat) : (s.consume n).tvalid = s.tvalid := rfl
@[simp] theorem State.consume_tcount (s : State) (n : Nat) : (s.consume n).tcount = s.tcount := rfl
@[simp] theorem State.consume_tlmValue (s : State) (n : Nat) : (s.consume n).tlmValue = s.tlmValue := rfl
@[simp] theorem State.consume_tlmRaw (s : State) (n : Nat) : (s.consume n).tlmRaw = s.tlmRaw := rfl
@[simp] theorem State.consume_tlmFlags (s : State) (n : Nat) : (s.consume n).tlmFlags = s.tlmFlags := rfl
@[simp] theorem State.consume_cacheI (s : State) (n : Nat) : (s.consume n).cacheI = s.cacheI := rfl
@[simp] theorem State.consume_civ (s : State) (n : Nat) : (s.consume n).civ = s.civ := rfl
@[simp] theorem State.consume_csv (s : State) (n : Nat) : (s.consume n).csv = s.csv := rfl
@[simp] theorem State.consume_cslen (s : State) (n : Nat) : (s.consume n).cslen = s.cslen := rfl
@[simp] theorem State.consume_curOp (s : State) (n : Nat) : (s.consume n).curOp = s.curOp := rfl
@[simp] theorem State.consume_curReg (s : State) (n : Nat) : (s.consume n).curReg = s.curReg := rfl
@[simp] theorem State.consume_curPlen (s : State) (n : Nat) : (s.consume n).curPlen = s.curPlen := rfl
@[simp] theorem State.consume_timer (s : State) (n : Nat) : (s.consume n).timer = s.timer := rfl
@[simp] theorem State.consume_mem (s : State) (n : Nat) : (s.consume n).mem = s.mem := rfl
@[simp] theorem State.consume_txchan (s : State) (n : Nat) : (s.consume n).txchan = s.txchan.drop n := rfl
@[simp] theorem State.consume_rxfifo (s : State) (n : Nat) : (s.consume n).rxfifo = s.rxfifo := rfl
@[simp] theorem State.consume_inReset (s : State) (n : Nat) : (s.consume n).inReset = s.inReset := rfl
@[simp] theorem State.consume_epoch (s : State) (n : Nat) : (s.consume n).epoch = s.epoch := rfl
@[simp] theorem State.consume_hostData (s : State) (n : Nat) : (s.consume n).hostData = s.hostData := rfl
@[simp] theorem State.consume_agenda (s : State) (n : Nat) : (s.consume n).agenda = s.agenda := rfl
@[simp] theorem State.byteAt_consume (s : State) (n : Nat) (x : Nat) : (s.consume n).byteAt x = s.byteAt x := rfl
@[simp] theorem State.bytesAt_consume (s : State) (n : Nat) (x k : Nat) : (s.consume n).bytesAt x k = s.bytesAt x k := rfl

/-! ### assertReset -/

@[simp] theorem State.assertReset_ie (s : State) : s.assertReset.ie = false := rfl
@[simp] theorem State.assertReset_ckord (s : State) : s.assertReset.ckord = false := rfl
@[simp] theorem State.assertReset_celloff (s : State) : s.assertReset.celloff = false := rfl
@[simp] theorem State.assertReset_busy (s : State) : s.assertReset.busy = false := rfl
@[simp] theorem State.assertReset_done (s : State) : s.assertReset.done = false := rfl
@[simp] theorem State.assertReset_ovf (s : State) : s.assertReset.ovf = false := rfl
@[simp] theorem State.assertReset_err (s : State) : s.assertReset.err = .none := rfl
@[simp] theorem State.assertReset_tries (s : State) : s.assertReset.tries = 0 := rfl
@[simp] theorem State.assertReset_phase (s : State) : s.assertReset.phase = .idle := rfl
@[simp] theorem State.assertReset_cfgLen (s : State) : s.assertReset.cfgLen = 0x03 := rfl
@[simp] theorem State.assertReset_cfgAddr (s : State) : s.assertReset.cfgAddr = 0x22 := rfl
@[simp] theorem State.assertReset_cfgFcmd (s : State) : s.assertReset.cfgFcmd = 0x01 := rfl
@[simp] theorem State.assertReset_timeoutMs (s : State) : s.assertReset.timeoutMs = 250 := rfl
@[simp] theorem State.assertReset_maxTries (s : State) : s.assertReset.maxTries = 20 := rfl
@[simp] theorem State.assertReset_ckv (s : State) : s.assertReset.ckv = 0 := rfl
@[simp] theorem State.assertReset_txlen (s : State) : s.assertReset.txlen = 0 := rfl
@[simp] theorem State.assertReset_rxlen (s : State) : s.assertReset.rxlen = 0 := rfl
@[simp] theorem State.assertReset_treg (s : State) : s.assertReset.treg = 0 := rfl
@[simp] theorem State.assertReset_tvalid (s : State) : s.assertReset.tvalid = false := rfl
@[simp] theorem State.assertReset_tcount (s : State) : s.assertReset.tcount = 0 := rfl
@[simp] theorem State.assertReset_tlmValue (s : State) : s.assertReset.tlmValue = 0 := rfl
@[simp] theorem State.assertReset_tlmRaw (s : State) : s.assertReset.tlmRaw = 0 := rfl
@[simp] theorem State.assertReset_tlmFlags (s : State) : s.assertReset.tlmFlags = 0 := rfl
@[simp] theorem State.assertReset_cacheI (s : State) : s.assertReset.cacheI = 0 := rfl
@[simp] theorem State.assertReset_civ (s : State) : s.assertReset.civ = false := rfl
@[simp] theorem State.assertReset_csv (s : State) : s.assertReset.csv = false := rfl
@[simp] theorem State.assertReset_cslen (s : State) : s.assertReset.cslen = 0 := rfl
@[simp] theorem State.assertReset_curOp (s : State) : s.assertReset.curOp = .none := rfl
@[simp] theorem State.assertReset_curReg (s : State) : s.assertReset.curReg = 0 := rfl
@[simp] theorem State.assertReset_curPlen (s : State) : s.assertReset.curPlen = 0 := rfl
@[simp] theorem State.assertReset_timer (s : State) : s.assertReset.timer = .stopped := rfl
@[simp] theorem State.assertReset_mem (s : State) : s.assertReset.mem = [] := rfl
@[simp] theorem State.assertReset_txchan (s : State) : s.assertReset.txchan = s.txchan := rfl
@[simp] theorem State.assertReset_rxfifo (s : State) : s.assertReset.rxfifo = s.rxfifo := rfl
@[simp] theorem State.assertReset_inReset (s : State) : s.assertReset.inReset = true := rfl
@[simp] theorem State.assertReset_epoch (s : State) : s.assertReset.epoch = s.epoch + 1 := rfl
@[simp] theorem State.assertReset_hostData (s : State) : s.assertReset.hostData = s.hostData := rfl
@[simp] theorem State.assertReset_agenda (s : State) : s.assertReset.agenda = s.agenda := rfl

end Sys2Proof.Machine
end

