-- ==== Sys2Proof/Laws/Step.lean ====
section
/-! SUPPORT. Laws/Step.lean: a step by its event, and an operation's meaning at its own step. -/

namespace Sys2Proof.Machine

theorem step_cons {s : State} {e : Event} {rest : List Event} (h : s.agenda = e :: rest) :
    step s = move e (s.withAgenda rest) := by
  simp only [step, h]

theorem step_nil {s : State} (h : s.agenda = []) : step s = unlessReset fairMove s := by
  simp only [step, h]

theorem unlessReset_live {s : State} (h : s.inReset = false) (f : State → Outcome) : unlessReset f s = f s := by
  simp only [unlessReset, h, Bool.false_eq_true, if_false]

theorem unlessReset_held {s : State} (h : s.inReset = true) (f : State → Outcome) : unlessReset f s = .next s := by
  simp only [unlessReset, h, if_true]

/-- A host write that is performed, by BUSY and offset. -/
theorem hostWriteMove_ok {s : State} {off : Offset} {v : Word} (h : off.toNat % 4 = 0) :
    hostWriteMove off 4 v s =
      if s.busy then .next (s.memWriteBusy off v)
      else if regionAt off = .cmd then exec (decodeCmd v) s
      else .next (s.memWriteIdle off v) := by
  simp only [hostWriteMove, accessOk, h, decide_true, Bool.and_self, if_true]

theorem hostReadMove_ok {s : State} {off : Offset} (h : off.toNat % 4 = 0) :
    hostReadMove off 4 s = .next (s.hear (s.memRead off)) := by
  simp only [hostReadMove, accessOk, h, decide_true, Bool.and_self, if_true]

/-- An access that is not performed. -/
theorem accessOk_false {off : Offset} {width : Nat} (h : width ≠ 4 ∨ off.toNat % 4 ≠ 0) :
    accessOk off width = false := by
  rcases h with h | h <;> simp [accessOk, h]

theorem engineMove_idle {s : State} (h : s.busy = false) : engineMove s = .next s := by
  simp only [engineMove, h, Bool.false_eq_true, if_false]

theorem engineMove_busy {s : State} {i : Instr} (h : s.busy = true) (hi : s.current = some i) :
    engineMove s = exec i s := by
  simp only [engineMove, h, if_true, hi]

@[simp] theorem State.current_withAgenda (s : State) (es : List Event) : (s.withAgenda es).current = s.current := rfl

@[simp] theorem State.current_hear (s : State) (w : Word) : (s.hear w).current = s.current := rfl

/-- A command's meaning at a step of the operation in progress is its engine step. -/
theorem command_inProgress {op : Op} {s : State} (hb : s.busy = true) (ho : s.curOp = op) (r p : Byte)
    (f : State → Outcome) : command op r p f s = f s := by
  simp only [command, hb, ho, if_true]

/-- While idle a command is accepted. -/
theorem command_idle {s : State} (hb : s.busy = false) (op : Op) (r p : Byte) (f : State → Outcome) :
    command op r p f s = .next (s.accept op r p) := by
  simp only [command, hb, Bool.false_eq_true, if_false]

/-- The dispatch by response byte 5 runs the instruction that byte decodes to. -/
theorem runDecoder_eq_exec (c : Byte) (s : State) : runDecoder c s = exec (decodeRegCode c) s := by
  unfold runDecoder
  split
  iterate 11 rfl
  rename_i h18 h17 h19 h30 h31 h32 h33 h34 h3B h40 h10
  have h : decodeRegCode c = .decNone c := by
    unfold decodeRegCode
    split <;> first | rfl | contradiction
  rw [h]
  rfl

/-- The frame passes the validation. -/
theorem frameError_eq_none {s : State} (h1 : 6 ≤ s.rxlen.val) (h2 : verify s.ckord s.rxFrame = true)
    (h3 : s.rxByte 5 = s.curReg) : s.frameError = none := by
  unfold State.frameError
  rw [if_neg (by omega), if_neg (by simp [h2]), if_neg (by omega), if_neg (by simp [h3])]

end Sys2Proof.Machine
end

