-- ==== Sys2Proof/Laws/Exec.lean ====
section
/-! SUPPORT. Laws/Exec.lean: the meaning of each command while idle and at each of its engine steps. -/

namespace Sys2Proof.Machine

section idle
variable {s : State} (hb : s.busy = false) (r p : Byte)
include hb

theorem exec_ckcomp_idle : exec (.ckcomp r p) s = .next (s.accept .ckcomp r p) := by
  rw [exec, execCkcomp, command_idle hb]
theorem exec_ckver_idle : exec (.ckver r p) s = .next (s.accept .ckver r p) := by
  rw [exec, execCkver, command_idle hb]
theorem exec_encode_idle : exec (.encode r p) s = .next (s.accept .encode r p) := by
  rw [exec, execEncode, command_idle hb]
theorem exec_xact_idle : exec (.xact r p) s = .next (s.accept .xact r p) := by
  rw [exec, execXact, command_idle hb]
theorem exec_decode_idle : exec (.decode r p) s = .next (s.accept .decode r p) := by
  rw [exec, execDecode, command_idle hb]
theorem exec_query_idle : exec (.query r p) s = .next (s.accept .query r p) := by
  rw [exec, execQuery, command_idle hb]

theorem exec_illegal_idle (w : Word) : exec (.illegal w) s = .next s.rejectIllegal := by
  simp only [exec, execIllegal, hb, Bool.false_eq_true, if_false]

end idle

section engine
variable {s : State} (hb : s.busy = true) (r p : Byte)
include hb

theorem exec_ckcomp_step (ho : s.curOp = .ckcomp) (hp : s.phase = .ckcomp) :
    exec (.ckcomp r p) s = .next s.ckcompStep := by
  rw [exec, execCkcomp, command_inProgress hb ho]; simp only [hp]

theorem exec_ckver_step (ho : s.curOp = .ckver) (hp : s.phase = .ckver) :
    exec (.ckver r p) s = .next s.ckverStep := by
  rw [exec, execCkver, command_inProgress hb ho]; simp only [hp]

theorem exec_encode_step (ho : s.curOp = .encode) (hp : s.phase = .encode) :
    exec (.encode r p) s = .next s.encodeStep := by
  rw [exec, execEncode, command_inProgress hb ho]; simp only [hp]

theorem exec_xact_send (ho : s.curOp = .xact) (hp : s.phase = .send) :
    exec (.xact r p) s = .next s.sendStep := by
  rw [exec, execXact, command_inProgress hb ho]; simp only [hp]

theorem exec_xact_wait (ho : s.curOp = .xact) (hp : s.phase = .wait) :
    exec (.xact r p) s = .next s.waitStep := by
  rw [exec, execXact, command_inProgress hb ho]; simp only [hp]

theorem exec_decode_step (ho : s.curOp = .decode) (hp : s.phase = .decode) :
    exec (.decode r p) s = s.decodeStep := by
  rw [exec, execDecode, command_inProgress hb ho]; simp only [hp]

theorem exec_query_encode (ho : s.curOp = .query) (hp : s.phase = .encode) :
    exec (.query r p) s = .next s.encodeStep := by
  rw [exec, execQuery, command_inProgress hb ho]; simp only [hp]

theorem exec_query_send (ho : s.curOp = .query) (hp : s.phase = .send) :
    exec (.query r p) s = .next s.sendStep := by
  rw [exec, execQuery, command_inProgress hb ho]; simp only [hp]

theorem exec_query_wait (ho : s.curOp = .query) (hp : s.phase = .wait) :
    exec (.query r p) s = .next s.waitStep := by
  rw [exec, execQuery, command_inProgress hb ho]; simp only [hp]

theorem exec_query_decode (ho : s.curOp = .query) (hp : s.phase = .decode) :
    exec (.query r p) s = s.decodeStep := by
  rw [exec, execQuery, command_inProgress hb ho]; simp only [hp]

end engine

/-- The DECODE step on a frame that fails the validation. -/
theorem decodeStep_error {s : State} {e : Cause} (h : s.frameError = some e) :
    s.decodeStep = .next (s.clearTlm.complete e) := by
  simp only [State.decodeStep, h]

/-- The DECODE step on a frame that passes runs the instruction that byte 5 decodes to. -/
theorem decodeStep_ok {s : State} (h : s.frameError = none) :
    s.decodeStep = exec (decodeRegCode (s.rxByte 5)) s.atDispatch := by
  simp only [State.decodeStep, h, runDecoder_eq_exec]

/-- A decoder always goes on. -/
theorem exec_decoder_next (c : Byte) (s : State) : ∃ t, exec (decodeRegCode c) s = .next t := by
  unfold decodeRegCode
  split <;> exact ⟨_, rfl⟩

end Sys2Proof.Machine
end

