-- ==== Sys2Proof/Laws/Bus.lean ====
section
/-! SUPPORT. Laws/Bus.lean: the register map by ranges, the numbers the words stand for, and a host access as a step. -/

namespace Sys2Proof.Machine

theorem toNat_append_add {m n : Nat} (x : BitVec m) (y : BitVec n) :
    (x ++ y).toNat = x.toNat * 2 ^ n + y.toNat := by
  rw [BitVec.toNat_append, ← Nat.shiftLeft_add_eq_or_of_lt y.isLt, Nat.shiftLeft_eq]

theorem toNat_ofBool_eq (b : Bool) : (BitVec.ofBool b).toNat = b.toNat := by cases b <;> rfl

theorem toNat_le16 (a b : Byte) : (le16 a b).toNat = a.toNat + 0x100 * b.toNat := by
  simp only [le16, toNat_append_add]; omega

theorem toNat_le32 (a b c d : Byte) :
    (le32 a b c d).toNat = a.toNat + 0x100 * b.toNat + 0x10000 * c.toNat + 0x1000000 * d.toNat := by
  simp only [le32, toNat_append_add]; omega

/-- The bytes of a word put together from bytes. -/
theorem wordBytes_le32 (a b c d : Byte) : wordBytes (le32 a b c d) = [a, b, c, d] := by
  simp only [wordBytes, le32, List.cons.injEq, and_true]
  refine ⟨?_, ?_, ?_, ?_⟩ <;> apply BitVec.eq_of_getLsbD_eq <;> intro i hi <;>
    simp only [BitVec.getLsbD_append, BitVec.getLsbD_extractLsb'] <;> interval_cases i <;> simp

/-! ## The map (20_memory.md R71) -/

section region
variable {off : Offset}

theorem regionAt_txbuf (h1 : 0x100 ≤ off.toNat) (h2 : off.toNat < 0x200) : regionAt off = .txbuf := by
  unfold regionAt
  simp only
  iterate 15 rw [if_neg (by omega)]
  rw [if_pos h2]

theorem regionAt_rxbuf (h1 : 0x200 ≤ off.toNat) (h2 : off.toNat < 0x300) : regionAt off = .rxbuf := by
  unfold regionAt
  simp only
  iterate 16 rw [if_neg (by omega)]
  rw [if_pos h2]

theorem regionAt_tlmElem (h1 : 0x300 ≤ off.toNat) (h2 : off.toNat < 0x4F0) : regionAt off = .tlmElem := by
  unfold regionAt
  simp only
  iterate 17 rw [if_neg (by omega)]
  rw [if_pos h2]

theorem regionAt_cacheSn (h1 : 0x500 ≤ off.toNat) (h2 : off.toNat < 0x5F8) : regionAt off = .cacheSn := by
  unfold regionAt
  simp only
  iterate 19 rw [if_neg (by omega)]
  rw [if_pos h2]

theorem regionAt_reserved
    (h : 0x038 ≤ off.toNat ∧ off.toNat < 0x100 ∨ 0x4F0 ≤ off.toNat ∧ off.toNat < 0x500 ∨ 0x5F8 ≤ off.toNat) :
    regionAt off = .reserved := by
  unfold regionAt
  simp only
  iterate 14 rw [if_neg (by omega)]
  rcases h with h | h | h
  · rw [if_pos h.2]
  · iterate 4 rw [if_neg (by omega)]
    rw [if_pos (by omega)]
  · iterate 6 rw [if_neg (by omega)]

/-- A register's offset is that number. -/
theorem regionAt_of_toNat {n : Nat} (h : off.toNat = n) : regionAt off = regionAt (BitVec.ofNat 12 n) := by
  subst h; simp

/-- Every buffer is read as four bytes. -/
theorem memRead_buffer (s : State)
    (h : 0x100 ≤ off.toNat ∧ off.toNat < 0x4F0 ∨ 0x500 ≤ off.toNat ∧ off.toNat < 0x5F8) :
    s.memRead off = s.bufferWord off.toNat := by
  have : regionAt off = .txbuf ∨ regionAt off = .rxbuf ∨ regionAt off = .tlmElem ∨ regionAt off = .cacheSn := by
    rcases h with h | h
    · by_cases h1 : off.toNat < 0x200
      · exact .inl (regionAt_txbuf h.1 h1)
      · by_cases h2 : off.toNat < 0x300
        · exact .inr (.inl (regionAt_rxbuf (by omega) h2))
        · exact .inr (.inr (.inl (regionAt_tlmElem (by omega) h.2)))
    · exact .inr (.inr (.inr (regionAt_cacheSn h.1 h.2)))
  rcases this with h | h | h | h <;> simp only [State.memRead, h]

/-- The read-only places of the map. -/
theorem regionAt_readOnly (h4 : off.toNat % 4 = 0)
    (h : off.toNat = 0x014 ∨ 0x020 ≤ off.toNat ∧ off.toNat ≤ 0x034 ∨ 0x300 ≤ off.toNat ∧ off.toNat < 0x4F0 ∨
      0x500 ≤ off.toNat ∧ off.toNat < 0x5F8) :
    regionAt off ∈ [Region.cksum, .tlmInfo, .tlmValue, .tlmRaw, .tlmFlags, .cacheI, .cacheInfo, .tlmElem,
      .cacheSn] := by
  rcases h with h | h | h | h
  · rw [regionAt_of_toNat h]; decide
  · have : off.toNat = 0x20 ∨ off.toNat = 0x24 ∨ off.toNat = 0x28 ∨ off.toNat = 0x2C ∨ off.toNat = 0x30 ∨
      off.toNat = 0x34 := by omega
    rcases this with h | h | h | h | h | h <;> rw [regionAt_of_toNat h] <;> decide
  · rw [regionAt_tlmElem h.1 h.2]; decide
  · rw [regionAt_cacheSn h.1 h.2]; decide

/-- The places a write to which is dropped while BUSY = 1. -/
theorem regionAt_writable
    (h : off.toNat ∈ [0x000, 0x008, 0x00C, 0x010, 0x018, 0x01C] ∨ 0x100 ≤ off.toNat ∧ off.toNat < 0x300) :
    regionAt off ∈ [Region.ctrl, .cmd, .framecfg, .timing, .txlen, .rxlen, .txbuf, .rxbuf] := by
  rcases h with h | h
  · simp only [List.mem_cons, List.not_mem_nil, or_false] at h
    rcases h with h | h | h | h | h | h <;> rw [regionAt_of_toNat h] <;> decide
  · by_cases h1 : off.toNat < 0x200
    · rw [regionAt_txbuf h.1 h1]; decide
    · rw [regionAt_rxbuf (by omega) h.2]; decide

/-- The offsets of TXBUF and RXBUF. -/
theorem range_of_regionAt (h : regionAt off = .txbuf ∨ regionAt off = .rxbuf) :
    0x100 ≤ off.toNat ∧ off.toNat < 0x300 := by
  by_contra hc
  have hlow : ∀ n, n < 0x38 → regionAt (BitVec.ofNat 12 n) ≠ .txbuf ∧ regionAt (BitVec.ofNat 12 n) ≠ .rxbuf := by
    decide
  by_cases h1 : off.toNat < 0x38
  · have := hlow _ h1
    rw [← regionAt_of_toNat rfl] at this
    rcases h with h | h
    · exact this.1 h
    · exact this.2 h
  · by_cases h2 : 0x300 ≤ off.toNat ∧ off.toNat < 0x4F0
    · rw [regionAt_tlmElem h2.1 h2.2] at h
      simp at h
    · by_cases h3 : 0x500 ≤ off.toNat ∧ off.toNat < 0x5F8
      · rw [regionAt_cacheSn h3.1 h3.2] at h
        simp at h
      · rw [regionAt_reserved (by omega)] at h
        simp at h

end region

/-! ## A host access as a step -/

theorem step_hostWrite {s : State} {off : Offset} {v : Word} {rest : List Event}
    (h : s.agenda = .hostWrite off 4 v :: rest) (hr : s.inReset = false) (h4 : off.toNat % 4 = 0) :
    step s =
      if s.busy then .next ((s.withAgenda rest).memWriteBusy off v)
      else if regionAt off = .cmd then exec (decodeCmd v) (s.withAgenda rest)
      else .next ((s.withAgenda rest).memWriteIdle off v) := by
  rw [step_cons h]
  show unlessReset _ _ = _
  rw [unlessReset_live (by simpa using hr), hostWriteMove_ok h4]
  rfl

theorem step_hostRead {s : State} {off : Offset} {rest : List Event}
    (h : s.agenda = .hostRead off 4 :: rest) (hr : s.inReset = false) (h4 : off.toNat % 4 = 0) :
    step s = .next ((s.withAgenda rest).hear (s.memRead off)) := by
  rw [step_cons h]
  show unlessReset _ _ = _
  rw [unlessReset_live (by simpa using hr), hostReadMove_ok h4]
  rfl

theorem step_engine {s : State} {rest : List Event} (h : s.agenda = .engine :: rest) (hr : s.inReset = false) :
    step s = engineMove (s.withAgenda rest) := by
  rw [step_cons h]
  exact unlessReset_live (s := s.withAgenda rest) hr _

theorem step_deadline {s : State} {rest : List Event} (h : s.agenda = .deadline :: rest) (hr : s.inReset = false) :
    step s = deadlineMove (s.withAgenda rest) := by
  rw [step_cons h]
  exact unlessReset_live (s := s.withAgenda rest) hr _

end Sys2Proof.Machine
end

