-- ==== Sys2Proof/Laws/Checksum.lean ====
section
/-! SUPPORT. Laws/Checksum.lean: the checksum functions on a frame written as prefix, covered bytes and trailing pair. -/

namespace Sys2Proof.Machine

@[simp] theorem le16_lo_hi (v : Half) : le16 (loByte v) (hiByte v) = v := by
  apply BitVec.eq_of_getLsbD_eq
  intro i hi
  simp only [le16, loByte, hiByte, BitVec.getLsbD_append, BitVec.getLsbD_extractLsb']
  interval_cases i <;> simp

@[simp] theorem length_emit (c : Bool) (v : Half) : (emit c v).length = 2 := by
  cases c <;> rfl

/-- The pair a frame ends in, put together by CKORD. -/
theorem recv_append (c : Bool) (b : List Byte) (y z : Byte) :
    recv c (b ++ [y, z]) = if c then le16 y z else le16 z y := by
  have h1 : (b ++ [y, z]).getD ((b ++ [y, z]).length - 2) 0 = y := by simp
  have h2 : (b ++ [y, z]).getD ((b ++ [y, z]).length - 1) 0 = z := by simp
  simp only [recv, h1, h2]

@[simp] theorem covered_frame (m0 m1 y z : Byte) (S : List Byte) :
    covered (m0 :: m1 :: (S ++ [y, z])) = S := by
  simp [covered]

/-- `verify` on a frame given by its parts. -/
theorem verify_frame (c : Bool) (m0 m1 y z : Byte) (S : List Byte) :
    verify c (m0 :: m1 :: (S ++ [y, z])) = decide (ck16 S = if c then le16 y z else le16 z y) := by
  have := recv_append c (m0 :: m1 :: S) y z
  simp only [List.cons_append] at this
  simp [verify, covered_frame, this]

/-- Every frame of at least four bytes is a prefix pair, covered bytes and a trailing pair. -/
theorem exists_parts (F : List Byte) (h : 4 ≤ F.length) :
    ∃ m0 m1 S y z, F = m0 :: m1 :: (S ++ [y, z]) ∧ S.length + 4 = F.length := by
  match F, h with
  | m0 :: m1 :: rest, h =>
    have hr : 2 ≤ rest.length := by simpa using h
    have h2 : (rest.drop (rest.length - 2)).length = 2 := by simp; omega
    match hd : rest.drop (rest.length - 2), h2 with
    | [y, z], _ =>
      refine ⟨m0, m1, rest.take (rest.length - 2), y, z, ?_, ?_⟩
      · rw [← hd, List.take_append_drop]
      · simp; omega

theorem sum16_append (S T : List Byte) : sum16 (S ++ T) = sum16 S + sum16 T := by
  induction S with
  | nil => simp [sum16]
  | cons b S ih => simp [sum16, ih, BitVec.add_assoc]

end Sys2Proof.Machine
end

