-- ==== Sys2Proof/Laws/Decode.lean ====
section
/-! SUPPORT. Laws/Decode.lean: the fields of a command word, as bits and as numbers, and the decoder by its cases. -/

namespace Sys2Proof

/-- The fields of a word built from its fields. -/
theorem fields_cmdWord (op : BitVec 4) (r p : Byte) :
    opField (cmdWord op r p) = op ∧ rsv0Field (cmdWord op r p) = 0 ∧ regField (cmdWord op r p) = r ∧
      plenField (cmdWord op r p) = p ∧ rsv1Field (cmdWord op r p) = 0 := by
  refine ⟨?_, ?_, ?_, ?_, ?_⟩ <;> ext i hi <;>
    simp only [opField, rsv0Field, regField, plenField, rsv1Field, cmdWord, BitVec.getElem_extractLsb',
      BitVec.getLsbD_append] <;>
    interval_cases i <;> simp

/-- A word whose reserved fields are 0 is the word of its fields. -/
theorem cmdWord_fields (w : Word) (h0 : rsv0Field w = 0) (h1 : rsv1Field w = 0) :
    cmdWord (opField w) (regField w) (plenField w) = w := by
  have h : w = rsv1Field w ++ plenField w ++ regField w ++ rsv0Field w ++ opField w := by
    apply BitVec.eq_of_getLsbD_eq
    intro i hi
    simp only [opField, rsv0Field, regField, plenField, rsv1Field, BitVec.getLsbD_append,
      BitVec.getLsbD_extractLsb']
    interval_cases i <;> simp
  conv_rhs => rw [h, h0, h1]
  rfl

/-- The fields as numbers. -/
theorem toNat_fields (w : Word) :
    (opField w).toNat = w.toNat % 16 ∧ (rsv0Field w).toNat = w.toNat / 16 % 16 ∧
      (regField w).toNat = w.toNat / 256 % 256 ∧ (plenField w).toNat = w.toNat / 65536 % 256 ∧
      (rsv1Field w).toNat = w.toNat / 16777216 := by
  have := w.isLt
  simp [opField, rsv0Field, rsv1Field, regField, plenField, Nat.shiftRight_eq_div_pow]
  omega

/-- A 4-bit field is 0 exactly when it is 0 as a number, and so for the 8-bit one. -/
theorem reserved_zero_iff (w : Word) :
    (rsv0Field w = 0 ↔ w.toNat / 16 % 16 = 0) ∧ (rsv1Field w = 0 ↔ w.toNat / 16777216 = 0) := by
  obtain ⟨_, h0, _, _, h1⟩ := toNat_fields w
  exact ⟨by rw [← BitVec.toNat_inj, h0]; rfl, by rw [← BitVec.toNat_inj, h1]; rfl⟩

/-- The decoder of a word with reserved fields 0, by its OP. -/
theorem decodeCmd_of_reserved_zero {w : Word} (h0 : rsv0Field w = 0) (h1 : rsv1Field w = 0) :
    (w.toNat % 16 = 1 → decodeCmd w = .ckcomp (regField w) (plenField w)) ∧
    (w.toNat % 16 = 2 → decodeCmd w = .ckver (regField w) (plenField w)) ∧
    (w.toNat % 16 = 3 → decodeCmd w = .encode (regField w) (plenField w)) ∧
    (w.toNat % 16 = 4 → decodeCmd w = .xact (regField w) (plenField w)) ∧
    (w.toNat % 16 = 5 → decodeCmd w = .decode (regField w) (plenField w)) ∧
    (w.toNat % 16 = 6 → decodeCmd w = .query (regField w) (plenField w)) ∧
    (w.toNat % 16 = 0 ∨ 7 ≤ w.toNat % 16 → decodeCmd w = .illegal w) := by
  have hop := (toNat_fields w).1
  have key : ∀ n, w.toNat % 16 = n → opField w = BitVec.ofNat 4 n := by
    intro n hn
    apply BitVec.eq_of_toNat_eq
    rw [hop, hn, BitVec.toNat_ofNat]
    omega
  unfold decodeCmd
  rw [if_neg (by simp [h0, h1])]
  refine ⟨?_, ?_, ?_, ?_, ?_, ?_, ?_⟩
  iterate 6 (intro h; rw [key _ h]; rfl)
  intro h
  split <;> rename_i ho <;> first
    | rfl
    | (exfalso; rw [← BitVec.toNat_inj, hop] at ho; simp at ho; omega)

/-- The decoder of a word with a reserved field that is not 0. -/
theorem decodeCmd_of_reserved {w : Word} (h : rsv0Field w ≠ 0 ∨ rsv1Field w ≠ 0) : decodeCmd w = .illegal w :=
  if_pos h

/-- The decoder on a word built from its fields. -/
theorem decodeCmd_cmdWord (r p : Byte) :
    decodeCmd (cmdWord 0x1 r p) = .ckcomp r p ∧ decodeCmd (cmdWord 0x2 r p) = .ckver r p ∧
    decodeCmd (cmdWord 0x3 r p) = .encode r p ∧ decodeCmd (cmdWord 0x4 r p) = .xact r p ∧
    decodeCmd (cmdWord 0x5 r p) = .decode r p ∧ decodeCmd (cmdWord 0x6 r p) = .query r p := by
  refine ⟨?_, ?_, ?_, ?_, ?_, ?_⟩ <;> simp [decodeCmd, fields_cmdWord]

end Sys2Proof
end

