-- ==== Sys2Proof/Laws/Decoders.lean ====
section
/-! SUPPORT. Laws/Decoders.lean: the values of the register decoders, and once everything a decoder can do. -/

namespace Sys2Proof.Machine

/-! ## Values -/

theorem toNat_zext32 (x : Half) : (zext32 x).toNat = x.toNat := by
  simp [zext32]; omega

theorem toNat_zext32_mul_ten (x : Half) : (zext32 x * 10).toNat = 10 * x.toNat := by
  rw [BitVec.toNat_mul, toNat_zext32]
  have := x.isLt
  simp
  omega

theorem toInt_sext32_mul_ten (x : Half) : (sext32 x * 10).toInt = 10 * x.toInt := by
  rw [BitVec.toInt_mul, sext32, BitVec.toInt_signExtend_of_le (by decide)]
  have h1 := BitVec.toInt_lt (x := x)
  have h2 := BitVec.le_toInt (x := x)
  rw [Int.bmod_def]
  simp at *
  omega

theorem toNat_rxField_six (s : State) :
    (s.rxField 6).toNat = (s.byteAt 0x206).toNat + 0x100 * (s.byteAt 0x207).toNat :=
  toNat_le16 _ _

/-- A short scalar leaves a completion with TRUNCATED and writes nothing else. -/
theorem State.shortScalar_eq (s : State) : s.shortScalar = { s with
    err := .truncated, phase := .idle, busy := false, done := true, curOp := .none } := rfl

theorem State.scalarDecode_ge {s : State} (h : 10 ≤ s.rxlen.val) (own : Half → State → State) :
    s.scalarDecode own =
      (own (s.rxField 6) { s with tlmRaw := s.rxField 6, tvalid := true, tcount := 0 }).complete .none := by
  unfold State.scalarDecode
  rw [if_neg (by omega)]

theorem State.scalarDecode_lt {s : State} (h : s.rxlen.val < 10) (own : Half → State → State) :
    s.scalarDecode own = s.shortScalar := by
  unfold State.scalarDecode
  rw [if_pos h]

/-- The elements a block of elements reads back as. -/
theorem State.elem_of_store (s t : State) (es : List Half) (k : Nat) (hk : k < es.length)
    (hm : ∀ a, 0x300 ≤ a → a < 0x300 + 2 * es.length → t.byteAt a = (s.store elemBase (elemBytes es)).byteAt a) :
    t.elem k = es[k] := by
  obtain ⟨h1, h2⟩ := getElem_elemBytes es k hk
  have hl := length_elemBytes es
  unfold State.elem
  rw [hm _ (by simp [elemBase]) (by simp [elemBase]; omega), hm _ (by simp [elemBase]; omega)
    (by simp [elemBase]; omega), State.byteAt_store_inside _ _ _ _ (by omega), Nat.add_assoc,
    State.byteAt_store_inside _ _ _ _ (by omega), h1, h2]
  exact le16_lo_hi _

/-! ## Sizes -/

theorem State.cellStart_eq (s : State) : s.cellStart = 6 ∨ s.cellStart = 7 := by
  unfold State.cellStart
  split <;> simp

theorem State.length_cells (s : State) : s.cells.length = (s.rxlen.val - 2 - s.cellStart) / 2 := by
  simp [State.cells, cellCount]

theorem State.length_cells_le (s : State) : s.cells.length ≤ 124 := by
  rw [State.length_cells]
  have := s.rxlen.isLt
  rcases s.cellStart_eq with h | h <;> rw [h] <;> omega

theorem State.length_serial (s : State) : s.serial.length = s.rxlen.val - 8 := by
  simp [State.serial]

theorem State.length_serial_le (s : State) : s.serial.length ≤ 248 := by
  rw [State.length_serial]
  have := s.rxlen.isLt
  omega

/-- An offset inside TLM_ELEM or CACHE_SN is a buffer offset. -/
theorem isBufferOffset_elem {a : Nat} (h : 0x300 ≤ a ∧ a < 0x4F0 ∨ 0x500 ≤ a ∧ a < 0x5F8) :
    isBufferOffset a = true :=
  (isBufferOffset_iff a).mpr (by omega)

/-! ## Everything a decoder can do -/

/-- What a decoder run on `a` may leave: the fields it writes, and the memory it writes. -/
structure DecoderEffect (a t : State) : Prop where
  frame : t = { a with
    tvalid := t.tvalid, tcount := t.tcount, tlmValue := t.tlmValue, tlmRaw := t.tlmRaw, tlmFlags := t.tlmFlags
    cacheI := t.cacheI, civ := t.civ, csv := t.csv, cslen := t.cslen, mem := t.mem
    err := t.err, phase := .idle, busy := false, done := true, curOp := .none }
  cause : t.err = .none ∨ t = a.shortScalar
  bytes : ∀ x, ¬ (0x300 ≤ x ∧ x < 0x5F8) → t.byteAt x = a.byteAt x
  wf : a.mem.wf = true → t.mem.wf = true
  buffers : a.mem.onlyBuffers = true → t.mem.onlyBuffers = true
  tcount_le : a.tcount ≤ 248 → t.tcount ≤ 248
  cslen_le : a.cslen ≤ 248 → t.cslen ≤ 248
  civ : a.civ = true → t.civ = true
  csv : a.csv = true → t.csv = true

/-- A decoder that writes no buffer byte. -/
theorem DecoderEffect.of_same_mem {a t : State}
    (frame : t = { a with
      tvalid := t.tvalid, tcount := t.tcount, tlmValue := t.tlmValue, tlmRaw := t.tlmRaw, tlmFlags := t.tlmFlags
      cacheI := t.cacheI, civ := t.civ
      err := t.err, phase := .idle, busy := false, done := true, curOp := .none })
    (cause : t.err = .none ∨ t = a.shortScalar)
    (tcount : t.tcount = 0 ∨ t.tcount = a.tcount) (civ : a.civ = true → t.civ = true) : DecoderEffect a t := by
  have hm : t.mem = a.mem := by rw [frame]
  have he : t.epoch = a.epoch := by rw [frame]
  have h1 : t.csv = a.csv := by rw [frame]
  have h2 : t.cslen = a.cslen := by rw [frame]
  refine ⟨?_, cause, fun x _ => State.byteAt_congr hm he x, ?_, ?_, ?_, ?_, civ, ?_⟩
  · rw [h1, h2, hm]; exact frame
  · rw [hm]; exact id
  · rw [hm]; exact id
  · rcases tcount with h | h <;> rw [h]
    · intro _; decide
    · exact id
  · rw [h2]; exact id
  · rw [h1]; exact id

/-- A scalar decoder whose own writes are TLM_VALUE, TLM_FLAGS, CACHE_I and CIV. -/
theorem scalarDecode_effect (a : State) (own : Half → State → State)
    (hown : ∀ raw s, own raw s = { s with
      tlmValue := (own raw s).tlmValue, tlmFlags := (own raw s).tlmFlags, cacheI := (own raw s).cacheI
      civ := (own raw s).civ })
    (hciv : ∀ raw s, s.civ = true → (own raw s).civ = true) : DecoderEffect a (a.scalarDecode own) := by
  by_cases h : a.rxlen.val < 10
  · rw [State.scalarDecode_lt h]
    exact .of_same_mem rfl (.inr rfl) (.inr rfl) id
  · rw [State.scalarDecode_ge (by omega)]
    have ho := hown (a.rxField 6) { a with tlmRaw := a.rxField 6, tvalid := true, tcount := 0 }
    have hc := hciv (a.rxField 6) { a with tlmRaw := a.rxField 6, tvalid := true, tcount := 0 }
    generalize own (a.rxField 6) { a with tlmRaw := a.rxField 6, tvalid := true, tcount := 0 } = u at *
    refine .of_same_mem ?_ (.inl rfl) (.inl ?_) hc
    · rw [ho]; rfl
    · rw [ho]; rfl

theorem execDecCells_effect (a : State) : ∃ t, execDecCells a = .next t ∧ DecoderEffect a t := by
  refine ⟨_, rfl, rfl, .inl rfl, ?_, ?_, ?_, ?_, id, id, id⟩
  · intro x hx
    refine State.byteAt_store_outside a elemBase x (elemBytes a.cells) ?_
    have := a.length_cells_le
    simp [elemBase]
    omega
  · exact Memory.wf_writeList _ _
  · intro h
    refine Memory.onlyBuffers_writeList _ _ h fun i hi => isBufferOffset_elem (.inl ?_)
    have := a.length_cells_le
    simp [elemBase] at *
    omega
  · intro _
    have := a.length_cells_le
    show BitVec.ofNat 8 a.cells.length ≤ 248
    rw [BitVec.le_def, BitVec.toNat_ofNat]
    simp
    omega

/-- The two blocks DEC_SERIAL stores. -/
def State.storeSerial (a : State) : State :=
  (a.store elemBase (elemBytes (a.serial.map (fun b => b.zeroExtend 16)))).store snBase a.serial

theorem execDecSerial_eq (a : State) :
    execDecSerial a = .next (State.complete
      { a.storeSerial with
        tcount := BitVec.ofNat 8 a.serial.length, tvalid := true
        cslen := BitVec.ofNat 8 a.serial.length, csv := true } .none) := rfl

theorem State.storeSerial_mem (a : State) :
    a.storeSerial.mem = (a.mem.writeList elemBase (elemBytes (a.serial.map (fun b => b.zeroExtend 16)))).writeList
      snBase a.serial := rfl

theorem State.byteAt_storeSerial (a : State) (x : Nat) (hx : ¬ (0x300 ≤ x ∧ x < 0x5F8)) :
    a.storeSerial.byteAt x = a.byteAt x := by
  have hl := a.length_serial_le
  unfold State.storeSerial
  rw [State.byteAt_store_outside _ _ _ _ (by simp only [snBase]; omega), State.byteAt_store_outside]
  simp only [length_elemBytes, List.length_map, elemBase]
  omega

theorem State.wf_storeSerial (a : State) (h : a.mem.wf = true) : a.storeSerial.mem.wf = true := by
  rw [State.storeSerial_mem]
  exact Memory.wf_writeList _ _ (Memory.wf_writeList _ _ h)

theorem State.onlyBuffers_storeSerial (a : State) (h : a.mem.onlyBuffers = true) :
    a.storeSerial.mem.onlyBuffers = true := by
  have hl := a.length_serial_le
  rw [State.storeSerial_mem]
  refine Memory.onlyBuffers_writeList _ _ (Memory.onlyBuffers_writeList _ _ h fun i hi => ?_) fun i hi => ?_
  · simp only [length_elemBytes, List.length_map] at hi
    exact isBufferOffset_elem (by simp only [elemBase]; omega)
  · exact isBufferOffset_elem (by simp only [snBase]; omega)

theorem execDecSerial_effect (a : State) : ∃ t, execDecSerial a = .next t ∧ DecoderEffect a t := by
  have hl := a.length_serial_le
  have hb := a.byteAt_storeSerial
  have hw := a.wf_storeSerial
  have ho := a.onlyBuffers_storeSerial
  have hc : BitVec.ofNat 8 a.serial.length ≤ 248 := by
    rw [BitVec.le_def, BitVec.toNat_ofNat]
    simp
    omega
  have hm : a.storeSerial = { a with mem := a.storeSerial.mem } := rfl
  rw [execDecSerial_eq]
  generalize a.storeSerial = u at *
  generalize BitVec.ofNat 8 a.serial.length = c at *
  refine ⟨_, rfl, ?_, .inl rfl, hb, hw, ho, fun _ => hc, fun _ => hc, ?_, fun _ => rfl⟩
  · generalize u.mem = m at *
    subst hm
    rfl
  · rw [hm]
    exact id

/-- Every decoder goes on, with a `DecoderEffect`. -/
theorem exec_decoder_effect (c : Byte) (a : State) :
    ∃ t, exec (decodeRegCode c) a = .next t ∧ DecoderEffect a t := by
  unfold decodeRegCode
  split
  · exact execDecSerial_effect a
  iterate 4 exact ⟨_, rfl, scalarDecode_effect a _ (fun _ _ => rfl) (fun _ _ h => h)⟩
  iterate 2 exact ⟨_, rfl, scalarDecode_effect a _ (fun _ _ => rfl) (fun _ _ h => h)⟩
  · exact ⟨_, rfl, scalarDecode_effect a _ (fun _ _ => rfl) (fun _ _ _ => rfl)⟩
  iterate 2 exact ⟨_, rfl, scalarDecode_effect a _ (fun _ _ => rfl) (fun _ _ h => h)⟩
  · exact execDecCells_effect a
  · exact ⟨_, rfl, .of_same_mem rfl (.inl rfl) (.inr rfl) id⟩

end Sys2Proof.Machine
end

