-- ==== Sys2Proof/Laws/Transport.lean ====
section
/-! SUPPORT. Laws/Transport.lean: the transport's steps by their cases, and what a capture stores. -/

namespace Sys2Proof.Machine

/-- A SEND step with attempts left. -/
theorem State.sendStep_push {s : State} (h : s.tries.toNat < s.maxTries.toNat) :
    s.sendStep = { s.txPush s.txSpan with tries := s.tries + 1, phase := .wait, timer := .running } := by
  rw [State.sendStep, if_neg]
  rw [BitVec.le_def]
  omega

/-- A SEND step with none left. -/
theorem State.sendStep_timeout {s : State} (h : s.maxTries.toNat ≤ s.tries.toNat) :
    s.sendStep = s.complete .timeout := by
  rw [State.sendStep, if_pos]
  rwa [BitVec.le_def]

/-- The attempt count does not wrap while attempts are left. -/
theorem toNat_tries_succ {s : State} (h : s.tries.toNat < s.maxTries.toNat) :
    (s.tries + 1).toNat = s.tries.toNat + 1 := by
  have := s.maxTries.isLt
  rw [BitVec.toNat_add]
  simp
  omega

theorem State.waitStep_empty {s : State} (h : s.rxfifo = []) : s.waitStep = s := by
  rw [State.waitStep, if_pos h]

theorem State.waitStep_byte {s : State} (h : s.rxfifo ≠ []) : s.waitStep = s.captureStep := by
  rw [State.waitStep, if_neg h]

theorem State.length_captured (s : State) : s.captured.length = min 256 s.rxfifo.length := by
  simp [State.captured, Config.rxbufSize]

theorem State.expireEnabled_iff (s : State) : s.expireEnabled = true ↔ s.phase = .wait ∧ s.rxfifo = [] := by
  simp [State.expireEnabled]

end Sys2Proof.Machine
end

