-- ==== Sys2Proof/Laws/Engine.lean ====
section
/-! SUPPORT. Laws/Engine.lean: once, everything one event can do: the step of the operation in progress by its phase, a host
access by its place, and every other event. -/

namespace Sys2Proof.Machine

/-- The DECODE step always goes on: it completes with a cause, or its decoder's effect stands. -/
theorem decodeStep_cases (s : State) :
    ∃ t, s.decodeStep = .next t ∧
      ((∃ e, s.frameError = some e ∧ t = s.clearTlm.complete e) ∨
        (s.frameError = none ∧ DecoderEffect s.atDispatch t)) := by
  cases hf : s.frameError with
  | some e => exact ⟨_, decodeStep_error hf, .inl ⟨e, rfl, rfl⟩⟩
  | none =>
    obtain ⟨t, ht, he⟩ := exec_decoder_effect (s.rxByte 5) s.atDispatch
    exact ⟨t, (decodeStep_ok hf).trans ht, .inr ⟨rfl, he⟩⟩

/-- Everything the engine can do while BUSY = 1, by the phase it is in. -/
inductive EngineEffect (s : State) : State → Prop where
  | ckcomp (hp : s.phase = .ckcomp) : EngineEffect s s.ckcompStep
  | ckver (hp : s.phase = .ckver) : EngineEffect s s.ckverStep
  | encode (hp : s.phase = .encode) (ho : s.curOp = .encode ∨ s.curOp = .query) : EngineEffect s s.encodeStep
  | push (hp : s.phase = .send) (ht : s.tries.toNat < s.maxTries.toNat) :
      EngineEffect s { s.txPush s.txSpan with tries := s.tries + 1, phase := .wait, timer := .running }
  | exhausted (hp : s.phase = .send) (ht : s.maxTries.toNat ≤ s.tries.toNat) : EngineEffect s (s.complete .timeout)
  | waiting (hp : s.phase = .wait) (hf : s.rxfifo = []) : EngineEffect s s
  | capture (hp : s.phase = .wait) (hf : s.rxfifo ≠ []) (ho : s.curOp = .xact ∨ s.curOp = .query) :
      EngineEffect s s.captureStep
  | invalid (hp : s.phase = .decode) (e : Cause) : EngineEffect s (s.clearTlm.complete e)
  | decoded (hp : s.phase = .decode) (t : State) (he : DecoderEffect s.atDispatch t) : EngineEffect s t

theorem EngineEffect.of_send {s : State} (hp : s.phase = .send) : EngineEffect s s.sendStep := by
  by_cases h : s.tries.toNat < s.maxTries.toNat
  · rw [State.sendStep_push h]
    exact .push hp h
  · rw [State.sendStep_timeout (by omega)]
    exact .exhausted hp (by omega)

theorem EngineEffect.of_wait {s : State} (hp : s.phase = .wait) (ho : s.curOp = .xact ∨ s.curOp = .query) :
    EngineEffect s s.waitStep := by
  by_cases h : s.rxfifo = []
  · rw [State.waitStep_empty h]
    exact .waiting hp h
  · rw [State.waitStep_byte h]
    exact .capture hp h ho

theorem EngineEffect.of_decode {s : State} (hp : s.phase = .decode) :
    ∃ t, s.decodeStep = .next t ∧ EngineEffect s t := by
  obtain ⟨t, ht, ⟨e, -, rfl⟩ | ⟨-, he⟩⟩ := decodeStep_cases s
  · exact ⟨_, ht, .invalid hp e⟩
  · exact ⟨t, ht, .decoded hp t he⟩

/-- From a state whose phase is one of its operation's, the engine's step goes on, with an `EngineEffect`. -/
theorem exec_current_effect {s : State} (hb : s.busy = true) (hp : s.phase ∈ s.curOp.phases)
    (hi : s.phase ≠ .idle) : ∃ i t, s.current = some i ∧ exec i s = .next t ∧ EngineEffect s t := by
  unfold State.current
  cases ho : s.curOp <;> rw [ho] at hp <;>
    simp only [Op.phases, List.mem_cons, List.not_mem_nil, or_false] at hp
  · exact absurd hp hi
  · exact ⟨_, _, rfl, exec_ckcomp_step hb _ _ ho hp, .ckcomp hp⟩
  · exact ⟨_, _, rfl, exec_ckver_step hb _ _ ho hp, .ckver hp⟩
  · exact ⟨_, _, rfl, exec_encode_step hb _ _ ho hp, .encode hp (.inl ho)⟩
  · rcases hp with hp | hp
    · exact ⟨_, _, rfl, exec_xact_send hb _ _ ho hp, .of_send hp⟩
    · exact ⟨_, _, rfl, exec_xact_wait hb _ _ ho hp, .of_wait hp (.inl ho)⟩
  · obtain ⟨t, ht, he⟩ := EngineEffect.of_decode hp
    exact ⟨_, t, rfl, (exec_decode_step hb _ _ ho hp).trans ht, he⟩
  · rcases hp with hp | hp | hp | hp
    · exact ⟨_, _, rfl, exec_query_encode hb _ _ ho hp, .encode hp (.inr ho)⟩
    · exact ⟨_, _, rfl, exec_query_send hb _ _ ho hp, .of_send hp⟩
    · exact ⟨_, _, rfl, exec_query_wait hb _ _ ho hp, .of_wait hp (.inr ho)⟩
    · obtain ⟨t, ht, he⟩ := EngineEffect.of_decode hp
      exact ⟨_, t, rfl, (exec_query_decode hb _ _ ho hp).trans ht, he⟩

/-- An outcome of the operation in progress, whatever the state: the engine's effect, or the fault of a phase that is
not its operation's. -/
theorem exec_current_cases {s t : State} {i : Instr} (hb : s.busy = true) (hc : s.current = some i)
    (h : exec i s = .next t) : EngineEffect s t := by
  by_cases hp : s.phase ∈ s.curOp.phases ∧ s.phase ≠ .idle
  · obtain ⟨j, u, hj, hu, he⟩ := exec_current_effect hb hp.1 hp.2
    rw [hc] at hj
    cases hj
    rw [hu] at h
    cases h
    exact he
  · exfalso
    unfold State.current at hc
    cases ho : s.curOp <;> rw [ho] at hc hp <;> cases hc <;>
      simp only [exec, execCkcomp, execCkver, execEncode, execXact, execDecode, execQuery,
        command_inProgress hb ho] at h <;>
      cases hq : s.phase <;> rw [hq] at h hp <;> simp [Op.phases] at h hp

/-- What the machine itself can do: nothing, its engine's step, or EXPIRE. -/
inductive MachineEffect (s : State) : State → Prop where
  | none : MachineEffect s s
  | engine (hr : s.inReset = false) (hb : s.busy = true) (t : State) (he : EngineEffect s t) : MachineEffect s t
  | expire (hr : s.inReset = false) (hp : s.phase = .wait) (hf : s.rxfifo = []) : MachineEffect s s.expireStep

/-- What one event can do to a state it has been taken from. -/
inductive MoveEffect (s : State) : Event → State → Prop where
  | held (e : Event) (hr : s.inReset = true) : MoveEffect s e s
  | read (off : Offset) (width : Nat) : MoveEffect s (.hostRead off width) (s.hear (s.memRead off))
  | writeBusy (off : Offset) (width : Nat) (v : Word) (hr : s.inReset = false) (hb : s.busy = true) :
      MoveEffect s (.hostWrite off width v) (s.memWriteBusy off v)
  | writeIdle (off : Offset) (width : Nat) (v : Word) (hr : s.inReset = false) (hb : s.busy = false)
      (h4 : off.toNat % 4 = 0) : MoveEffect s (.hostWrite off width v) (s.memWriteIdle off v)
  | accept (off : Offset) (width : Nat) (v : Word) (hr : s.inReset = false) (hb : s.busy = false) (op : Op)
      (ho : op ≠ .none) (r p : Byte) : MoveEffect s (.hostWrite off width v) (s.accept op r p)
  | reject (off : Offset) (width : Nat) (v : Word) (hr : s.inReset = false) (hb : s.busy = false) :
      MoveEffect s (.hostWrite off width v) s.rejectIllegal
  | waitOver : MoveEffect s .waitDone (s.hear s.statusWord)
  | waitOn (t : State) (h : MachineEffect ((s.hear s.statusWord).withAgenda (.waitDone :: s.agenda)) t) :
      MoveEffect s .waitDone t
  | engine (t : State) (h : MachineEffect s t) : MoveEffect s .engine t
  | deadline (t : State) (h : MachineEffect s t) : MoveEffect s .deadline t
  | deliver (bytes : List Byte) : MoveEffect s (.peerDeliver bytes) (s.deliver bytes)
  | consume (count : Nat) : MoveEffect s (.peerConsume count) (s.consume count)
  | assert : MoveEffect s .resetAssert s.assertReset
  | release : MoveEffect s .resetRelease s.releaseReset

theorem engineMove_effect {s t : State} (hr : s.inReset = false) (h : engineMove s = .next t) :
    MachineEffect s t := by
  unfold engineMove at h
  split at h
  · rename_i hb
    split at h
    · rename_i i hi
      exact .engine hr hb t (exec_current_cases hb hi h)
    · cases h
  · cases h
    exact .none

theorem deadlineMove_effect {s t : State} (hr : s.inReset = false) (h : deadlineMove s = .next t) :
    MachineEffect s t := by
  unfold deadlineMove at h
  cases h
  split
  · rename_i he
    rw [State.expireEnabled_iff] at he
    exact .expire hr he.1 he.2
  · exact .none

theorem fairMove_effect {s t : State} (hr : s.inReset = false) (h : fairMove s = .next t) : MachineEffect s t := by
  unfold fairMove at h
  split at h
  · exact deadlineMove_effect hr h
  · exact engineMove_effect hr h

/-- What a word written to CMD of an idle engine does. -/
theorem exec_decodeCmd_idle {s : State} (hb : s.busy = false) (v : Word) :
    exec (decodeCmd v) s = .next s.rejectIllegal ∨
      ∃ op r p, op ≠ .none ∧ exec (decodeCmd v) s = .next (s.accept op r p) := by
  unfold decodeCmd
  split
  · exact .inl (exec_illegal_idle hb _)
  · split
    · exact .inr ⟨_, _, _, by decide, exec_ckcomp_idle hb _ _⟩
    · exact .inr ⟨_, _, _, by decide, exec_ckver_idle hb _ _⟩
    · exact .inr ⟨_, _, _, by decide, exec_encode_idle hb _ _⟩
    · exact .inr ⟨_, _, _, by decide, exec_xact_idle hb _ _⟩
    · exact .inr ⟨_, _, _, by decide, exec_decode_idle hb _ _⟩
    · exact .inr ⟨_, _, _, by decide, exec_query_idle hb _ _⟩
    · exact .inl (exec_illegal_idle hb _)

theorem move_effect {s t : State} {e : Event} (h : move e s = .next t) : MoveEffect s e t := by
  have live : ∀ f : State → Outcome, unlessReset f s = .next t → (s.inReset = false → f s = .next t → MoveEffect s e t) →
      MoveEffect s e t := by
    intro f hf hn
    cases hr : s.inReset
    · rw [unlessReset_live hr] at hf
      exact hn hr hf
    · rw [unlessReset_held hr] at hf
      cases hf
      exact .held e hr
  cases e with
  | hostRead off width =>
    refine live _ h fun hr hf => ?_
    unfold hostReadMove at hf
    split at hf
    · cases hf
      exact .read off width
    · cases hf
  | hostWrite off width v =>
    refine live _ h fun hr hf => ?_
    unfold hostWriteMove at hf
    split at hf
    · rename_i hk
      simp only [accessOk, Bool.and_eq_true, decide_eq_true_eq] at hk
      split at hf
      · rename_i hb
        cases hf
        exact .writeBusy off width v hr hb
      · rename_i hb
        have hb : s.busy = false := by simpa using hb
        split at hf
        · rcases exec_decodeCmd_idle hb v with hx | ⟨op, r, p, ho, hx⟩ <;> rw [hx] at hf <;> cases hf
          · exact .reject off width v hr hb
          · exact .accept off width v hr hb op ho r p
        · cases hf
          exact .writeIdle off width v hr hb hk.2
    · cases hf
  | waitDone =>
    refine live _ h fun hr hf => ?_
    unfold waitDoneMove at hf
    split at hf
    · cases hf
      exact .waitOver
    · exact .waitOn t (fairMove_effect hr hf)
  | engine => exact live _ h fun hr hf => .engine t (engineMove_effect hr hf)
  | deadline => exact live _ h fun hr hf => .deadline t (deadlineMove_effect hr hf)
  | peerDeliver bytes => cases h; exact .deliver bytes
  | peerConsume count => cases h; exact .consume count
  | resetAssert => cases h; exact .assert
  | resetRelease => cases h; exact .release

/-- Everything a step can do. -/
theorem step_effect {s t : State} (h : step s = .next t) :
    (s.agenda = [] ∧ MachineEffect s t) ∨
      ∃ e rest, s.agenda = e :: rest ∧ MoveEffect (s.withAgenda rest) e t := by
  cases ha : s.agenda with
  | nil =>
    rw [step_nil ha] at h
    cases hr : s.inReset
    · rw [unlessReset_live hr] at h
      exact .inl ⟨rfl, fairMove_effect hr h⟩
    · rw [unlessReset_held hr] at h
      cases h
      exact .inl ⟨rfl, .none⟩
  | cons e rest =>
    rw [step_cons ha] at h
    exact .inr ⟨e, rest, rfl, move_effect h⟩

end Sys2Proof.Machine
end

