-- ==== Sys2Proof/Laws/PerInstr.lean ====
section
/-! SUPPORT. Laws/PerInstr.lean: the family EncodeLegal: what the encoding of a well-formed instruction says of it, one
lemma per constructor. -/

namespace Sys2Proof.Laws.EncodeLegal

/-- A command's word is illegal exactly when the instruction is ILLEGAL (30_encoding.md R112), and a decoder's register code
is listed exactly when the instruction is not DEC_NONE (30_encoding.md R111, R114). -/
def Statement (i : Instr) : Prop :=
  i.wf = true →
    match encode i with
    | .cmd w => Machine.IllegalWord w ↔ ∃ v, i = .illegal v
    | .respReg code => code ∈ listedCodes ↔ ∀ c, i ≠ .decNone c

/-- The word of a command built from its fields is legal. -/
theorem legal_cmdWord {op : BitVec 4} (h : 1 ≤ op.toNat ∧ op.toNat ≤ 6) (r p : Byte) :
    ¬ Machine.IllegalWord (cmdWord op r p) := by
  have hf := fields_cmdWord op r p
  have hn := toNat_fields (cmdWord op r p)
  rw [hf.1, hf.2.1, hf.2.2.2.2] at hn
  have h0 : (0 : BitVec 4).toNat = 0 := rfl
  have h1 : (0 : Byte).toNat = 0 := rfl
  unfold Machine.IllegalWord
  omega

theorem ckcomp (r p : Byte) : Statement (.ckcomp r p) := fun _ =>
  ⟨fun h => absurd h (legal_cmdWord (by decide) r p), by rintro ⟨v, h⟩; cases h⟩

theorem ckver (r p : Byte) : Statement (.ckver r p) := fun _ =>
  ⟨fun h => absurd h (legal_cmdWord (by decide) r p), by rintro ⟨v, h⟩; cases h⟩

theorem encode (r p : Byte) : Statement (.encode r p) := fun _ =>
  ⟨fun h => absurd h (legal_cmdWord (by decide) r p), by rintro ⟨v, h⟩; cases h⟩

theorem xact (r p : Byte) : Statement (.xact r p) := fun _ =>
  ⟨fun h => absurd h (legal_cmdWord (by decide) r p), by rintro ⟨v, h⟩; cases h⟩

theorem decode (r p : Byte) : Statement (.decode r p) := fun _ =>
  ⟨fun h => absurd h (legal_cmdWord (by decide) r p), by rintro ⟨v, h⟩; cases h⟩

theorem query (r p : Byte) : Statement (.query r p) := fun _ =>
  ⟨fun h => absurd h (legal_cmdWord (by decide) r p), by rintro ⟨v, h⟩; cases h⟩

theorem decSerial : Statement .decSerial := by
  intro _
  refine ⟨fun _ c h => ?_, fun _ => by decide⟩
  cases h

theorem decFwver : Statement .decFwver := by
  intro _
  refine ⟨fun _ c h => ?_, fun _ => by decide⟩
  cases h

theorem decFactcap : Statement .decFactcap := by
  intro _
  refine ⟨fun _ c h => ?_, fun _ => by decide⟩
  cases h

theorem decActcap : Statement .decActcap := by
  intro _
  refine ⟨fun _ c h => ?_, fun _ => by decide⟩
  cases h

theorem decStatus : Statement .decStatus := by
  intro _
  refine ⟨fun _ c h => ?_, fun _ => by decide⟩
  cases h

theorem decRemcapMah : Statement .decRemcapMah := by
  intro _
  refine ⟨fun _ c h => ?_, fun _ => by decide⟩
  cases h

theorem decRemcapPct : Statement .decRemcapPct := by
  intro _
  refine ⟨fun _ c h => ?_, fun _ => by decide⟩
  cases h

theorem decCurrent : Statement .decCurrent := by
  intro _
  refine ⟨fun _ c h => ?_, fun _ => by decide⟩
  cases h

theorem decVoltage : Statement .decVoltage := by
  intro _
  refine ⟨fun _ c h => ?_, fun _ => by decide⟩
  cases h

theorem decHealth : Statement .decHealth := by
  intro _
  refine ⟨fun _ c h => ?_, fun _ => by decide⟩
  cases h

theorem decCells : Statement .decCells := by
  intro _
  refine ⟨fun _ c h => ?_, fun _ => by decide⟩
  cases h

theorem decNone (code : Byte) : Statement (.decNone code) := by
  intro h
  have hc : code ∉ listedCodes := by simpa [Instr.wf] using h
  exact ⟨fun hl => absurd hl hc, fun hn => absurd rfl (hn code)⟩

theorem illegal (w : Word) : Statement (.illegal w) := by
  intro h
  refine ⟨fun _ => ⟨w, rfl⟩, fun _ => ?_⟩
  simp only [Instr.wf, Bool.not_eq_true', Bool.and_eq_false_iff, decide_eq_false_iff_not] at h
  unfold Machine.IllegalWord
  omega

end Sys2Proof.Laws.EncodeLegal
end

