-- ==== Sys2Proof/Tests/Slice0.lean ====
section
/-! SUPPORT. Tests/Slice0.lean: well-formedness, decoding by written-out words, one step of each instruction against the
spec's vectors (95_test_vectors.md), the fetch, and a witness for the hypotheses of each statement. -/

namespace Sys2Proof.Tests

open Sys2Proof Sys2Proof.Machine

/-! ## Well-formedness: one ill-formed term for each check -/

/-- ENCODE's word is no illegal word. -/
theorem test_illegal_of_a_legal_word_is_ill_formed : (Instr.illegal 0x00023303).wf = false := by decide

/-- 0x33 has a decoder. -/
theorem test_decNone_of_a_listed_code_is_ill_formed : (Instr.decNone 0x33).wf = false := by decide

/-- Words and codes the checks let through (30_encoding.md R112, R114). -/
theorem test_wellFormed_terms : (Instr.illegal 0).wf = true ∧ (Instr.illegal 0x11).wf = true ∧
    (Instr.illegal 7).wf = true ∧ (Instr.illegal 0x01000001).wf = true ∧ (Instr.decNone 0x20).wf = true ∧
    (Instr.decNone 0x3A).wf = true := by decide

/-! ## Decoding: a word written out bit by bit from 30_encoding.md R101, R110 and R111 for every constructor -/

theorem test_decode_ckcomp :
    decode (.cmd 0b00000000_10101011_00110011_0000_0001) = .ckcomp 0x33 0xAB := by decide
theorem test_decode_ckver :
    decode (.cmd 0b00000000_00000001_10000000_0000_0010) = .ckver 0x80 0x01 := by decide
theorem test_decode_encode :
    decode (.cmd 0b00000000_00000010_00110011_0000_0011) = .encode 0x33 0x02 := by decide
theorem test_decode_xact :
    decode (.cmd 0b00000000_11111111_00000000_0000_0100) = .xact 0x00 0xFF := by decide
theorem test_decode_decode :
    decode (.cmd 0b00000000_00000000_01000000_0000_0101) = .decode 0x40 0x00 := by decide
theorem test_decode_query :
    decode (.cmd 0b00000000_00010000_01000000_0000_0110) = .query 0x40 0x10 := by decide
theorem test_decode_decSerial : decode (.respReg 0b00010000) = .decSerial := by decide
theorem test_decode_decFwver : decode (.respReg 0b00010111) = .decFwver := by decide
theorem test_decode_decFactcap : decode (.respReg 0b00011000) = .decFactcap := by decide
theorem test_decode_decActcap : decode (.respReg 0b00011001) = .decActcap := by decide
theorem test_decode_decStatus : decode (.respReg 0b00110000) = .decStatus := by decide
theorem test_decode_decRemcapMah : decode (.respReg 0b00110001) = .decRemcapMah := by decide
theorem test_decode_decRemcapPct : decode (.respReg 0b00110010) = .decRemcapPct := by decide
theorem test_decode_decCurrent : decode (.respReg 0b00110011) = .decCurrent := by decide
theorem test_decode_decVoltage : decode (.respReg 0b00110100) = .decVoltage := by decide
theorem test_decode_decHealth : decode (.respReg 0b00111011) = .decHealth := by decide
theorem test_decode_decCells : decode (.respReg 0b01000000) = .decCells := by decide
theorem test_decode_decNone : decode (.respReg 0b11111111) = .decNone 0xFF := by decide
/-- OP 0, OP 7, OP 15, RSV0 ≠ 0, RSV1 ≠ 0. -/
theorem test_decode_illegal : decode (.cmd 0x00000000) = .illegal 0 ∧ decode (.cmd 0x00000007) = .illegal 7 ∧
    decode (.cmd 0x0000000F) = .illegal 15 ∧ decode (.cmd 0x00000081) = .illegal 0x81 ∧
    decode (.cmd 0x80000001) = .illegal 0x80000001 := by decide
/-- Assembly lines and their words (30_encoding.md R116, R117). -/
theorem test_assembly_words : AsmLine.expand (.query 0x34 0x02) = [.hostWrite 0x008 4 0x00023406] ∧
    AsmLine.expand (.setprofile true true false) = [.hostWrite 0x000 4 6] ∧
    AsmLine.expand (.ldrx [0x55, 0xAA, 0x33, 0xCC, 0xFF]) =
      [.hostWrite 0x200 4 0xCC33AA55, .hostWrite 0x204 4 0xFF, .hostWrite 0x01C 4 5] := by decide

/-! ## One step of each instruction -/

/-- The reset state with an operation at a step of a phase. -/
def busyWith (op : Op) (p : Phase) (reg : Byte := 0) (plen : Byte := 0) : State :=
  { State.reset with busy := true, curOp := op, phase := p, curReg := reg, curPlen := plen }

/-- A frame in RXBUF. -/
def withRx (s : State) (bytes : List Byte) : State :=
  { s.store rxBase bytes with rxlen := clampLen (BitVec.ofNat 32 bytes.length) }

/-- Bytes in TXBUF. -/
def withTx (s : State) (bytes : List Byte) : State :=
  { s.store txBase bytes with txlen := clampLen (BitVec.ofNat 32 bytes.length) }

/-- A DECODE of a frame, at its engine step. -/
def decoding (reg : Byte) (bytes : List Byte) : State := withRx (busyWith .decode .decode reg) bytes

/-- What an outcome's next state shows. -/
def see {α : Type} (o : Outcome) (f : State → α) : Option α := o.state?.map f

def frame33 : List Byte := [0x55, 0xAA, 0x04, 0x25, 0x04, 0x33, 0x9C, 0xFF, 0x04, 0xFE]
def frame34 : List Byte := [0x55, 0xAA, 0x04, 0x25, 0x04, 0x34, 0x64, 0x00, 0x3A, 0xFF]
def frame40 : List Byte := [0x55, 0xAA, 0x06, 0x25, 0x04, 0x40, 0xE8, 0x0F, 0xE9, 0x0F, 0xA1, 0xFD]
def frame10 : List Byte :=
  [0x55, 0xAA, 0x0B, 0x25, 0x04, 0x10, 0x33, 0x47, 0x42, 0x43, 0x41, 0x31, 0x32, 0x33, 0x34, 0xB1, 0xFD]

/-- DV-CK-1. -/
theorem test_ckcomp : see (exec (.ckcomp 0 0) (withTx (busyWith .ckcomp .ckcomp) [0x03, 0x22, 0x01, 0x33, 0x02]))
    (fun t => (t.ckv, t.statusWord)) = some (0xA4FF, 0x00000002) := by decide
/-- DV-CK-2. -/
theorem test_ckcomp_empty : see (exec (.ckcomp 0 0) (busyWith .ckcomp .ckcomp)) (fun t => t.ckv) = some 0xFFFF := by
  decide
/-- DV-CK-10. -/
theorem test_ckver : see (exec (.ckver 0 0) (withRx (busyWith .ckver .ckver) frame33)) (fun t => t.statusWord) =
    some 0x00000002 := by decide
/-- DV-CK-11. -/
theorem test_ckver_other_order : see (exec (.ckver 0 0) { withRx (busyWith .ckver .ckver) frame33 with ckord := true })
    (fun t => t.statusWord) = some 0x00000022 := by decide
/-- DV-EN-1. -/
theorem test_encode : see (exec (.encode 0 0) (busyWith .encode .encode 0x33 0x02))
    (fun t => (t.bytesAt 0x100 9, t.txlen, t.ckv)) =
      some ([0x55, 0xAA, 0x03, 0x22, 0x01, 0x33, 0x02, 0xA4, 0xFF], 9, 0xA4FF) := by decide
/-- DV-EN-15. -/
theorem test_encode_other_order :
    see (exec (.encode 0 0) { busyWith .encode .encode 0x33 0x02 with ckord := true })
      (fun t => (t.bytesAt 0x107 2, t.ckv)) = some ([0xFF, 0xA4], 0xA4FF) := by decide
/-- DV-TR-3: the capture. -/
theorem test_xact_capture :
    see (exec (.xact 0 0) { busyWith .xact .wait with tries := 1, timer := .running, rxfifo := frame33 })
      (fun t => (t.bytesAt 0x200 10, t.rxlen, t.statusWord)) = some (frame33, 10, 0x00000102) := by decide
/-- DV-TR-2: MAX_TRIES = 0. -/
theorem test_xact_no_attempt : see (exec (.xact 0 0) { busyWith .xact .send with maxTries := 0 })
    (fun t => (t.statusWord, t.txchan)) = some (0x00000012, []) := by decide
/-- DV-DE-14: the echo is not the register asked for. -/
theorem test_decode_other_echo : see (exec (.decode 0x33 0) (decoding 0x33 frame34))
    (fun t => (t.statusWord, t.tlmInfoWord, t.tlmValue)) = some (0x00000032, 0, 0) := by decide
/-- DV-DE-16: a scalar of eight bytes. -/
theorem test_decode_short_scalar :
    see (exec (.decode 0x33 0) (decoding 0x33 [0x55, 0xAA, 0x02, 0x25, 0x04, 0x33, 0xA1, 0xFF])) (fun t => t.err) =
      some .truncated := by decide
/-- 44_query_host.md R270's example: the request pushed. -/
theorem test_query_push : see (exec (.query 0x34 2) { withTx (busyWith .query .send 0x34 2)
      [0x55, 0xAA, 0x03, 0x22, 0x01, 0x34, 0x02, 0xA3, 0xFF] with agenda := [] })
    (fun t => (t.txchan, t.tries, t.phase)) =
      some ([0x55, 0xAA, 0x03, 0x22, 0x01, 0x34, 0x02, 0xA3, 0xFF], 1, .wait) := by decide
/-- 44_query_host.md R270's example: the reply decoded. -/
theorem test_query_decode : see (exec (.query 0x34 2) (withRx { busyWith .query .decode 0x34 2 with tries := 1 } frame34))
    (fun t => (t.statusWord, t.tlmValue)) = some (0x00000102, 1000) := by decide
/-- DV-DE-4. -/
theorem test_decSerial : see (exec (.decode 0x10 0) (decoding 0x10 frame10))
    (fun t => (t.tlmInfoWord, t.cacheInfoWord, t.bytesAt 0x500 3, t.elem 8)) =
      some (0x00090110, 0x00000902, [0x33, 0x47, 0x42], 0x34) := by decide
/-- DV-DE-6. -/
theorem test_decFwver :
    see (exec (.decode 0x17 0) (decoding 0x17 [0x55, 0xAA, 0x04, 0x25, 0x04, 0x17, 0x15, 0x01, 0xA5, 0xFF]))
      (fun t => (t.tlmInfoWord, t.tlmValue)) = some (0x00000117, 277) := by decide
/-- DV-DE-5. -/
theorem test_decFactcap :
    see (exec (.decode 0x18 0) (decoding 0x18 [0x55, 0xAA, 0x04, 0x25, 0x04, 0x18, 0x10, 0x27, 0x83, 0xFF]))
      (fun t => (t.tlmInfoWord, t.tlmValue)) = some (0x00000118, 10000) := by decide
/-- DV-DE-7. -/
theorem test_decActcap :
    see (exec (.decode 0x19 0) (decoding 0x19 [0x55, 0xAA, 0x04, 0x25, 0x04, 0x19, 0x88, 0x13, 0x1E, 0xFF]))
      (fun t => (t.tlmInfoWord, t.tlmValue)) = some (0x00000119, 5000) := by decide
/-- DV-DE-8, but for the flags, which are OPEN. -/
theorem test_decStatus :
    see (exec (.decode 0x30 0) (decoding 0x30 [0x55, 0xAA, 0x04, 0x25, 0x04, 0x30, 0x05, 0x80, 0x1D, 0xFF]))
      (fun t => (t.tlmInfoWord, t.tlmValue, t.tlmRaw)) = some (0x00000130, 0x8005, 0x8005) := by decide
/-- DV-DE-9a. -/
theorem test_decRemcapMah :
    see (exec (.decode 0x31 0) (decoding 0x31 [0x55, 0xAA, 0x04, 0x25, 0x04, 0x31, 0xD0, 0x07, 0xCA, 0xFE]))
      (fun t => (t.tlmInfoWord, t.tlmValue)) = some (0x00000131, 2000) := by decide
/-- DV-DE-9b. -/
theorem test_decRemcapPct :
    see (exec (.decode 0x32 0) (decoding 0x32 [0x55, 0xAA, 0x04, 0x25, 0x04, 0x32, 0x57, 0x00, 0x49, 0xFF]))
      (fun t => (t.tlmInfoWord, t.tlmValue)) = some (0x00000132, 87) := by decide
/-- DV-DE-1. -/
theorem test_decCurrent : see (exec (.decode 0x33 0) (decoding 0x33 frame33))
    (fun t => (t.tlmInfoWord, t.tlmValue, t.cacheI, t.civ)) =
      some (0x00000133, 0xFFFFFC18, 0xFFFFFC18, true) := by decide
/-- DV-DE-19: the most negative field. -/
theorem test_decCurrent_most_negative :
    see (exec (.decode 0x33 0) (decoding 0x33 [0x55, 0xAA, 0x04, 0x25, 0x04, 0x33, 0x00, 0x80, 0x1F, 0xFF]))
      (fun t => t.tlmValue) = some 0xFFFB0000 := by decide
/-- DV-DE-22: the field is unsigned. -/
theorem test_decVoltage :
    see (exec (.decode 0x34 0) (decoding 0x34 [0x55, 0xAA, 0x04, 0x25, 0x04, 0x34, 0xFF, 0xFF, 0xA0, 0xFD]))
      (fun t => (t.tlmInfoWord, t.tlmValue)) = some (0x00000134, 0x0009FFF6) := by decide
/-- DV-DE-9c. -/
theorem test_decHealth :
    see (exec (.decode 0x3B 0) (decoding 0x3B [0x55, 0xAA, 0x04, 0x25, 0x04, 0x3B, 0x64, 0x00, 0x33, 0xFF]))
      (fun t => (t.tlmInfoWord, t.tlmValue)) = some (0x0000013B, 100) := by decide
/-- DV-DE-3. -/
theorem test_decCells : see (exec (.decode 0x40 0) (decoding 0x40 frame40))
    (fun t => (t.tlmInfoWord, t.memRead 0x300, t.tlmValue)) = some (0x00020140, 0x0FE90FE8, 0) := by decide
/-- 43_decode.md R240: CELLOFF = 1 skips byte 6, so the odd span 0F E9 0F gives one cell. -/
theorem test_decCells_offset : see (exec (.decode 0x40 0) { decoding 0x40 frame40 with celloff := true })
    (fun t => (t.tlmInfoWord, t.elem 0)) = some (0x00010140, 0xE90F) := by decide
/-- DV-DE-24. -/
theorem test_decNone :
    see (exec (.decode 0x20 0) (decoding 0x20 [0x55, 0xAA, 0x04, 0x25, 0x04, 0x20, 0x01, 0x02, 0xAF, 0xFF]))
      (fun t => (t.tlmInfoWord, t.err, t.tlmValue)) = some (0x00000020, .none, 0) := by decide
/-- 60_exceptions.md R306 and R307. -/
theorem test_illegal : see (exec (.illegal 0) State.reset) (fun t => t.statusWord) = some 0x00000052 ∧
    see (exec (.illegal 0) (busyWith .xact .wait)) (fun t => t.statusWord) = some 0x00050005 := by decide

/-! ## The fetch: the table's words from the reset state -/

theorem test_table_words : decodeTableWord 32 0x00000003 = some (.encode 0 0) ∧
    decodeTableWord 32 0x00000011 = some (.illegal 0x11) ∧ decodeTableWord 8 0x40 = some .decCells ∧
    decodeTableWord 8 0xFF = some (.decNone 0xFF) ∧ decodeTableWord 8 0x100 = none := by decide

/-- A command word from reset is the host's write to CMD (60_exceptions.md R305, R306). -/
theorem test_fetch_command : see (step (State.reset.withFetchWord 32 0x00AB3304))
      (fun t => (t.curOp, t.curReg, t.curPlen, t.phase)) = some (.xact, 0x33, 0xAB, .send) ∧
    see (step (State.reset.withFetchWord 32 0)) (fun t => t.err) = some .illegalCmd := by decide

/-- A register code from reset is byte 5 of a response whose field is 0 (43_decode.md R221, R242). -/
theorem test_fetch_register_code : see (step (State.reset.withFetchWord 8 0x33))
      (fun t => (t.tlmInfoWord, t.tlmValue, t.civ)) = some (0x00000133, 0, true) ∧
    see (step (State.reset.withFetchWord 8 0xFF)) (fun t => (t.tlmInfoWord, t.err)) = some (0x000000FF, .none) := by
  decide

/-- A field event has the name, the value and the unit (44_query_host.md R284, 30_encoding.md R111): the current, the cell
voltages' unit, and no event for 0xFF; a failure has its cause. -/
theorem test_report :
    (see (exec (.decode 0x33 0) (decoding 0x33 frame33)) State.report) =
      some (some (.field .current (.scalar 0xFFFFFC18) .mA)) ∧
    (see (exec (.decode 0x33 0) (decoding 0x33 frame34)) State.report) = some (some (.failure .regMismatch)) ∧
    (see (exec (.decode 0xFF 0) (decoding 0xFF [0x55, 0xAA, 0x01, 0x25, 0xD9, 0xFF])) State.report) = some none ∧
    fieldOf 0x40 = some (.perCellVoltages, .mV) ∧ fieldOf 0x32 = some (.remainingCapacity, .percent) := by decide

/-! ## Witnesses: a state and operands that meet each statement's hypotheses, clause by clause -/

/-- The reset state with events to come. -/
def idleWith (es : List Event) : State := { State.reset with agenda := es }

/-- An operation in WAIT with events to come. -/
def waitingWith (es : List Event) : State :=
  { busyWith .xact .wait with timer := .running, tries := 1, agenda := es }

theorem witness_inv_idle : (idleWith [.waitDone]).Inv := by constructor <;> decide
theorem witness_inv_waiting : (waitingWith [.engine]).Inv := by constructor <;> decide

theorem witness_DecodeOfEncodeIsTheInstruction :
    (Instr.illegal 0x11).wf = true ∧ (Instr.decNone 0x20).wf = true ∧ (Instr.query 0xFF 0xFF).wf = true := by decide

theorem witness_CmdWriteRunsTheDecodedCommand :
    ∃ (s : State) (w : Word) (rest : List Event),
      s.agenda = .hostWrite 0x008 4 w :: rest ∧ s.inReset = false ∧ s.busy = false :=
  ⟨idleWith [.hostWrite 0x008 4 0x00023303], _, _, rfl, rfl, rfl⟩

theorem witness_EngineRunsTheCommandInProgress :
    (∃ (s : State) (rest : List Event), s.agenda = .engine :: rest ∧ s.inReset = false ∧ s.busy = false ∧
      s.curOp = .none) ∧
    (∃ (s : State) (rest : List Event) (i : Instr), s.agenda = .engine :: rest ∧ s.inReset = false ∧ s.busy = true ∧
      s.current = some i ∧ s.curOp ≠ .none) :=
  ⟨⟨idleWith [.engine], _, rfl, rfl, rfl, rfl⟩, ⟨waitingWith [.engine], _, _, rfl, rfl, rfl, rfl, by decide⟩⟩

/-- DV-DE-13b: the six-byte frame, the shortest that is dispatched, in a DECODE and in a QUERY. -/
def frameFF : List Byte := [0x55, 0xAA, 0x01, 0x25, 0xD9, 0xFF]

theorem witness_ResponseByteFiveSelectsTheDecoder :
    (∃ s : State, 6 ≤ s.rxlen.val ∧ verify s.ckord (s.bytesAt 0x200 s.rxlen.val) = true ∧
      s.byteAt 0x205 = s.curReg ∧ s.At .decode .decode) ∧
    (∃ s : State, 6 ≤ s.rxlen.val ∧ verify s.ckord (s.bytesAt 0x200 s.rxlen.val) = true ∧
      s.byteAt 0x205 = s.curReg ∧ s.At .query .decode) :=
  ⟨⟨decoding 0xFF frameFF, by decide, by decide, by decide, rfl, rfl, rfl⟩,
    ⟨withRx (busyWith .query .decode 0xFF) frameFF, by decide, by decide, by decide, rfl, rfl, rfl⟩⟩

theorem witness_EmptyAgendaRunsTheFairSchedule :
    (∃ s : State, s.agenda = [] ∧ s.inReset = false ∧ s.phase = .wait ∧ s.rxfifo = []) ∧
    (∃ s : State, s.agenda = [] ∧ s.inReset = false ∧ s.phase ≠ .wait ∧ s.busy = false) ∧
    (∃ (s : State) (i : Instr), s.agenda = [] ∧ s.inReset = false ∧ s.rxfifo ≠ [] ∧ s.busy = true ∧
      s.current = some i) :=
  ⟨⟨waitingWith [], rfl, rfl, rfl, rfl⟩, ⟨State.reset, rfl, rfl, by decide, rfl⟩,
    ⟨{ waitingWith [] with rxfifo := [0x55] }, _, rfl, rfl, by decide, rfl, rfl⟩⟩

theorem witness_MisalignedOrNarrowAccessFaults :
    (∃ (s : State) (off : Offset) (width : Nat) (rest : List Event), s.inReset = false ∧ width ≠ 4 ∧
      s.agenda = .hostRead off width :: rest) ∧
    (∃ (s : State) (off : Offset) (v : Word) (rest : List Event), s.inReset = false ∧ off.toNat % 4 ≠ 0 ∧
      s.agenda = .hostWrite off 4 v :: rest) :=
  ⟨⟨idleWith [.hostRead 0x100 2], _, _, _, rfl, by decide, rfl⟩,
    ⟨idleWith [.hostWrite 0xFFF 4 0], _, _, _, rfl, by decide, rfl⟩⟩

theorem witness_ReadsHaveNoSideEffect :
    ∃ (s : State) (off : Offset) (rest : List Event),
      s.agenda = .hostRead off 4 :: rest ∧ s.inReset = false ∧ off.toNat % 4 = 0 :=
  ⟨idleWith [.hostRead 0xFFC 4], _, _, rfl, rfl, by decide⟩

/-- The ends of every buffer. -/
theorem witness_BufferWordsAreLittleEndian :
    (∀ n ∈ [0x100, 0x2FC, 0x500, 0x5F4], (BitVec.ofNat 12 n).toNat % 4 = 0 ∧
      (0x100 ≤ (BitVec.ofNat 12 n).toNat ∧ (BitVec.ofNat 12 n).toNat < 0x300 ∨
        0x500 ≤ (BitVec.ofNat 12 n).toNat ∧ (BitVec.ofNat 12 n).toNat < 0x5F8)) ∧
    (∀ j ∈ [0, 123], j < 124 ∧ (BitVec.ofNat 12 (0x300 + 4 * j)).toNat = 0x300 + 4 * j) := by simp

/-- The ends of every reserved range, read and written. -/
theorem witness_ReservedOffsetsReadZeroIgnoreWrites :
    (∀ off ∈ [(0x038 : Offset), 0x0FC, 0x4F0, 0x4FC, 0x5F8, 0xFFC], off.toNat % 4 = 0 ∧
      (0x038 ≤ off.toNat ∧ off.toNat < 0x100 ∨ 0x4F0 ≤ off.toNat ∧ off.toNat < 0x500 ∨ 0x5F8 ≤ off.toNat)) ∧
    ∀ off : Offset, (idleWith [.hostRead off 4]).inReset = false ∧
      (idleWith [.hostRead off 4]).agenda = .hostRead off 4 :: [] ∧
      (idleWith [.hostWrite off 4 1]).agenda = .hostWrite off 4 1 :: [] :=
  ⟨by simp, fun _ => ⟨rfl, rfl, rfl⟩⟩

/-- The read-only registers and the ends of the read-only buffers. -/
theorem witness_ReadOnlyOffsetsIgnoreWrites :
    (∀ off ∈ [(0x014 : Offset), 0x020, 0x034, 0x300, 0x4EC, 0x500, 0x5F4], off.toNat % 4 = 0 ∧
      (off.toNat = 0x014 ∨ 0x020 ≤ off.toNat ∧ off.toNat ≤ 0x034 ∨ 0x300 ≤ off.toNat ∧ off.toNat < 0x4F0 ∨
        0x500 ≤ off.toNat ∧ off.toNat < 0x5F8)) ∧
    ∀ off : Offset, (idleWith [.hostWrite off 4 1]).agenda = .hostWrite off 4 1 :: [] ∧
      (idleWith [.hostWrite off 4 1]).inReset = false :=
  ⟨by simp, fun _ => ⟨rfl, rfl⟩⟩

theorem witness_RegisterWriteReadsBack : State.reset.inReset = false ∧ State.reset.busy = false := ⟨rfl, rfl⟩

theorem witness_BufferWriteReadsBack :
    ∀ off ∈ [(0x100 : Offset), 0x1FC, 0x200, 0x2FC],
      ((idleWith [.hostWrite off 4 1]).agenda = .hostWrite off 4 1 :: [] ∧
        (idleWith [.hostWrite off 4 1]).inReset = false ∧ (idleWith [.hostWrite off 4 1]).busy = false ∧
        off.toNat % 4 = 0 ∧ 0x100 ≤ off.toNat ∧ off.toNat < 0x300) := by
  simp [idleWith, State.reset]

theorem witness_StatusWriteClearsDoneAndOvf :
    ∃ (s : State) (v : Word) (rest : List Event), s.agenda = .hostWrite 0x004 4 v :: rest ∧ s.inReset = false ∧
      v.getLsbD 1 = true ∧ s.done = true :=
  ⟨{ idleWith [.hostWrite 0x004 4 2] with done := true }, _, _, rfl, rfl, by decide, rfl⟩

/-- Every place a write is dropped from, STATUS, and the places that ignore it, at their ends. -/
theorem witness_WritesWhileBusyAreDropped :
    (∀ off ∈ [(0x000 : Offset), 0x008, 0x00C, 0x010, 0x018, 0x01C, 0x100, 0x1FC, 0x200, 0x2FC], off.toNat % 4 = 0 ∧
      (off.toNat ∈ [0x000, 0x008, 0x00C, 0x010, 0x018, 0x01C] ∨ 0x100 ≤ off.toNat ∧ off.toNat < 0x300)) ∧
    (0x004 : Offset).toNat = 0x004 ∧
    (∀ off ∈ [(0x014 : Offset), 0x020, 0x0FC, 0x300, 0xFFC], off.toNat % 4 = 0 ∧
      (off.toNat = 0x014 ∨ 0x020 ≤ off.toNat ∧ off.toNat < 0x100 ∨ 0x300 ≤ off.toNat)) ∧
    ∀ off : Offset, (waitingWith [.hostWrite off 4 1]).agenda = .hostWrite off 4 1 :: [] ∧
      (waitingWith [.hostWrite off 4 1]).inReset = false ∧ (waitingWith [.hostWrite off 4 1]).busy = true :=
  ⟨by simp, rfl, by simp, fun _ => ⟨rfl, rfl, rfl⟩⟩

theorem witness_HostCannotDisturbAnOperation :
    (∃ (s t : State) (off : Offset) (width : Nat) (rest : List Event),
      s.agenda = .hostRead off width :: rest ∧ s.busy = true ∧ step s = .next t) ∧
    (∃ (s t : State) (off : Offset) (width : Nat) (v : Word) (rest : List Event),
      s.agenda = .hostWrite off width v :: rest ∧ s.busy = true ∧ step s = .next t) :=
  ⟨⟨waitingWith [.hostRead 0 4], _, _, _, _, rfl, rfl, rfl⟩,
    ⟨waitingWith [.hostWrite 0x100 4 1], _, _, _, _, _, rfl, rfl, rfl⟩⟩

/-- The first and the last opcode, with every operand bit set. -/
theorem witness_LegalCommandIsAccepted :
    ∀ w ∈ [(0x00FFFF01 : Word), 0x00FFFF06],
      ((idleWith [.hostWrite 0x008 4 w]).agenda = .hostWrite 0x008 4 w :: [] ∧
        (idleWith [.hostWrite 0x008 4 w]).inReset = false ∧ (idleWith [.hostWrite 0x008 4 w]).busy = false ∧
        ¬ IllegalWord w) := by
  simp [idleWith, State.reset, IllegalWord]

/-- OP 0, 7 and 15, RSV0 and RSV1. -/
theorem witness_IllegalCommandIsRejected :
    ∀ w ∈ [(0 : Word), 7, 15, 0x11, 0x01000001],
      ((idleWith [.hostWrite 0x008 4 w]).agenda = .hostWrite 0x008 4 w :: [] ∧
        (idleWith [.hostWrite 0x008 4 w]).inReset = false ∧ (idleWith [.hostWrite 0x008 4 w]).busy = false ∧
        IllegalWord w) := by
  simp [idleWith, State.reset, IllegalWord]

theorem witness_VerifyOfShortFramesAndMagic : ([0x55, 0xAA, 0xFF] : List Byte).length < 4 := by decide

/-- The empty span and the longest. -/
theorem witness_ChecksumRoundTrip :
    ([] : List Byte).length ≤ 252 ∧ (List.replicate 252 (0xFF : Byte)).length ≤ 252 :=
  ⟨by decide, le_of_eq List.length_replicate⟩

/-- The first covered byte, the last byte of the frame, and the two that are not covered. -/
theorem witness_SingleBitCorruptionIsDetected :
    frame33.length ≤ 256 ∧ verify false frame33 = true ∧
      (∀ i ∈ [2, 9], i < frame33.length ∧ 2 ≤ i) ∧ (∀ i ∈ [0, 1], i < frame33.length ∧ i < 2) ∧ 0 < 8 ∧ 7 < 8 := by
  decide

/-- DV-CK-9's permutation, and a change of two bytes that keeps the sum. -/
theorem witness_ReorderingIsNotDetected :
    ([0x9C, 0xFF] : List Byte).Perm [0xFF, 0x9C] ∧
      (¬ ([1, 3] : List Byte).Perm [2, 2] ∧ byteSum [1, 3] = byteSum [2, 2]) := by decide

/-- An empty span, and a full one. -/
theorem witness_CkcompWritesTheChecksum :
    (∃ s : State, s.At .ckcomp .ckcomp ∧ s.txlen.val = 0) ∧ (∃ s : State, s.At .ckcomp .ckcomp ∧ s.txlen.val = 256) :=
  ⟨⟨busyWith .ckcomp .ckcomp, ⟨rfl, rfl, rfl⟩, rfl⟩,
    ⟨{ busyWith .ckcomp .ckcomp with txlen := 256 }, ⟨rfl, rfl, rfl⟩, rfl⟩⟩

/-- Three bytes, and four. -/
theorem witness_CkverReportsTheVerification :
    (∃ s : State, s.At .ckver .ckver ∧ s.rxlen.val < 4) ∧
    (∃ s : State, s.At .ckver .ckver ∧ s.rxlen.val = 4 ∧ verify s.ckord (s.bytesAt 0x200 s.rxlen.val) = true) :=
  ⟨⟨{ busyWith .ckver .ckver with rxlen := 3 }, ⟨rfl, rfl, rfl⟩, by decide⟩,
    ⟨withRx (busyWith .ckver .ckver) [0x55, 0xAA, 0xFF, 0xFF], ⟨rfl, rfl, rfl⟩, by decide, by decide⟩⟩

theorem witness_EncodeBuildsTheRequestFrame :
    (∃ s : State, s.At .encode .encode) ∧ (∃ s : State, s.At .query .encode) :=
  ⟨⟨busyWith .encode .encode, rfl, rfl, rfl⟩, ⟨busyWith .query .encode, rfl, rfl, rfl⟩⟩

theorem witness_EncodedFrameVerifies :
    ∃ s u : State, s.At .encode .encode ∧ u.At .encode .encode ∧ s ≠ u ∧ u.cfgLen = s.cfgLen ∧
      u.cfgAddr = s.cfgAddr ∧ u.cfgFcmd = s.cfgFcmd ∧ u.curReg = s.curReg ∧ u.curPlen = s.curPlen ∧
      u.ckord = s.ckord :=
  ⟨busyWith .encode .encode, { busyWith .encode .encode with txlen := 3 }, ⟨rfl, rfl, rfl⟩, ⟨rfl, rfl, rfl⟩,
    by decide, rfl, rfl, rfl, rfl, rfl, rfl⟩

/-- The last attempt of 255, none left, and MAX_TRIES = 0. -/
theorem witness_SendPushesTheFrameOrTimesOut :
    (∃ s : State, s.At .xact .send ∧ s.tries.toNat = 254 ∧ s.tries.toNat < s.maxTries.toNat) ∧
    (∃ s : State, s.At .query .send ∧ s.maxTries.toNat = 255 ∧ s.maxTries.toNat ≤ s.tries.toNat) ∧
    (∃ s : State, s.At .xact .send ∧ s.maxTries.toNat = 0 ∧ s.maxTries.toNat ≤ s.tries.toNat) :=
  ⟨⟨{ busyWith .xact .send with tries := 254, maxTries := 255 }, ⟨rfl, rfl, rfl⟩, by decide, by decide⟩,
    ⟨{ busyWith .query .send with tries := 255, maxTries := 255 }, ⟨rfl, rfl, rfl⟩, by decide, by decide⟩,
    ⟨{ busyWith .xact .send with maxTries := 0 }, ⟨rfl, rfl, rfl⟩, by decide, by decide⟩⟩

theorem witness_CaptureTakesWhatIsBuffered :
    (∃ s : State, s.rxfifo ≠ [] ∧ s.At .xact .wait) ∧ (∃ s : State, s.rxfifo ≠ [] ∧ s.At .query .wait) :=
  ⟨⟨{ waitingWith [] with rxfifo := [0x55] }, by decide, rfl, rfl, rfl⟩,
    ⟨{ busyWith .query .wait with rxfifo := [0x55] }, by decide, rfl, rfl, rfl⟩⟩

theorem witness_WaitWithoutAByteOnlyWaits :
    (∃ s : State, s.rxfifo = [] ∧ s.At .xact .wait) ∧ (∃ s : State, s.rxfifo = [] ∧ s.At .query .wait) :=
  ⟨⟨waitingWith [], rfl, rfl, rfl, rfl⟩, ⟨busyWith .query .wait, rfl, rfl, rfl, rfl⟩⟩

theorem witness_DeadlineAbandonsTheAttempt :
    (∃ (s : State) (rest : List Event), s.agenda = .deadline :: rest ∧ s.inReset = false ∧ s.phase = .wait ∧
      s.rxfifo = []) ∧
    (∃ (s : State) (rest : List Event), s.agenda = .deadline :: rest ∧ s.inReset = false ∧ s.rxfifo ≠ []) ∧
    (∃ (s : State) (rest : List Event), s.agenda = .deadline :: rest ∧ s.inReset = false ∧ s.phase ≠ .wait) :=
  ⟨⟨waitingWith [.deadline], _, rfl, rfl, rfl, rfl⟩,
    ⟨{ waitingWith [.deadline] with rxfifo := [0x55] }, _, rfl, rfl, by decide⟩,
    ⟨idleWith [.deadline], _, rfl, rfl, by decide⟩⟩

theorem witness_SilentLinkSendsExactlyMaxTries :
    ∃ s : State, s.Inv ∧ s.busy = false ∧ s.inReset = false ∧ s.rxfifo = [] ∧
      s.agenda = [.hostWrite 0x008 4 (cmdWord 0x4 0x33 0x02)] :=
  ⟨idleWith [.hostWrite 0x008 4 (cmdWord 0x4 0x33 0x02)], by constructor <;> decide, rfl, rfl, rfl, rfl⟩

/-- Three bytes; four that do not verify; five that do; six with another echo: in a DECODE and in a QUERY. -/
theorem witness_InvalidFrameCompletesWithTheFirstCause :
    (∃ s : State, s.At .decode .decode ∧ s.rxlen.val = 3) ∧
    (∃ s : State, s.At .query .decode ∧ s.rxlen.val = 4 ∧ verify s.ckord (s.bytesAt 0x200 s.rxlen.val) = false) ∧
    (∃ s : State, s.At .decode .decode ∧ s.rxlen.val = 5 ∧ verify s.ckord (s.bytesAt 0x200 s.rxlen.val) = true) ∧
    (∃ s : State, s.At .query .decode ∧ s.rxlen.val = 6 ∧ verify s.ckord (s.bytesAt 0x200 s.rxlen.val) = true ∧
      s.byteAt 0x205 ≠ s.curReg) :=
  ⟨⟨{ busyWith .decode .decode with rxlen := 3 }, ⟨rfl, rfl, rfl⟩, rfl⟩,
    ⟨withRx (busyWith .query .decode) [0x55, 0xAA, 0x04, 0x25], ⟨rfl, rfl, rfl⟩, by decide, by decide⟩,
    ⟨decoding 0x33 [0x55, 0xAA, 0x33, 0xCC, 0xFF], ⟨rfl, rfl, rfl⟩, by decide, by decide⟩,
    ⟨withRx (busyWith .query .decode 0x33) frameFF, ⟨rfl, rfl, rfl⟩, by decide, by decide, by decide⟩⟩

/-- A DECODE is at its DECODE step. -/
theorem atDecodeStep_decode {s : State} (h : s.At .decode .decode) : s.AtDecodeStep (.decode 0x33 0x02) :=
  .inl ⟨_, _, rfl, h⟩

/-- A QUERY is at its DECODE step. -/
theorem atDecodeStep_query {s : State} (h : s.At .query .decode) : s.AtDecodeStep (.query 0x33 0x02) :=
  .inr ⟨_, _, rfl, h⟩

/-- The DECODE step of a QUERY with a frame in RXBUF. -/
def querying (reg : Byte) (frame : List Byte) : State := withRx (busyWith .query .decode reg) frame

theorem witness_DecodeCompletesOnEveryFrame :
    (decoding 0x33 frame33).AtDecodeStep (.decode 0x33 0x02) ∧ (querying 0x33 frame33).AtDecodeStep (.query 0x33 0x02) :=
  ⟨atDecodeStep_decode ⟨rfl, rfl, rfl⟩, atDecodeStep_query ⟨rfl, rfl, rfl⟩⟩

/-- Ten bytes, and nine: for the three statements on 0x30, 0x33 and 0x34 as well. -/
theorem witness_UnsignedScalarsDecode :
    Instr.decFwver ∈ [Instr.decFwver, .decFactcap, .decActcap, .decRemcapMah, .decRemcapPct, .decHealth] ∧
    10 ≤ (decoding 0x17 frame33).rxlen.val ∧ (decoding 0x17 (frame33.take 9)).rxlen.val < 10 := by decide

theorem witness_StatusBitsDecode :
    10 ≤ (decoding 0x30 frame33).rxlen.val ∧ (decoding 0x30 (frame33.take 9)).rxlen.val < 10 := by decide

theorem witness_CurrentDecodesSignedAndIsCached :
    10 ≤ (decoding 0x33 frame33).rxlen.val ∧ (decoding 0x33 (frame33.take 9)).rxlen.val < 10 := by decide

theorem witness_VoltageDecodesScaled :
    10 ≤ (decoding 0x34 frame34).rxlen.val ∧ (decoding 0x34 (frame34.take 9)).rxlen.val < 10 := by decide

/-- DV-DE-13b: six bytes, in a DECODE and in a QUERY. -/
theorem witness_UnlistedRegisterCodeIsIgnored :
    ∀ s ∈ [decoding 0xFF frameFF, querying 0xFF frameFF], (∃ i, s.AtDecodeStep i) ∧ 6 ≤ s.rxlen.val ∧
      verify s.ckord (s.bytesAt 0x200 s.rxlen.val) = true ∧ s.byteAt 0x205 = s.curReg ∧
      s.curReg.toNat ∉ 0x10 :: 0x40 :: scalarCodes := by
  intro s h
  simp only [List.mem_cons, List.not_mem_nil, or_false] at h
  rcases h with rfl | rfl
  · exact ⟨⟨_, atDecodeStep_decode ⟨rfl, rfl, rfl⟩⟩, by decide⟩
  · exact ⟨⟨_, atDecodeStep_query ⟨rfl, rfl, rfl⟩⟩, by decide⟩

/-- The codes 0x33, 0x34 and 0x30, the last in a QUERY. -/
theorem witness_DecodeOfAScalarFrame :
    ∀ s ∈ [decoding 0x33 frame33, decoding 0x34 frame34,
        querying 0x30 [0x55, 0xAA, 0x04, 0x25, 0x04, 0x30, 0x05, 0x80, 0x1D, 0xFF]],
      (∃ i, s.AtDecodeStep i) ∧ 10 ≤ s.rxlen.val ∧ verify s.ckord (s.bytesAt 0x200 s.rxlen.val) = true ∧
        s.byteAt 0x205 = s.curReg ∧ s.curReg.toNat ∈ scalarCodes := by
  intro s h
  simp only [List.mem_cons, List.not_mem_nil, or_false] at h
  rcases h with rfl | rfl | rfl
  · exact ⟨⟨_, atDecodeStep_decode ⟨rfl, rfl, rfl⟩⟩, by decide⟩
  · exact ⟨⟨_, atDecodeStep_decode ⟨rfl, rfl, rfl⟩⟩, by decide⟩
  · exact ⟨⟨_, atDecodeStep_query ⟨rfl, rfl, rfl⟩⟩, by decide⟩

/-- DV-DE-16, eight bytes, in a DECODE, and DV-DE-17, nine bytes, in a QUERY. -/
theorem witness_ShortScalarFrameIsTruncated :
    ∀ s ∈ [decoding 0x33 [0x55, 0xAA, 0x02, 0x25, 0x04, 0x33, 0xA1, 0xFF],
        querying 0x33 [0x55, 0xAA, 0x03, 0x25, 0x04, 0x33, 0x9C, 0x04, 0xFF]],
      (∃ i, s.AtDecodeStep i) ∧ 6 ≤ s.rxlen.val ∧ s.rxlen.val < 10 ∧
        verify s.ckord (s.bytesAt 0x200 s.rxlen.val) = true ∧ s.byteAt 0x205 = s.curReg ∧
        s.curReg.toNat ∈ scalarCodes := by
  intro s h
  simp only [List.mem_cons, List.not_mem_nil, or_false] at h
  rcases h with rfl | rfl
  · exact ⟨⟨_, atDecodeStep_decode ⟨rfl, rfl, rfl⟩⟩, by decide⟩
  · exact ⟨⟨_, atDecodeStep_query ⟨rfl, rfl, rfl⟩⟩, by decide⟩

/-- Two states that agree on the frame and differ beside it, one in a DECODE and one in a QUERY. -/
theorem witness_DecodeDependsOnTheFrameAlone :
    ∃ (s u : State) (i j : Instr), s.AtDecodeStep i ∧ u.AtDecodeStep j ∧ s ≠ u ∧ u.rxlen = s.rxlen ∧
      u.curReg = s.curReg ∧ u.ckord = s.ckord ∧ u.celloff = s.celloff ∧
      u.bytesAt 0x200 s.rxlen.val = s.bytesAt 0x200 s.rxlen.val :=
  ⟨decoding 0x33 frame33, { querying 0x33 frame33 with tlmValue := 7, txlen := 3 }, _, _,
    atDecodeStep_decode ⟨rfl, rfl, rfl⟩, atDecodeStep_query ⟨rfl, rfl, rfl⟩, by decide, rfl, rfl, rfl, rfl, rfl⟩

/-- No retry, and the most. -/
theorem witness_QueryEqualsEncodeXactDecode :
    State.reset.Inv ∧ State.reset.busy = false ∧ State.reset.inReset = false ∧ State.reset.rxfifo = [] ∧
      frame33 ≠ [] ∧ 0 < State.reset.maxTries.toNat ∧ 19 < State.reset.maxTries.toNat :=
  ⟨by constructor <;> decide, rfl, rfl, rfl, by decide, by decide, by decide⟩

theorem witness_SilentQueryTimesOutWithoutDecode :
    ∃ s : State, s.Inv ∧ s.busy = false ∧ s.inReset = false ∧ s.rxfifo = [] ∧
      s.agenda = [.hostWrite 0x008 4 (cmdWord 0x6 0x33 0x02)] :=
  ⟨idleWith [.hostWrite 0x008 4 (cmdWord 0x6 0x33 0x02)], by constructor <;> decide, rfl, rfl, rfl, rfl⟩

/-- No byte, a padded word, and a full buffer. -/
theorem witness_LdrxPresentsTheFrame :
    ∀ bytes ∈ [[], frameFF, List.replicate 256 (0 : Byte)],
      (idleWith (hostProgram [.ldrx bytes] ++ [.engine])).agenda = hostProgram [.ldrx bytes] ++ [.engine] ∧
        (idleWith (hostProgram [.ldrx bytes] ++ [.engine])).inReset = false ∧
        (idleWith (hostProgram [.ldrx bytes] ++ [.engine])).busy = false ∧ bytes.length ≤ 256 := by
  intro bytes h
  refine ⟨rfl, rfl, rfl, ?_⟩
  simp only [List.mem_cons, List.not_mem_nil, or_false] at h
  rcases h with rfl | rfl | rfl
  · decide
  · decide
  · exact le_of_eq List.length_replicate

theorem witness_WaitDoneEndsWithDone :
    (∃ (s : State) (rest : List Event), s.Inv ∧ s.agenda = .waitDone :: rest ∧ s.inReset = false ∧ s.done = true) ∧
    (∃ (s : State) (rest : List Event), s.Inv ∧ s.agenda = .waitDone :: rest ∧ s.inReset = false ∧ s.done = false) :=
  ⟨⟨{ idleWith [.waitDone] with done := true }, _, by constructor <;> decide, rfl, rfl, rfl⟩,
    ⟨waitingWith [.waitDone], _, by constructor <;> decide, rfl, rfl, rfl⟩⟩

theorem witness_StepKeepsTheInvariant : ∃ s t : State, s.Inv ∧ step s = .next t :=
  ⟨waitingWith [.engine], _, by constructor <;> decide, rfl⟩

theorem witness_OnlyBusErrorsStopTheMachine :
    (∃ s t : State, s.Inv ∧ step s = .next t) ∧
    (∃ (s : State) (off : Offset), s.Inv ∧ step s = .fault (.hostBusError off)) :=
  ⟨⟨waitingWith [.engine], _, by constructor <;> decide, rfl⟩,
    ⟨idleWith [.hostRead 0x002 4], _, by constructor <;> decide, rfl⟩⟩

theorem witness_ResetLeavesTheResetState :
    ∃ (s : State) (rest : List Event), s.agenda = .resetAssert :: .resetRelease :: rest ∧ s.busy = true :=
  ⟨waitingWith [.resetAssert, .resetRelease], _, rfl, rfl⟩

theorem witness_UnderResetNothingTakesEffect :
    ∃ (s : State) (e : Event) (rest : List Event), s.inReset = true ∧ s.agenda = e :: rest ∧
      (∀ bytes, e ≠ .peerDeliver bytes) ∧ (∀ count, e ≠ .peerConsume count) ∧ e ≠ .resetAssert ∧
      e ≠ .resetRelease :=
  ⟨{ idleWith [.hostWrite 0x008 4 1] with inReset := true }, _, _, rfl, rfl, by simp, by simp, by decide, by decide⟩

/-- A step in DECODE, and one in another phase. -/
theorem witness_CacheIsWrittenOnlyByDecode :
    (∃ s t : State, step s = .next t ∧ s.agenda.head? ≠ some .resetAssert ∧ s.busy = true ∧ s.phase = .decode) ∧
    (∃ s t : State, step s = .next t ∧ s.agenda.head? ≠ some .resetAssert ∧ s.phase = .wait) :=
  ⟨⟨{ busyWith .decode .decode with agenda := [.engine] }, _, rfl, by decide, rfl, rfl⟩,
    ⟨waitingWith [.engine], _, rfl, by decide, rfl⟩⟩

/-- A delivery and a consumption under reset, and a step of another event. -/
theorem witness_LinkIsFifoBothWays :
    (∃ (s : State) (bytes : List Byte) (rest : List Event), s.agenda = .peerDeliver bytes :: rest ∧ s.inReset = true) ∧
    (∃ (s : State) (count : Nat) (rest : List Event), s.agenda = .peerConsume count :: rest ∧ s.inReset = true) ∧
    (∃ s t : State, step s = .next t ∧ (∀ bytes, s.agenda.head? ≠ some (.peerDeliver bytes)) ∧
      ∀ count, s.agenda.head? ≠ some (.peerConsume count)) :=
  ⟨⟨{ idleWith [.peerDeliver [1]] with inReset := true }, _, _, rfl, rfl⟩,
    ⟨{ idleWith [.peerConsume 1] with inReset := true }, _, _, rfl, rfl⟩,
    ⟨waitingWith [.engine], _, rfl, by simp [waitingWith], by simp [waitingWith]⟩⟩

theorem witness_ResultsStayWhileIdle :
    ∃ s t : State, s.Inv ∧ s.busy = false ∧ step s = .next t ∧
      (∀ off width v, s.agenda.head? ≠ some (.hostWrite off width v)) ∧ s.agenda.head? ≠ some .resetAssert :=
  ⟨idleWith [.deadline], _, by constructor <;> decide, rfl, rfl, by simp [idleWith], by decide⟩

end Sys2Proof.Tests
end

section
/-! SUPPORT. What a performed host write may leave (20_memory.md R73, R76), and the two engine steps that store a
block. -/

namespace Sys2Proof.Machine

/-! ## A host write -/

/-- What a host write of any offset but CMD's may leave: the fields it writes, and the memory it writes. -/
structure HostWriteEffect (s t : State) : Prop where
  frame : t = { s with
    ie := t.ie, ckord := t.ckord, celloff := t.celloff, done := t.done, ovf := t.ovf
    cfgLen := t.cfgLen, cfgAddr := t.cfgAddr, cfgFcmd := t.cfgFcmd, timeoutMs := t.timeoutMs
    maxTries := t.maxTries, txlen := t.txlen, rxlen := t.rxlen, mem := t.mem }
  maxTries : s.busy = true → t.maxTries = s.maxTries
  bytes : ∀ x, ¬ (0x100 ≤ x ∧ x < 0x300) → t.byteAt x = s.byteAt x
  wf : s.mem.wf = true → t.mem.wf = true
  buffers : s.mem.onlyBuffers = true → t.mem.onlyBuffers = true

/-- A write that reaches no buffer. -/
theorem HostWriteEffect.of_registers {s t : State}
    (frame : t = { s with
      ie := t.ie, ckord := t.ckord, celloff := t.celloff, done := t.done, ovf := t.ovf
      cfgLen := t.cfgLen, cfgAddr := t.cfgAddr, cfgFcmd := t.cfgFcmd, timeoutMs := t.timeoutMs
      maxTries := t.maxTries, txlen := t.txlen, rxlen := t.rxlen })
    (maxTries : s.busy = true → t.maxTries = s.maxTries) : HostWriteEffect s t := by
  have hm : t.mem = s.mem := by rw [frame]
  have he : t.epoch = s.epoch := by rw [frame]
  refine ⟨?_, maxTries, fun x _ => State.byteAt_congr hm he x, ?_, ?_⟩
  · rw [hm]; exact frame
  · rw [hm]; exact id
  · rw [hm]; exact id

/-- A word written into TXBUF or RXBUF. -/
theorem HostWriteEffect.of_store (s : State) {off : Offset} (h4 : off.toNat % 4 = 0)
    (hr : regionAt off = .txbuf ∨ regionAt off = .rxbuf) (v : Word) :
    HostWriteEffect s (s.store off.toNat (wordBytes v)) := by
  have hrange := range_of_regionAt hr
  have hlen : (wordBytes v).length = 4 := rfl
  refine ⟨rfl, fun _ => rfl, fun x hx => State.byteAt_store_outside _ _ _ _ (by omega),
    Memory.wf_writeList _ _, fun hm => Memory.onlyBuffers_writeList _ _ hm fun i hi => ?_⟩
  exact (isBufferOffset_iff _).mpr (by omega)

theorem memWriteIdle_effect {s : State} {off : Offset} (hb : s.busy = false) (h4 : off.toNat % 4 = 0) (v : Word) :
    HostWriteEffect s (s.memWriteIdle off v) := by
  have idle : ∀ t : State, s.busy = true → t.maxTries = s.maxTries := by simp [hb]
  unfold State.memWriteIdle
  split
  case h_7 hr => exact .of_store s h4 (.inl hr) v
  case h_8 hr => exact .of_store s h4 (.inr hr) v
  all_goals exact .of_registers rfl (idle _)

theorem memWriteBusy_effect (s : State) (off : Offset) (v : Word) : HostWriteEffect s (s.memWriteBusy off v) := by
  unfold State.memWriteBusy
  split <;> exact .of_registers rfl fun _ => rfl

/-! ## The two engine steps that store a block -/

theorem State.encodeStep_frame (s : State) : s.encodeStep = { s with
    txlen := s.encodeStep.txlen, ckv := s.encodeStep.ckv, mem := s.mem.writeList txBase s.requestFrame
    err := s.encodeStep.err, phase := s.encodeStep.phase, busy := s.encodeStep.busy, done := s.encodeStep.done
    curOp := s.encodeStep.curOp } := by
  by_cases h : s.curOp = .encode <;> simp only [State.encodeStep, h, if_true, if_false] <;> rfl

theorem State.captureStep_frame (s : State) : s.captureStep = { s with
    rxlen := captureLen s.rxfifo.length, timer := .stopped, mem := s.mem.writeList rxBase s.captured
    rxfifo := s.rxfifo.drop 256
    err := s.captureStep.err, phase := s.captureStep.phase, busy := s.captureStep.busy, done := s.captureStep.done
    curOp := s.captureStep.curOp } := by
  by_cases h : s.curOp = .xact <;> simp only [State.captureStep, h, if_true, if_false] <;> rfl

theorem State.length_requestFrame (s : State) : s.requestFrame.length = 9 := by
  simp [State.requestFrame, State.requestBody]

theorem State.byteAt_encodeStep (s : State) (x : Nat) :
    s.encodeStep.byteAt x = (s.store txBase s.requestFrame).byteAt x := by
  rw [s.encodeStep_frame]
  rfl

theorem State.byteAt_captureStep (s : State) (x : Nat) :
    s.captureStep.byteAt x = (s.store rxBase s.captured).byteAt x := by
  rw [s.captureStep_frame]
  rfl

end Sys2Proof.Machine
end

section
/-! PROOFS. Every step keeps the invariant: its part about the stored data, its part about the engine, and each kind of
step of `step_effect`. -/

namespace Sys2Proof.Machine

/-! ## The invariant in two parts -/

/-- The part of the invariant that does not speak of the engine. -/
structure State.DataInv (s : State) : Prop where
  tcount_le : s.tcount ≤ 248
  cslen_le : s.cslen ≤ 248
  mem_wf : s.mem.wf = true
  mem_buffers : s.mem.onlyBuffers = true

theorem State.Inv.data {s : State} (h : s.Inv) : s.DataInv := ⟨h.tcount_le, h.cslen_le, h.mem_wf, h.mem_buffers⟩

/-- The data part depends on TCOUNT, CSLEN and the memory alone. -/
theorem State.DataInv.congr {s t : State} (h : s.DataInv) (htc : t.tcount = s.tcount) (hcs : t.cslen = s.cslen)
    (hm : t.mem = s.mem) : t.DataInv :=
  ⟨htc ▸ h.tcount_le, hcs ▸ h.cslen_le, hm ▸ h.mem_wf, hm ▸ h.mem_buffers⟩

theorem State.DataInv.store {s : State} (h : s.DataInv) {base : Nat} {bs : List Byte}
    (hb : ∀ i, i < bs.length → isBufferOffset (base + i) = true) : (s.store base bs).DataInv :=
  ⟨h.tcount_le, h.cslen_le, Memory.wf_writeList _ _ h.mem_wf, Memory.onlyBuffers_writeList _ _ h.mem_buffers hb⟩

theorem State.DataInv.clearTlm {s : State} (h : s.DataInv) : s.clearTlm.DataInv :=
  ⟨by simp, h.cslen_le, h.mem_wf, h.mem_buffers⟩

theorem State.DataInv.atDispatch {s : State} (h : s.DataInv) : s.atDispatch.DataInv :=
  h.clearTlm.congr rfl rfl rfl

/-- An idle engine needs no more than the data part. -/
theorem State.Inv.of_idle {s : State} (hb : s.busy = false) (hp : s.phase = .idle) (ho : s.curOp = .none)
    (ht : s.timer = .stopped) (hd : s.DataInv) : s.Inv where
  busy_iff := by simp [hb, hp]
  phase_mem := by simp [hp, ho, Op.phases]
  timer_iff := by simp [ht, hp]
  tries_le := by simp [hb]
  reset_idle := fun _ => hp
  tcount_le := hd.tcount_le
  cslen_le := hd.cslen_le
  mem_wf := hd.mem_wf
  mem_buffers := hd.mem_buffers

/-- What a busy engine needs beside the data part. -/
theorem State.Inv.of_busy {s : State} (hr : s.inReset = false) (hb : s.busy = true) (hi : s.phase ≠ .idle)
    (hp : s.phase ∈ s.curOp.phases) (ht : s.timer = .running ↔ s.phase = .wait) (hn : s.tries ≤ s.maxTries)
    (hd : s.DataInv) : s.Inv where
  busy_iff := by simp [hb, hi]
  phase_mem := hp
  timer_iff := ht
  tries_le := fun _ => hn
  reset_idle := by simp [hr]
  tcount_le := hd.tcount_le
  cslen_le := hd.cslen_le
  mem_wf := hd.mem_wf
  mem_buffers := hd.mem_buffers

theorem State.Inv.timer_stopped {s : State} (h : s.Inv) (hp : s.phase ≠ .wait) : s.timer = .stopped := by
  cases ht : s.timer with
  | stopped => rfl
  | running => exact absurd (h.timer_iff.mp ht) hp

theorem State.Inv.not_inReset {s : State} (h : s.Inv) (hp : s.phase ≠ .idle) : s.inReset = false := by
  cases hr : s.inReset with
  | false => rfl
  | true => exact absurd (h.reset_idle hr) hp

theorem State.Inv.idle {s : State} (h : s.Inv) (hb : s.busy = false) : s.phase = .idle := by
  by_contra hp
  simp [h.busy_iff.mpr hp] at hb

/-- A completion outside WAIT leaves an idle engine. -/
theorem State.DataInv.complete_inv {s : State} (h : s.DataInv) (ht : s.timer = .stopped) (e : Cause) :
    (s.complete e).Inv :=
  .of_idle rfl rfl rfl ht (h.congr rfl rfl rfl)

/-! ## The phases of an operation -/

theorem Op.firstPhase_mem {op : Op} (h : op ≠ .none) :
    op.firstPhase ∈ op.phases ∧ op.firstPhase ≠ .idle ∧ op.firstPhase ≠ .wait := by
  cases op
  case none => exact absurd rfl h
  all_goals decide

/-- SEND and WAIT are phases of the same operations (42_transport.md R180). -/
theorem Op.send_mem_iff_wait_mem (op : Op) : Phase.send ∈ op.phases ↔ Phase.wait ∈ op.phases := by
  cases op <;> decide

/-! ## The engine's steps -/

theorem State.Inv.encodeStep {s : State} (h : s.Inv) (hb : s.busy = true) (hp : s.phase = .encode)
    (ho : s.curOp = .encode ∨ s.curOp = .query) : s.encodeStep.Inv := by
  have hlen := s.length_requestFrame
  have hd : (s.store txBase s.requestFrame).DataInv :=
    h.data.store fun i hi => (isBufferOffset_iff _).mpr (by simp only [txBase]; omega)
  have ht : s.timer = .stopped := h.timer_stopped (by simp [hp])
  have hf : s.buildFrame.DataInv := hd.congr rfl rfl rfl
  unfold State.encodeStep
  split
  · exact hf.complete_inv ht _
  · rename_i hne
    have ho : s.curOp = .query := by simpa [hne] using ho
    refine .of_busy (h.not_inReset (by simp [hp])) hb (by simp) ?_ ?_ (h.tries_le hb) (hf.congr rfl rfl rfl)
    · show Phase.send ∈ s.curOp.phases
      rw [ho]
      decide
    · simp [State.buildFrame, ht]

theorem State.Inv.captureStep {s : State} (h : s.Inv) (hb : s.busy = true) (hp : s.phase = .wait)
    (ho : s.curOp = .xact ∨ s.curOp = .query) : s.captureStep.Inv := by
  have hlen := s.length_captured
  have hd : (s.store rxBase s.captured).DataInv :=
    h.data.store fun i hi => (isBufferOffset_iff _).mpr (by simp only [rxBase]; omega)
  unfold State.captureStep
  split
  · refine State.DataInv.complete_inv ?_ ?_ _
    · exact hd.congr rfl rfl rfl
    · rfl
  · rename_i hne
    have ho : s.curOp = .query := by simpa [hne] using ho
    refine .of_busy (h.not_inReset (by simp [hp])) hb (by simp) ?_ (by simp) (h.tries_le hb)
      (hd.congr rfl rfl rfl)
    show Phase.decode ∈ s.curOp.phases
    rw [ho]
    decide

theorem State.Inv.push {s : State} (h : s.Inv) (hb : s.busy = true) (hp : s.phase = .send)
    (ht : s.tries.toNat < s.maxTries.toNat) :
    State.Inv { s.txPush s.txSpan with tries := s.tries + 1, phase := .wait, timer := .running } := by
  refine .of_busy (h.not_inReset (by simp [hp])) hb (by simp) ?_ (by simp) ?_
    (h.data.congr rfl rfl rfl)
  · exact (Op.send_mem_iff_wait_mem _).mp (hp ▸ h.phase_mem)
  · show s.tries + 1 ≤ s.maxTries
    rw [BitVec.le_def, toNat_tries_succ ht]
    omega

/-- A decoder ends the operation and keeps the data part. -/
theorem DecoderEffect.inv {a t : State} (he : DecoderEffect a t) (ht : a.timer = .stopped) (hd : a.DataInv) : t.Inv :=
  .of_idle (by rw [he.frame]) (by rw [he.frame]) (by rw [he.frame]) (by rw [he.frame]; exact ht)
    ⟨he.tcount_le hd.tcount_le, he.cslen_le hd.cslen_le, he.wf hd.mem_wf, he.buffers hd.mem_buffers⟩

theorem EngineEffect.inv {s t : State} (he : EngineEffect s t) (h : s.Inv) (hb : s.busy = true) : t.Inv := by
  have ht : s.phase ≠ .wait → s.timer = .stopped := h.timer_stopped
  cases he with
  | ckcomp hp =>
    have hd : State.DataInv { s with ckv := ck16 s.txSpan } := h.data.congr rfl rfl rfl
    exact hd.complete_inv (ht (by simp [hp])) _
  | ckver hp => exact h.data.complete_inv (ht (by simp [hp])) _
  | encode hp ho => exact h.encodeStep hb hp ho
  | push hp hn => exact h.push hb hp hn
  | exhausted hp => exact h.data.complete_inv (ht (by simp [hp])) _
  | waiting => exact h
  | capture hp _ ho => exact h.captureStep hb hp ho
  | invalid hp e => exact h.data.clearTlm.complete_inv (ht (by simp [hp])) e
  | decoded hp _ hd => exact hd.inv (ht (by simp [hp])) h.data.atDispatch

theorem State.Inv.expireStep {s : State} (h : s.Inv) (hp : s.phase = .wait) : s.expireStep.Inv := by
  have hb : s.busy = true := h.busy_iff.mpr (by simp [hp])
  refine .of_busy (h.not_inReset (by simp [hp])) hb (by simp) ?_ (by simp) (h.tries_le hb)
    (h.data.congr rfl rfl rfl)
  exact (Op.send_mem_iff_wait_mem _).mpr (hp ▸ h.phase_mem)

theorem MachineEffect.inv {s t : State} (he : MachineEffect s t) (h : s.Inv) : t.Inv := by
  cases he with
  | none => exact h
  | engine _ hb _ he => exact he.inv h hb
  | expire _ hp => exact h.expireStep hp

/-! ## The other events -/

/-- The invariant does not speak of the agenda, the last read word, DONE, OVF, ERR and the link. -/
theorem State.Inv.congr {s : State} (h : s.Inv) (agenda : List Event) (hostData : Word) (done ovf : Bool) (err : Cause)
    (txchan rxfifo : List Byte) :
    State.Inv { s with
      agenda := agenda, hostData := hostData, done := done, ovf := ovf, err := err
      txchan := txchan, rxfifo := rxfifo } :=
  ⟨h.busy_iff, h.phase_mem, h.timer_iff, h.tries_le, h.reset_idle, h.tcount_le, h.cslen_le, h.mem_wf, h.mem_buffers⟩

theorem State.Inv.withAgenda {s : State} (h : s.Inv) (es : List Event) : (s.withAgenda es).Inv :=
  h.congr es _ _ _ _ _ _

theorem State.Inv.hear {s : State} (h : s.Inv) (w : Word) : (s.hear w).Inv := h.congr _ w _ _ _ _ _

/-- A host write changes MAX_TRIES of an idle engine only. -/
theorem HostWriteEffect.inv {s t : State} (he : HostWriteEffect s t) (h : s.Inv) : t.Inv := by
  have hn : s.busy = true → s.tries ≤ t.maxTries := fun hb => by rw [he.maxTries hb]; exact h.tries_le hb
  have hw := he.wf h.mem_wf
  have hm := he.buffers h.mem_buffers
  rw [he.frame]
  exact ⟨h.busy_iff, h.phase_mem, h.timer_iff, hn, h.reset_idle, h.tcount_le, h.cslen_le, hw, hm⟩

theorem State.Inv.accept {s : State} (h : s.Inv) (hr : s.inReset = false) (hb : s.busy = false) {op : Op}
    (ho : op ≠ .none) (r p : Byte) : (s.accept op r p).Inv := by
  obtain ⟨hmem, hidle, hwait⟩ := Op.firstPhase_mem ho
  have ht : s.timer = .stopped := h.timer_stopped (by simp [h.idle hb])
  exact .of_busy hr rfl hidle hmem (by simp [ht, hwait]) (by simp [BitVec.le_def])
    (h.data.congr rfl rfl rfl)

theorem State.assertReset_inv (s : State) : s.assertReset.Inv :=
  .of_idle rfl rfl rfl rfl ⟨by simp, by simp, rfl, rfl⟩

theorem State.Inv.releaseReset {s : State} (h : s.Inv) : s.releaseReset.Inv :=
  ⟨h.busy_iff, h.phase_mem, h.timer_iff, h.tries_le, by simp, h.tcount_le, h.cslen_le, h.mem_wf, h.mem_buffers⟩

theorem MoveEffect.inv {s t : State} {e : Event} (he : MoveEffect s e t) (h : s.Inv) : t.Inv := by
  cases he with
  | held => exact h
  | read off width => exact h.hear _
  | writeBusy off width v => exact (memWriteBusy_effect s off v).inv h
  | writeIdle off width v _ hb h4 => exact (memWriteIdle_effect hb h4 v).inv h
  | accept off width v hr hb op ho r p => exact h.accept hr hb ho r p
  | reject => exact h.congr _ _ true _ .illegalCmd _ _
  | waitOver => exact h.hear _
  | waitOn _ he => exact he.inv ((h.hear _).withAgenda _)
  | engine _ he => exact he.inv h
  | deadline _ he => exact he.inv h
  | deliver bytes => exact h.congr _ _ _ _ _ _ (s.rxfifo ++ bytes)
  | consume count => exact h.congr _ _ _ _ _ (s.txchan.drop count) _
  | assert => exact s.assertReset_inv
  | release => exact h.releaseReset

/-- Settles O52: each kind of step of `step_effect` keeps the invariant. -/
theorem stepKeepsTheInvariant : Obligations.StepKeepsTheInvariant := by
  unfold Obligations.StepKeepsTheInvariant
  intro s t h hs
  obtain ⟨-, he⟩ | ⟨e, rest, -, he⟩ := step_effect hs
  · exact he.inv h
  · exact he.inv (h.withAgenda rest)

end Sys2Proof.Machine
end

section
/-! PROOFS. The register words, as numbers and after a host write (10_state.md R31 to R44, 20_memory.md R72, R73). -/

namespace Sys2Proof.Machine

/-! ## The words as numbers -/

theorem toNat_ctrlWord (s : State) :
    s.ctrlWord.toNat = s.ie.toNat + 2 * s.ckord.toNat + 4 * s.celloff.toNat := by
  simp only [State.ctrlWord, toNat_append_add, toNat_ofBool_eq, BitVec.toNat_ofNat]
  omega

theorem toNat_statusWord (s : State) :
    s.statusWord.toNat = s.busy.toNat + 2 * s.done.toNat + 4 * s.ovf.toNat + 0x10 * s.err.code.toNat +
      0x100 * s.tries.toNat + 0x10000 * s.phase.code.toNat := by
  simp only [State.statusWord, toNat_append_add, toNat_ofBool_eq, BitVec.toNat_ofNat]
  omega

theorem toNat_framecfgWord (s : State) :
    s.framecfgWord.toNat = s.cfgLen.toNat + 0x100 * s.cfgAddr.toNat + 0x10000 * s.cfgFcmd.toNat := by
  simp only [State.framecfgWord, toNat_append_add, BitVec.toNat_ofNat]
  omega

theorem toNat_timingWord (s : State) :
    s.timingWord.toNat = s.timeoutMs.toNat + 0x10000 * s.maxTries.toNat := by
  simp only [State.timingWord, toNat_append_add, BitVec.toNat_ofNat]
  omega

theorem toNat_tlmInfoWord (s : State) :
    s.tlmInfoWord.toNat = s.treg.toNat + 0x100 * s.tvalid.toNat + 0x10000 * s.tcount.toNat := by
  simp only [State.tlmInfoWord, toNat_append_add, toNat_ofBool_eq, BitVec.toNat_ofNat]
  omega

theorem toNat_cacheInfoWord (s : State) :
    s.cacheInfoWord.toNat = s.civ.toNat + 2 * s.csv.toNat + 0x100 * s.cslen.toNat := by
  simp only [State.cacheInfoWord, toNat_append_add, toNat_ofBool_eq, BitVec.toNat_ofNat]
  omega

theorem toNat_lengthWord (n : Fin 257) : (BitVec.ofNat 32 n.val).toNat = n.val := by
  rw [BitVec.toNat_ofNat]
  omega

/-- Settles O10: each offset reads as its word, and each word is the number its fields make. -/
theorem registerWordsAreTheirFields : Obligations.RegisterWordsAreTheirFields := by
  unfold Obligations.RegisterWordsAreTheirFields
  exact ⟨rfl, rfl, fun s => ⟨toNat_ctrlWord s, toNat_statusWord s, rfl, toNat_framecfgWord s, toNat_timingWord s,
    toNat_zext32 s.ckv, toNat_lengthWord s.txlen, toNat_lengthWord s.rxlen, toNat_tlmInfoWord s, rfl,
    toNat_zext32 s.tlmRaw, toNat_zext32 s.tlmFlags, rfl, toNat_cacheInfoWord s⟩⟩

/-! ## The words after a write -/

theorem toNat_clampLen (v : Word) : (clampLen v).val = min (v.toNat % 512) 256 := by
  simp [clampLen]

theorem ctrlWord_writeCtrl (s : State) (v : Word) : (s.writeCtrl v).ctrlWord = v &&& 0x00000007 := by
  apply BitVec.eq_of_getLsbD_eq
  intro i hi
  simp only [State.ctrlWord, State.writeCtrl, BitVec.getLsbD_append, BitVec.getLsbD_and]
  interval_cases i <;> simp

theorem framecfgWord_writeFramecfg (s : State) (v : Word) :
    (s.writeFramecfg v).framecfgWord = v &&& 0x00FFFFFF := by
  apply BitVec.eq_of_getLsbD_eq
  intro i hi
  simp only [State.framecfgWord, State.writeFramecfg, BitVec.getLsbD_append, BitVec.getLsbD_and,
    BitVec.getLsbD_extractLsb']
  interval_cases i <;> simp

theorem timingWord_writeTiming (s : State) (v : Word) : (s.writeTiming v).timingWord = v &&& 0x00FFFFFF := by
  apply BitVec.eq_of_getLsbD_eq
  intro i hi
  simp only [State.timingWord, State.writeTiming, BitVec.getLsbD_append, BitVec.getLsbD_and,
    BitVec.getLsbD_extractLsb']
  interval_cases i <;> simp

/-- A host write of an idle engine, at any offset but CMD's, as a step. -/
theorem step_hostWrite_idle {s : State} {off : Offset} {v : Word} {rest : List Event}
    (h : s.agenda = .hostWrite off 4 v :: rest) (hr : s.inReset = false) (hb : s.busy = false)
    (h4 : off.toNat % 4 = 0) (hc : regionAt off ≠ .cmd) :
    step s = .next ((s.withAgenda rest).memWriteIdle off v) := by
  rw [step_hostWrite h hr h4, if_neg (by simp [hb]), if_neg hc]

/-- Settles O14: the write stores the defined fields, and the register's word is then the masked word. -/
theorem registerWriteReadsBack : Obligations.RegisterWriteReadsBack := by
  unfold Obligations.RegisterWriteReadsBack
  intro s v rest hr hb
  have written : ∀ off : Offset, off.toNat % 4 = 0 → regionAt off ≠ .cmd →
      step { s with agenda := .hostWrite off 4 v :: rest } = .next ((s.withAgenda rest).memWriteIdle off v) :=
    fun off => step_hostWrite_idle (s := { s with agenda := .hostWrite off 4 v :: rest }) rfl hr hb
  refine ⟨⟨_, written 0x000 (by decide) (by decide), rfl, ?_⟩,
    ⟨_, written 0x00C (by decide) (by decide), rfl, ?_⟩,
    ⟨_, written 0x010 (by decide) (by decide), rfl, ?_⟩,
    ⟨_, written 0x018 (by decide) (by decide), rfl, toNat_clampLen v⟩,
    ⟨_, written 0x01C (by decide) (by decide), rfl, toNat_clampLen v⟩⟩
  · exact ctrlWord_writeCtrl (s.withAgenda rest) v
  · exact framecfgWord_writeFramecfg (s.withAgenda rest) v
  · exact timingWord_writeTiming (s.withAgenda rest) v

end Sys2Proof.Machine
end

section
/-! PROOFS. Who changes the latest-value cache (10_state.md R44) and who changes the link (10_state.md R50). -/

namespace Sys2Proof.Machine

/-! ## The cache -/

/-- The cache registers and the bytes of CACHE_SN are as they were. -/
def State.SameCache (s t : State) : Prop :=
  t.cacheI = s.cacheI ∧ t.civ = s.civ ∧ t.csv = s.csv ∧ t.cslen = s.cslen ∧
    ∀ k, k < 248 → t.byteAt (0x500 + k) = s.byteAt (0x500 + k)

/-- What every event but an assertion of reset does to the cache. -/
def State.CacheStep (s t : State) : Prop :=
  (s.civ = true → t.civ = true) ∧ (s.csv = true → t.csv = true) ∧
    (s.busy = true ∧ s.phase = .decode ∨ s.SameCache t)

theorem State.SameCache.cacheStep {s t : State} (h : s.SameCache t) : s.CacheStep t := by
  obtain ⟨-, hciv, hcsv, -, -⟩ := id h
  exact ⟨fun hs => hciv.trans hs, fun hs => hcsv.trans hs, .inr h⟩

theorem State.SameCache.refl (s : State) : s.SameCache s := ⟨rfl, rfl, rfl, rfl, fun _ _ => rfl⟩

theorem HostWriteEffect.sameCache {s t : State} (he : HostWriteEffect s t) : s.SameCache t :=
  ⟨by rw [he.frame], by rw [he.frame], by rw [he.frame], by rw [he.frame], fun k _ => he.bytes _ (by omega)⟩

theorem State.encodeStep_sameCache (s : State) : s.SameCache s.encodeStep := by
  refine ⟨by rw [s.encodeStep_frame], by rw [s.encodeStep_frame], by rw [s.encodeStep_frame],
    by rw [s.encodeStep_frame], fun k _ => ?_⟩
  have hl := s.length_requestFrame
  rw [State.byteAt_encodeStep, State.byteAt_store_outside]
  simp only [txBase]
  omega

theorem State.captureStep_sameCache (s : State) : s.SameCache s.captureStep := by
  refine ⟨by rw [s.captureStep_frame], by rw [s.captureStep_frame], by rw [s.captureStep_frame],
    by rw [s.captureStep_frame], fun k _ => ?_⟩
  have hl := s.length_captured
  rw [State.byteAt_captureStep, State.byteAt_store_outside]
  simp only [rxBase]
  omega

theorem EngineEffect.cacheStep {s t : State} (he : EngineEffect s t) (hb : s.busy = true) : s.CacheStep t := by
  cases he with
  | encode => exact s.encodeStep_sameCache.cacheStep
  | capture => exact s.captureStep_sameCache.cacheStep
  | decoded hp _ hd => exact ⟨hd.civ, hd.csv, .inl ⟨hb, hp⟩⟩
  | ckcomp | ckver | push | exhausted | waiting | invalid => exact (State.SameCache.refl s).cacheStep

theorem MachineEffect.cacheStep {s t : State} (he : MachineEffect s t) : s.CacheStep t := by
  cases he with
  | engine _ hb _ he => exact he.cacheStep hb
  | none | expire => exact (State.SameCache.refl s).cacheStep

theorem MoveEffect.cacheStep {s t : State} {e : Event} (he : MoveEffect s e t) (hne : e ≠ .resetAssert) :
    s.CacheStep t := by
  cases he with
  | writeBusy off width v => exact (memWriteBusy_effect s off v).sameCache.cacheStep
  | writeIdle off width v _ hb h4 => exact (memWriteIdle_effect hb h4 v).sameCache.cacheStep
  | waitOn _ he => exact he.cacheStep
  | engine _ he => exact he.cacheStep
  | deadline _ he => exact he.cacheStep
  | assert => exact absurd rfl hne
  | held | read | accept | reject | waitOver | deliver | consume | release =>
    exact (State.SameCache.refl s).cacheStep

/-- Settles O57: each kind of step of `step_effect` but the assertion of reset is a `CacheStep`. -/
theorem cacheIsWrittenOnlyByDecode : Obligations.CacheIsWrittenOnlyByDecode := by
  unfold Obligations.CacheIsWrittenOnlyByDecode
  intro s t hs hne
  obtain ⟨-, he⟩ | ⟨e, rest, ha, he⟩ := step_effect hs
  · exact he.cacheStep
  · refine he.cacheStep (s := s.withAgenda rest) ?_
    rintro rfl
    simp [ha] at hne

/-! ## The link -/

/-- What every event but the PEER's does to the link: nothing, one whole frame pushed by a SEND step, or the oldest
bytes taken by a CAPTURE. -/
def State.LinkStep (s t : State) : Prop :=
  (t.txchan = s.txchan ∨
    s.inReset = false ∧ s.busy = true ∧ s.phase = .send ∧ t.txchan = s.txchan ++ s.bytesAt 0x100 s.txlen.val) ∧
  (t.rxfifo = s.rxfifo ∨
    s.inReset = false ∧ s.busy = true ∧ s.phase = .wait ∧
      t.rxfifo = s.rxfifo.drop (min s.rxfifo.length 256) ∧ t.rxlen.val = min s.rxfifo.length 256 ∧
      t.bytesAt 0x200 (min s.rxfifo.length 256) = s.rxfifo.take (min s.rxfifo.length 256))

theorem State.LinkStep.of_same {s t : State} (htx : t.txchan = s.txchan) (hrx : t.rxfifo = s.rxfifo) : s.LinkStep t :=
  ⟨.inl htx, .inl hrx⟩

/-- RXBUF holds the captured bytes after a CAPTURE. -/
theorem State.bytesAt_captureStep (s : State) :
    s.captureStep.bytesAt rxBase s.captured.length = s.captured := by
  rw [State.bytesAt_congr fun i _ => s.byteAt_captureStep (rxBase + i), State.bytesAt_store]

theorem State.captureStep_linkStep {s : State} (hr : s.inReset = false) (hb : s.busy = true) (hp : s.phase = .wait) :
    s.LinkStep s.captureStep := by
  have hmin : s.captured.length = min s.rxfifo.length 256 := by rw [State.length_captured, Nat.min_comm]
  have htake : s.captured = s.rxfifo.take (min s.rxfifo.length 256) := by
    rw [Nat.min_comm]
    exact List.take_eq_take_min
  refine ⟨.inl (by rw [s.captureStep_frame]), .inr ⟨hr, hb, hp, ?_, ?_, ?_⟩⟩
  · rw [s.captureStep_frame, Nat.min_comm]
    exact List.drop_eq_drop_min
  · rw [s.captureStep_frame]
    rfl
  · rw [← htake, ← hmin]
    exact s.bytesAt_captureStep

theorem EngineEffect.linkStep {s t : State} (he : EngineEffect s t) (hr : s.inReset = false) (hb : s.busy = true) :
    s.LinkStep t := by
  cases he with
  | encode => exact .of_same (by rw [s.encodeStep_frame]) (by rw [s.encodeStep_frame])
  | push hp => exact ⟨.inr ⟨hr, hb, hp, rfl⟩, .inl rfl⟩
  | capture hp => exact State.captureStep_linkStep hr hb hp
  | decoded _ _ hd => exact .of_same (by rw [hd.frame]; rfl) (by rw [hd.frame]; rfl)
  | ckcomp | ckver | exhausted | waiting | invalid => exact .of_same rfl rfl

theorem MachineEffect.linkStep {s t : State} (he : MachineEffect s t) : s.LinkStep t := by
  cases he with
  | engine hr hb _ he => exact he.linkStep hr hb
  | none | expire => exact .of_same rfl rfl

theorem HostWriteEffect.linkStep {s t : State} (he : HostWriteEffect s t) : s.LinkStep t :=
  .of_same (by rw [he.frame]) (by rw [he.frame])

theorem MoveEffect.linkStep {s t : State} {e : Event} (he : MoveEffect s e t)
    (hd : ∀ bytes, e ≠ .peerDeliver bytes) (hc : ∀ count, e ≠ .peerConsume count) : s.LinkStep t := by
  cases he with
  | writeBusy off width v => exact (memWriteBusy_effect s off v).linkStep
  | writeIdle off width v _ hb h4 => exact (memWriteIdle_effect hb h4 v).linkStep
  | waitOn _ he => exact he.linkStep
  | engine _ he => exact he.linkStep
  | deadline _ he => exact he.linkStep
  | deliver bytes => exact absurd rfl (hd bytes)
  | consume count => exact absurd rfl (hc count)
  | held | read | accept | reject | waitOver | assert | release => exact .of_same rfl rfl

/-- Settles O58: the PEER's two events by what they do, every other kind of step of `step_effect` as a `LinkStep`. -/
theorem linkIsFifoBothWays : Obligations.LinkIsFifoBothWays := by
  unfold Obligations.LinkIsFifoBothWays
  refine ⟨fun s bytes rest ha => step_cons ha, fun s count rest ha => step_cons ha, fun s t hs hd hc => ?_⟩
  obtain ⟨-, he⟩ | ⟨e, rest, ha, he⟩ := step_effect hs
  · exact he.linkStep
  · refine he.linkStep (s := s.withAgenda rest) ?_ ?_
    · rintro bytes rfl
      exact hd bytes (by rw [ha]; rfl)
    · rintro count rfl
      exact hc count (by rw [ha]; rfl)

end Sys2Proof.Machine
end

section
/-! PROOFS. An engine step runs the command its latches hold; a scalar frame that is too short. -/

namespace Sys2Proof.Machine

theorem State.current_of_none {s : State} (h : s.curOp = .none) : s.current = none := by
  simp only [State.current, h]

/-- The latches of an operation encode the command in progress (10_state.md R47, 30_encoding.md R110). -/
theorem State.current_encodes {s : State} (h : s.curOp ≠ .none) :
    ∃ i, s.current = some i ∧ encode i = .cmd (cmdWord s.curOp.code s.curReg s.curPlen) := by
  unfold State.current
  cases ho : s.curOp
  case none => exact absurd ho h
  all_goals exact ⟨_, rfl, rfl⟩

/-- Settles O5: the engine's move by BUSY, and the command the latches hold. -/
theorem engineRunsTheCommandInProgress : Obligations.EngineRunsTheCommandInProgress := by
  unfold Obligations.EngineRunsTheCommandInProgress
  intro s rest ha hr
  rw [step_engine ha hr]
  exact ⟨fun hb => engineMove_idle (s := s.withAgenda rest) hb,
    fun i hb hi => engineMove_busy (s := s.withAgenda rest) hb hi, State.current_of_none, State.current_encodes⟩

/-- The meaning of the instruction at its DECODE step is that step. -/
theorem exec_atDecodeStep {s : State} {i : Instr} (h : s.AtDecodeStep i) : exec i s = s.decodeStep := by
  obtain ⟨r, p, rfl, hb, ho, hp⟩ | ⟨r, p, rfl, hb, ho, hp⟩ := h
  · exact exec_decode_step hb r p ho hp
  · exact exec_query_decode hb r p ho hp

/-- The decoder of a scalar code, by its own writes (43_decode.md R223). -/
theorem exec_scalar_eq {c : Byte} (h : c.toNat ∈ scalarCodes) (a : State) :
    ∃ own, exec (decodeRegCode c) a = .next (a.scalarDecode own) := by
  have hc : c = BitVec.ofNat 8 c.toNat := by simp
  simp only [scalarCodes, List.mem_cons, List.not_mem_nil, or_false] at h
  rcases h with h | h | h | h | h | h | h | h | h <;> rw [h] at hc <;> subst hc <;> exact ⟨_, rfl⟩

/-- Settles O60: the frame passes the validation, and the scalar decoder it reaches finds fewer than ten bytes. -/
theorem shortScalarFrameIsTruncated : Obligations.ShortScalarFrameIsTruncated := by
  unfold Obligations.ShortScalarFrameIsTruncated
  intro s i hi h6 h10 hv hecho hcode
  have hreg : s.rxByte 5 = s.curReg := hecho
  obtain ⟨own, hown⟩ := exec_scalar_eq hcode s.atDispatch
  rw [exec_atDecodeStep hi, decodeStep_ok (frameError_eq_none h6 hv hreg), hreg, hown,
    State.scalarDecode_lt (s := s.atDispatch) h10]
  simp only [State.shortScalar_eq, State.atDispatch, hreg]
  rfl

end Sys2Proof.Machine
end

section
/-! PROOFS. Host accesses as steps (20_memory.md R72 to R78): reads, bus errors, and writes by the place they reach,
idle and busy. -/

namespace Sys2Proof.Machine

/-! ## Accesses the bus does not perform -/

theorem hostReadMove_busError {off : Offset} {width : Nat} (h : width ≠ 4 ∨ off.toNat % 4 ≠ 0) (s : State) :
    hostReadMove off width s = .fault (.hostBusError off) := by
  simp [hostReadMove, accessOk_false h]

theorem hostWriteMove_busError {off : Offset} {width : Nat} (h : width ≠ 4 ∨ off.toNat % 4 ≠ 0) (v : Word)
    (s : State) : hostWriteMove off width v s = .fault (.hostBusError off) := by
  simp [hostWriteMove, accessOk_false h]

/-- Settles O8: out of reset the bus performs neither access. -/
theorem misalignedOrNarrowAccessFaults : Obligations.MisalignedOrNarrowAccessFaults := by
  unfold Obligations.MisalignedOrNarrowAccessFaults
  intro s off width v rest hr hbad
  constructor
  · intro ha
    rw [step_cons ha]
    exact (unlessReset_live (s := s.withAgenda rest) hr _).trans (hostReadMove_busError hbad _)
  · intro ha
    rw [step_cons ha]
    exact (unlessReset_live (s := s.withAgenda rest) hr _).trans (hostWriteMove_busError hbad v _)

/-! ## Reads -/

/-- Settles O9: a performed read only hands its word to the host. -/
theorem readsHaveNoSideEffect : Obligations.ReadsHaveNoSideEffect := by
  unfold Obligations.ReadsHaveNoSideEffect
  intro s off rest ha hr h4
  exact step_hostRead ha hr h4

theorem toNat_bufferWord (s : State) (a : Nat) :
    (s.bufferWord a).toNat = (s.byteAt a).toNat + 0x100 * (s.byteAt (a + 1)).toNat +
      0x10000 * (s.byteAt (a + 2)).toNat + 0x1000000 * (s.byteAt (a + 3)).toNat :=
  toNat_le32 _ _ _ _

theorem toNat_elem (s : State) (k : Nat) :
    (s.elem k).toNat = (s.byteAt (0x300 + 2 * k)).toNat + 0x100 * (s.byteAt (0x300 + 2 * k + 1)).toNat :=
  toNat_le16 _ _

/-- A word of TLM_ELEM is two elements, the lower one in the low half (20_memory.md R72, R78). -/
theorem toNat_bufferWord_elem (s : State) (j : Nat) :
    (s.bufferWord (0x300 + 4 * j)).toNat = (s.elem (2 * j)).toNat + 0x10000 * (s.elem (2 * j + 1)).toNat := by
  rw [toNat_bufferWord, toNat_elem, toNat_elem, show 0x300 + 2 * (2 * j) = 0x300 + 4 * j by omega,
    show 0x300 + 2 * (2 * j + 1) = 0x300 + 4 * j + 2 by omega, Nat.add_assoc _ 2 1]
  omega

/-- Settles O11: a buffer is read as four bytes, low byte first. -/
theorem bufferWordsAreLittleEndian : Obligations.BufferWordsAreLittleEndian := by
  unfold Obligations.BufferWordsAreLittleEndian
  intro s off h4
  refine ⟨fun h => ?_, fun j hj h => ?_⟩
  · rw [memRead_buffer s (by omega), toNat_bufferWord]
  · rw [memRead_buffer s (by omega), h, toNat_bufferWord_elem]

/-! ## Writes that are ignored -/

/-- The places a write to which is ignored, idle or busy (20_memory.md R73, R75, R76). -/
def Region.ignoring : List Region :=
  [.cksum, .tlmInfo, .tlmValue, .tlmRaw, .tlmFlags, .cacheI, .cacheInfo, .tlmElem, .cacheSn, .reserved]

section ignored
variable {off : Offset} (h : regionAt off ∈ Region.ignoring)
include h

theorem regionAt_ne_cmd_of_ignoring : regionAt off ≠ .cmd := by
  intro hc
  rw [hc] at h
  exact absurd h (by decide)

theorem memWriteIdle_of_ignoring (s : State) (v : Word) : s.memWriteIdle off v = s := by
  unfold State.memWriteIdle
  generalize regionAt off = r at h
  fin_cases h <;> rfl

theorem memWriteBusy_of_ignoring (s : State) (v : Word) : s.memWriteBusy off v = s := by
  unfold State.memWriteBusy
  generalize regionAt off = r at h
  fin_cases h <;> rfl

theorem step_hostWrite_of_ignoring {s : State} {v : Word} {rest : List Event}
    (ha : s.agenda = .hostWrite off 4 v :: rest) (hr : s.inReset = false) (h4 : off.toNat % 4 = 0) :
    step s = .next (s.withAgenda rest) := by
  rw [step_hostWrite ha hr h4, if_neg (regionAt_ne_cmd_of_ignoring h), memWriteBusy_of_ignoring h,
    memWriteIdle_of_ignoring h, ite_self]

end ignored

theorem regionAt_readOnly_ignoring {off : Offset} (h4 : off.toNat % 4 = 0)
    (h : off.toNat = 0x014 ∨ 0x020 ≤ off.toNat ∧ off.toNat ≤ 0x034 ∨ 0x300 ≤ off.toNat ∧ off.toNat < 0x4F0 ∨
      0x500 ≤ off.toNat ∧ off.toNat < 0x5F8) : regionAt off ∈ Region.ignoring :=
  List.mem_append_left [Region.reserved] (regionAt_readOnly h4 h)

theorem regionAt_reserved_ignoring {off : Offset}
    (h : 0x038 ≤ off.toNat ∧ off.toNat < 0x100 ∨ 0x4F0 ≤ off.toNat ∧ off.toNat < 0x500 ∨ 0x5F8 ≤ off.toNat) :
    regionAt off ∈ Region.ignoring := by
  rw [regionAt_reserved h]
  decide

theorem memRead_reserved {off : Offset} (h : regionAt off = .reserved) (s : State) : s.memRead off = 0 := by
  simp only [State.memRead, h]

/-- Settles O12: the map has nothing at these offsets. -/
theorem reservedOffsetsReadZeroIgnoreWrites : Obligations.ReservedOffsetsReadZeroIgnoreWrites := by
  unfold Obligations.ReservedOffsetsReadZeroIgnoreWrites
  intro s off v rest hr h4 hres
  constructor
  · intro ha
    rw [step_hostRead ha hr h4, memRead_reserved (regionAt_reserved hres)]
    rfl
  · intro ha
    exact step_hostWrite_of_ignoring (regionAt_reserved_ignoring hres) ha hr h4

/-- Settles O13: the map has a read-only place at these offsets. -/
theorem readOnlyOffsetsIgnoreWrites : Obligations.ReadOnlyOffsetsIgnoreWrites := by
  unfold Obligations.ReadOnlyOffsetsIgnoreWrites
  intro s off v rest ha hr h4 hro
  exact step_hostWrite_of_ignoring (regionAt_readOnly_ignoring h4 hro) ha hr h4

/-! ## Writes of CMD and of STATUS -/

/-- Settles O4: a performed write of CMD while idle is the meaning of the decoded word. -/
theorem cmdWriteRunsTheDecodedCommand : Obligations.CmdWriteRunsTheDecodedCommand := by
  unfold Obligations.CmdWriteRunsTheDecodedCommand
  intro s w rest ha hr hb
  rw [step_hostWrite ha hr (by decide), if_neg (by simp [hb]), if_pos (by decide)]
  rfl

/-- STATUS is written the same way, idle or busy (20_memory.md R76). -/
theorem step_statusWrite {s : State} {v : Word} {rest : List Event}
    (ha : s.agenda = .hostWrite 0x004 4 v :: rest) (hr : s.inReset = false) :
    step s = .next ((s.withAgenda rest).w1cStatus v) := by
  have hidle (u : State) : u.memWriteIdle 0x004 v = u.w1cStatus v := rfl
  have hbusy (u : State) : u.memWriteBusy 0x004 v = u.w1cStatus v := rfl
  rw [step_hostWrite ha hr (by decide), if_neg (show regionAt 0x004 ≠ .cmd by decide), hidle, hbusy, ite_self]

/-- Settles O16: `w1cStatus` is the whole effect, and irq follows DONE. -/
theorem statusWriteClearsDoneAndOvf : Obligations.StatusWriteClearsDoneAndOvf := by
  unfold Obligations.StatusWriteClearsDoneAndOvf
  intro s v rest ha hr
  refine ⟨_, step_statusWrite ha hr, rfl, rfl, rfl, fun h1 => ?_⟩
  simp [State.irq, h1]

/-! ## Writes of TXBUF and RXBUF while idle -/

/-- A word is what its four bytes pack to (20_memory.md R72, R73). -/
theorem le32_extract (v : Word) :
    le32 (v.extractLsb' 0 8) (v.extractLsb' 8 8) (v.extractLsb' 16 8) (v.extractLsb' 24 8) = v := by
  apply BitVec.eq_of_toNat_eq
  rw [toNat_le32]
  simp only [BitVec.extractLsb'_toNat, Nat.shiftRight_eq_div_pow]
  omega

theorem getElem_wordBytes (v : Word) (k : Nat) (h : k < (wordBytes v).length) :
    (wordBytes v)[k] = v.extractLsb' (8 * k) 8 := by
  have hk : k < 4 := h
  interval_cases k <;> rfl

/-- The bytes of a word just stored. -/
theorem State.byteAt_store_word (s : State) (a : Nat) (v : Word) {k : Nat} (h : k < 4) :
    (s.store a (wordBytes v)).byteAt (a + k) = v.extractLsb' (8 * k) 8 := by
  rw [State.byteAt_store_inside _ _ _ _ (show k < (wordBytes v).length from h), getElem_wordBytes]

/-- A word just stored reads back. -/
theorem State.bufferWord_store_word (s : State) (a : Nat) (v : Word) :
    (s.store a (wordBytes v)).bufferWord a = v := by
  have byte {k : Nat} (h : k < 4) := s.byteAt_store_word a v h
  have h0 := byte (k := 0) (by decide)
  rw [Nat.add_zero] at h0
  rw [State.bufferWord, h0, byte (by decide), byte (by decide), byte (by decide)]
  exact le32_extract v

theorem regionAt_frameBuffer {off : Offset} (h1 : 0x100 ≤ off.toNat) (h2 : off.toNat < 0x300) :
    regionAt off = .txbuf ∨ regionAt off = .rxbuf := by
  by_cases h : off.toNat < 0x200
  · exact .inl (regionAt_txbuf h1 h)
  · exact .inr (regionAt_rxbuf (by omega) h2)

theorem memWriteIdle_frameBuffer {off : Offset} (h : regionAt off = .txbuf ∨ regionAt off = .rxbuf) (s : State)
    (v : Word) : s.memWriteIdle off v = s.store off.toNat (wordBytes v) := by
  rcases h with h | h <;> simp only [State.memWriteIdle, h]

/-- Settles O15: the write stores the word's four bytes at the event's offset. -/
theorem bufferWriteReadsBack : Obligations.BufferWriteReadsBack := by
  unfold Obligations.BufferWriteReadsBack
  intro s off v rest ha hr hb h4 h1 h2
  have hreg := regionAt_frameBuffer h1 h2
  have hcmd : regionAt off ≠ .cmd := by rcases hreg with h | h <;> simp [h]
  have hstep : step s = .next ((s.withAgenda rest).store off.toNat (wordBytes v)) := by
    rw [step_hostWrite_idle ha hr hb h4 hcmd, memWriteIdle_frameBuffer hreg]
  refine ⟨_, hstep, rfl, fun k hk => State.byteAt_store_word _ _ _ hk,
    fun a hout => State.byteAt_store_outside _ _ _ _ hout, ?_⟩
  rw [memRead_buffer _ (by omega), State.bufferWord_store_word]

/-! ## Accesses while BUSY = 1 -/

theorem memWriteBusy_dropped {off : Offset}
    (h : regionAt off ∈ [Region.ctrl, .cmd, .framecfg, .timing, .txlen, .rxlen, .txbuf, .rxbuf]) (s : State)
    (v : Word) : s.memWriteBusy off v = s.dropWrite := by
  unfold State.memWriteBusy
  generalize regionAt off = r at h
  fin_cases h <;> rfl

theorem step_hostWrite_busy {s : State} {off : Offset} {v : Word} {rest : List Event}
    (ha : s.agenda = .hostWrite off 4 v :: rest) (hr : s.inReset = false) (hb : s.busy = true)
    (h4 : off.toNat % 4 = 0) : step s = .next ((s.withAgenda rest).memWriteBusy off v) := by
  rw [step_hostWrite ha hr h4, if_pos hb]

/-- Settles O17: the three clauses are the three ways the map divides a write while BUSY = 1. -/
theorem writesWhileBusyAreDropped : Obligations.WritesWhileBusyAreDropped := by
  unfold Obligations.WritesWhileBusyAreDropped
  intro s off v rest ha hr hb h4
  refine ⟨fun h => ?_, fun h => ?_, fun h => ?_⟩
  · rw [step_hostWrite_busy ha hr hb h4, memWriteBusy_dropped (regionAt_writable h)]
    rfl
  · obtain rfl : off = 0x004 := BitVec.eq_of_toNat_eq h
    exact step_statusWrite ha hr
  · have hign : regionAt off ∈ Region.ignoring := by
      by_cases hres : 0x038 ≤ off.toNat ∧ off.toNat < 0x100 ∨ 0x4F0 ≤ off.toNat ∧ off.toNat < 0x500 ∨
          0x5F8 ≤ off.toNat
      · exact regionAt_reserved_ignoring hres
      · exact regionAt_readOnly_ignoring h4 (by omega)
    exact step_hostWrite_of_ignoring hign ha hr h4

/-- Nothing but DONE, OVF and the word the host read differs, and DONE has not risen. -/
def State.Undisturbed (s t : State) : Prop :=
  t = { s with done := t.done, ovf := t.ovf, hostData := t.hostData } ∧ (t.done = true → s.done = true)

theorem memWriteBusy_undisturbed (s : State) (off : Offset) (v : Word) : s.Undisturbed (s.memWriteBusy off v) := by
  have hw1c : (s.w1cStatus v).done = true → s.done = true := by simp +contextual
  unfold State.memWriteBusy
  split
  case h_9 => exact ⟨rfl, hw1c⟩
  all_goals exact ⟨rfl, id⟩

theorem MoveEffect.read_undisturbed {s t : State} {off : Offset} {width : Nat}
    (he : MoveEffect s (.hostRead off width) t) : s.Undisturbed t := by
  cases he with
  | held | read => exact ⟨rfl, id⟩

theorem MoveEffect.write_undisturbed {s t : State} {off : Offset} {width : Nat} {v : Word}
    (he : MoveEffect s (.hostWrite off width v) t) (hb : s.busy = true) : s.Undisturbed t := by
  cases he with
  | held => exact ⟨rfl, id⟩
  | writeBusy => exact memWriteBusy_undisturbed s off v
  | writeIdle _ _ _ _ hidle | accept _ _ _ _ hidle | reject _ _ _ _ hidle => simp [hb] at hidle

/-- Settles O18: each kind of step a host access can be, on a busy engine. -/
theorem hostCannotDisturbAnOperation : Obligations.HostCannotDisturbAnOperation := by
  unfold Obligations.HostCannotDisturbAnOperation
  intro s t e rest ha hb he hs
  rw [step_cons ha] at hs
  have hm := move_effect hs
  rcases he with ⟨off, width, rfl⟩ | ⟨off, width, v, rfl⟩
  · exact hm.read_undisturbed
  · exact hm.write_undisturbed hb

end Sys2Proof.Machine
end

section
/-! PROOFS. A state of the invariant always goes on but for a bus error, and an idle one keeps its results. -/

namespace Sys2Proof.Machine

/-! ## Progress -/

theorem unlessReset_next {f : State → Outcome} {s : State} (h : ∃ t, f s = .next t) :
    ∃ t, unlessReset f s = .next t := by
  cases hr : s.inReset
  · rwa [unlessReset_live hr]
  · exact ⟨s, unlessReset_held hr f⟩

theorem State.Inv.engineMove_next {s : State} (h : s.Inv) : ∃ t, engineMove s = .next t := by
  cases hb : s.busy
  · exact ⟨s, engineMove_idle hb⟩
  · obtain ⟨i, t, hi, ht, -⟩ := exec_current_effect hb h.phase_mem (h.busy_iff.mp hb)
    exact ⟨t, (engineMove_busy hb hi).trans ht⟩

theorem State.Inv.fairMove_next {s : State} (h : s.Inv) : ∃ t, fairMove s = .next t := by
  unfold fairMove
  split
  · exact ⟨_, rfl⟩
  · exact h.engineMove_next

theorem State.Inv.waitDoneMove_next {s : State} (h : s.Inv) : ∃ t, waitDoneMove s = .next t := by
  unfold waitDoneMove
  split
  · exact ⟨_, rfl⟩
  · exact State.Inv.fairMove_next ((h.hear _).withAgenda _)

/-- A performed write always goes on. -/
theorem hostWriteMove_next {off : Offset} (h4 : off.toNat % 4 = 0) (v : Word) (s : State) :
    ∃ t, hostWriteMove off 4 v s = .next t := by
  rw [hostWriteMove_ok h4]
  cases hb : s.busy
  · by_cases hc : regionAt off = .cmd
    · rcases exec_decodeCmd_idle hb v with hx | ⟨op, r, p, -, hx⟩ <;> exact ⟨_, by simpa [hc] using hx⟩
    · exact ⟨s.memWriteIdle off v, by simp [hc]⟩
  · exact ⟨s.memWriteBusy off v, by simp⟩

/-- A host access out of reset that the bus does not perform (20_memory.md R74). -/
def State.BusErrorAt (s : State) (e : Event) (off : Offset) (width : Nat) (v : Word) : Prop :=
  s.inReset = false ∧ move e s = .fault (.hostBusError off) ∧ (width ≠ 4 ∨ off.toNat % 4 ≠ 0) ∧
    (e = .hostRead off width ∨ e = .hostWrite off width v)

theorem access_next_or_busError {s : State} {f : State → Outcome} {e : Event} {off : Offset} {width : Nat} {v : Word}
    (hmove : move e s = unlessReset f s) (he : e = .hostRead off width ∨ e = .hostWrite off width v)
    (hok : width = 4 → off.toNat % 4 = 0 → ∃ t, f s = .next t)
    (hbad : width ≠ 4 ∨ off.toNat % 4 ≠ 0 → f s = .fault (.hostBusError off)) :
    (∃ t, move e s = .next t) ∨ s.BusErrorAt e off width v := by
  rw [State.BusErrorAt, hmove]
  by_cases h : width = 4 ∧ off.toNat % 4 = 0
  · exact .inl (unlessReset_next (hok h.1 h.2))
  · have hnot : width ≠ 4 ∨ off.toNat % 4 ≠ 0 := by omega
    cases hr : s.inReset
    · exact .inr ⟨rfl, (unlessReset_live hr f).trans (hbad hnot), hnot, he⟩
    · exact .inl ⟨s, unlessReset_held hr f⟩

theorem State.Inv.move_next_or_busError {s : State} (h : s.Inv) (e : Event) :
    (∃ t, move e s = .next t) ∨ ∃ off width v, s.BusErrorAt e off width v := by
  cases e with
  | hostRead off width =>
    refine (access_next_or_busError (v := 0) rfl (.inl rfl) ?_ ?_).imp_right fun hf => ⟨off, width, 0, hf⟩
    · rintro rfl h4
      exact ⟨_, hostReadMove_ok h4⟩
    · exact fun hbad => hostReadMove_busError hbad s
  | hostWrite off width v =>
    refine (access_next_or_busError rfl (.inr rfl) ?_ ?_).imp_right fun hf => ⟨off, width, v, hf⟩
    · rintro rfl h4
      exact hostWriteMove_next h4 v s
    · exact fun hbad => hostWriteMove_busError hbad v s
  | waitDone => exact .inl (unlessReset_next h.waitDoneMove_next)
  | engine => exact .inl (unlessReset_next h.engineMove_next)
  | deadline => exact .inl (unlessReset_next ⟨_, rfl⟩)
  | peerDeliver | peerConsume | resetAssert | resetRelease => exact .inl ⟨_, rfl⟩

/-- Settles O54: the fair move always goes on, and every event but an access that is not performed. -/
theorem onlyBusErrorsStopTheMachine : Obligations.OnlyBusErrorsStopTheMachine := by
  unfold Obligations.OnlyBusErrorsStopTheMachine
  intro s h
  cases ha : s.agenda with
  | nil =>
    rw [step_nil ha]
    exact .inl (unlessReset_next h.fairMove_next)
  | cons e rest =>
    rw [step_cons ha]
    refine ((h.withAgenda rest).move_next_or_busError e).imp_right ?_
    rintro ⟨off, width, v, hr, hf, hbad, he⟩
    exact ⟨off, width, v, rest, hr, hf, hbad, he.imp (congrArg (· :: rest)) (congrArg (· :: rest))⟩

/-! ## Results while idle -/

/-- Nothing but the link and the model's own fields, the level of `rst` with them, has changed. -/
def State.SameResults (s t : State) : Prop :=
  t = { s with
    agenda := t.agenda, hostData := t.hostData, txchan := t.txchan, rxfifo := t.rxfifo, inReset := t.inReset }

/-- The machine by itself does nothing to an idle engine. -/
theorem MachineEffect.eq_of_idle {s t : State} (he : MachineEffect s t) (h : s.Inv) (hb : s.busy = false) : t = s := by
  cases he with
  | none => rfl
  | engine _ hbusy => simp [hb] at hbusy
  | expire _ hp => simp [h.idle hb] at hp

theorem MoveEffect.sameResults {s t : State} {e : Event} (he : MoveEffect s e t) (h : s.Inv) (hb : s.busy = false)
    (hw : ∀ off width v, e ≠ .hostWrite off width v) (hne : e ≠ .resetAssert) : s.SameResults t := by
  cases he with
  | held | read | waitOver | deliver | consume | release => rfl
  | writeBusy | writeIdle | accept | reject => exact absurd rfl (hw _ _ _)
  | waitOn _ he =>
    obtain rfl := he.eq_of_idle ((h.hear _).withAgenda _) hb
    rfl
  | engine _ he | deadline _ he =>
    obtain rfl := he.eq_of_idle h hb
    rfl
  | assert => exact absurd rfl hne

/-- Settles O59: each kind of step of `step_effect` but a host write and the assertion of reset. -/
theorem resultsStayWhileIdle : Obligations.ResultsStayWhileIdle := by
  unfold Obligations.ResultsStayWhileIdle
  intro s t h hb hs hw hne
  obtain ⟨-, he⟩ | ⟨e, rest, ha, he⟩ := step_effect hs
  · obtain rfl := he.eq_of_idle h hb
    rfl
  · rw [ha] at hw hne
    refine he.sameResults (s := s.withAgenda rest) (h.withAgenda rest) hb ?_ ?_
    · rintro off width v rfl
      exact hw off width v rfl
    · rintro rfl
      exact hne rfl

end Sys2Proof.Machine
end

section
/-! PROOFS. The encoding (30_encoding.md R101, R110 to R114): the decoder on illegal words, on the words of the six
commands and on register codes with and without a decoder, and the round trip both ways. -/

namespace Sys2Proof

open Machine

/-! ## Command words -/

/-- The ill-formed `illegal` terms are the ones of a legal word. -/
theorem wf_illegal_iff (w : Word) : (Instr.illegal w).wf = true ↔ IllegalWord w := by
  refine ⟨fun h => (Laws.EncodeLegal.illegal w h).mpr ⟨w, rfl⟩, fun h => ?_⟩
  simp only [Instr.wf, Bool.not_eq_true', Bool.and_eq_false_iff, decide_eq_false_iff_not]
  unfold IllegalWord at h
  omega

/-- A legal word is the word of a command's OP and its two operands (30_encoding.md R101, R110, R112). -/
theorem exists_cmdWord_of_legal {w : Word} (h : ¬ IllegalWord w) :
    ∃ op r p, 1 ≤ op.toNat ∧ op.toNat ≤ 6 ∧ w = cmdWord op r p := by
  obtain ⟨hop, -⟩ := toNat_fields w
  obtain ⟨h0, h1⟩ := reserved_zero_iff w
  unfold IllegalWord at h
  exact ⟨_, _, _, by omega, by omega, (cmdWord_fields w (h0.mpr (by omega)) (h1.mpr (by omega))).symm⟩

theorem decodeCmd_of_illegalWord {w : Word} (h : IllegalWord w) : decodeCmd w = .illegal w := by
  obtain ⟨h0, h1⟩ := reserved_zero_iff w
  by_cases hr : rsv0Field w = 0 ∧ rsv1Field w = 0
  · obtain ⟨-, -, -, -, -, -, hop⟩ := decodeCmd_of_reserved_zero hr.1 hr.2
    have hz0 := h0.mp hr.1
    have hz1 := h1.mp hr.2
    unfold IllegalWord at h
    exact hop (by omega)
  · exact decodeCmd_of_reserved (by tauto)

/-- The word of each command decodes to a well-formed instruction that encodes back to it. -/
theorem encode_decodeCmd_cmdWord {op : BitVec 4} (h1 : 1 ≤ op.toNat) (h6 : op.toNat ≤ 6) (r p : Byte) :
    (decodeCmd (cmdWord op r p)).wf = true ∧ encode (decodeCmd (cmdWord op r p)) = .cmd (cmdWord op r p) := by
  have hop : op = 0x1 ∨ op = 0x2 ∨ op = 0x3 ∨ op = 0x4 ∨ op = 0x5 ∨ op = 0x6 := by
    revert op
    decide
  rcases hop with rfl | rfl | rfl | rfl | rfl | rfl <;> simp only [decodeCmd_cmdWord] <;> exact ⟨rfl, rfl⟩

theorem encode_decodeCmd (w : Word) : (decodeCmd w).wf = true ∧ encode (decodeCmd w) = .cmd w := by
  by_cases h : IllegalWord w
  · rw [decodeCmd_of_illegalWord h]
    exact ⟨(wf_illegal_iff w).mpr h, rfl⟩
  · obtain ⟨op, r, p, h1, h6, rfl⟩ := exists_cmdWord_of_legal h
    exact encode_decodeCmd_cmdWord h1 h6 r p

/-- Exactly the illegal words decode to ILLEGAL (30_encoding.md R112). -/
theorem decodeCmd_eq_illegal_iff (w : Word) : decodeCmd w = .illegal w ↔ IllegalWord w := by
  refine ⟨fun h => ?_, decodeCmd_of_illegalWord⟩
  rw [← wf_illegal_iff, ← h]
  exact (encode_decodeCmd w).1

/-! ## Register codes -/

/-- A code without a decoder (30_encoding.md R114). -/
theorem decodeRegCode_of_unlisted {c : Byte} (h : c ∉ listedCodes) : decodeRegCode c = .decNone c := by
  unfold decodeRegCode
  split
  case h_12 => rfl
  all_goals exact absurd (by decide) h

theorem encode_decodeRegCode (c : Byte) : (decodeRegCode c).wf = true ∧ encode (decodeRegCode c) = .respReg c := by
  by_cases h : c ∈ listedCodes
  · fin_cases h <;> exact ⟨rfl, rfl⟩
  · rw [decodeRegCode_of_unlisted h]
    exact ⟨by simpa [Instr.wf] using h, rfl⟩

/-! ## The round trip -/

/-- Settles O1: a command is decoded from the word of its fields, and ILLEGAL and DEC_NONE from what they carry. -/
theorem decodeOfEncodeIsTheInstruction : Obligations.DecodeOfEncodeIsTheInstruction := by
  unfold Obligations.DecodeOfEncodeIsTheInstruction
  intro i hwf
  cases i with
  | ckcomp r p | ckver r p | encode r p | xact r p | decode r p | query r p =>
    simp only [encode, decode, decodeCmd_cmdWord]
  | illegal w => exact decodeCmd_of_illegalWord ((wf_illegal_iff w).mp hwf)
  | decNone c => exact decodeRegCode_of_unlisted (by simpa [Instr.wf] using hwf)
  | decSerial | decFwver | decFactcap | decActcap | decStatus | decRemcapMah | decRemcapPct | decCurrent
  | decVoltage | decHealth | decCells => rfl

/-- Settles O2: a command word is illegal or the word of its fields, and a register code is listed or not. -/
theorem encodeOfDecodeIsTheEncoding : Obligations.EncodeOfDecodeIsTheEncoding := by
  unfold Obligations.EncodeOfDecodeIsTheEncoding
  intro e
  cases e with
  | cmd w => exact encode_decodeCmd w
  | respReg c => exact encode_decodeRegCode c

/-- Settles O3: the three command words are those of their fields, and the two illegal ones have a reserved field
that is not 0. -/
theorem specWordsDecodeAsWritten : Obligations.SpecWordsDecodeAsWritten := by
  unfold Obligations.SpecWordsDecodeAsWritten
  obtain ⟨-, -, encode33, -⟩ := decodeCmd_cmdWord 0x33 0x02
  obtain ⟨-, -, encode40, -⟩ := decodeCmd_cmdWord 0x40 0x10
  obtain ⟨-, -, -, -, -, query34⟩ := decodeCmd_cmdWord 0x34 0x02
  exact ⟨encode33, encode40, query34, decodeCmd_of_reserved (.inl (by decide)),
    decodeCmd_of_reserved (.inr (by decide)), rfl, decodeRegCode_of_unlisted (c := 0x20) (by decide)⟩

end Sys2Proof
end

section
/-! PROOFS. The illegal command word, the ENCODE step and the dispatch of the DECODE step. -/

namespace Sys2Proof.Machine

/-- Settles O20: a write of CMD while idle is the meaning of the decoded word, which rejects an illegal one. -/
theorem illegalCommandIsRejected : Obligations.IllegalCommandIsRejected := by
  unfold Obligations.IllegalCommandIsRejected
  refine ⟨decodeCmd_eq_illegal_iff, fun s w rest ha hr hb hw => ⟨?_, exec_illegal_idle hb w, by simp [State.irq]⟩⟩
  rw [cmdWriteRunsTheDecodedCommand s w rest ha hr hb, decodeCmd_of_illegalWord hw]
  exact exec_illegal_idle (s := s.withAgenda rest) hb w

/-- Settles O6: the frame passes the validation, so the DECODE step is the decoder's meaning at the dispatch. -/
theorem responseByteFiveSelectsTheDecoder : Obligations.ResponseByteFiveSelectsTheDecoder := by
  unfold Obligations.ResponseByteFiveSelectsTheDecoder
  intro s r p h6 hv hecho
  have dispatch := decodeStep_ok (frameError_eq_none h6 hv hecho)
  exact ⟨fun ⟨hb, ho, hp⟩ => (exec_decode_step hb r p ho hp).trans dispatch,
    fun ⟨hb, ho, hp⟩ => (exec_query_decode hb r p ho hp).trans dispatch⟩

/-- The ENCODE step leaves the request frame at the start of TXBUF and every other buffer byte as it was
(41_encode.md R160). -/
theorem State.encodeStep_bytes (s : State) :
    s.encodeStep.bytesAt 0x100 9 = s.requestFrame ∧ SameBytesOutside 0x100 9 s s.encodeStep := by
  have hlen := s.length_requestFrame
  constructor
  · rw [State.bytesAt_congr (s := s.store txBase s.requestFrame) fun i _ => s.byteAt_encodeStep _, ← hlen]
    exact State.bytesAt_store s txBase _
  · intro a ha
    rw [s.byteAt_encodeStep]
    exact State.byteAt_store_outside s txBase a _ (by rwa [hlen])

/-- Settles O30: the ENCODE step by the operation it belongs to, and the bytes it leaves. -/
theorem encodeBuildsTheRequestFrame : Obligations.EncodeBuildsTheRequestFrame := by
  unfold Obligations.EncodeBuildsTheRequestFrame
  refine fun s r p => ⟨fun ⟨hb, ho, hp⟩ => ?_, fun ⟨hb, ho, hp⟩ => ?_⟩
  · refine ⟨_, exec_encode_step hb r p ho hp, ?_, s.encodeStep_bytes⟩
    rw [State.encodeStep, if_pos ho]
    rfl
  · refine ⟨_, exec_query_encode hb r p ho hp, ?_, s.encodeStep_bytes⟩
    rw [State.encodeStep, if_neg (by simp [ho])]
    rfl

end Sys2Proof.Machine
end

section
/-! PROOFS. The host program: `waitdone`, whose turns end with the one that reads DONE = 1, and `ldrx`, whose word
writes together store one block (30_encoding.md R117). -/

namespace Sys2Proof.Machine

/-! ## waitdone -/

theorem statusWord_done (s : State) : s.statusWord.getLsbD 1 = s.done := by
  simp only [State.statusWord, BitVec.getLsbD_append]
  simp

/-- The engine reaches neither the agenda nor the word the host read. -/
theorem EngineEffect.host_fields {s t : State} (he : EngineEffect s t) :
    t.agenda = s.agenda ∧ t.hostData = s.hostData := by
  cases he with
  | encode => rw [s.encodeStep_frame]; exact ⟨rfl, rfl⟩
  | capture => rw [s.captureStep_frame]; exact ⟨rfl, rfl⟩
  | decoded _ _ he => rw [he.frame]; exact ⟨rfl, rfl⟩
  | ckcomp | ckver | push | exhausted | waiting | invalid => exact ⟨rfl, rfl⟩

theorem MachineEffect.host_fields {s t : State} (he : MachineEffect s t) :
    t.agenda = s.agenda ∧ t.hostData = s.hostData := by
  cases he with
  | none | expire => exact ⟨rfl, rfl⟩
  | engine _ _ _ he => exact he.host_fields

/-- Settles O51: the read that sees DONE = 1 is the last, and after any other the machine's fair move leaves the loop
on the agenda and the word with the host. -/
theorem waitDoneEndsWithDone : Obligations.WaitDoneEndsWithDone := by
  unfold Obligations.WaitDoneEndsWithDone
  intro s rest h ha hr
  have hstep : step s = waitDoneMove (s.withAgenda rest) :=
    (step_cons ha).trans (unlessReset_live (s := s.withAgenda rest) hr _)
  have hread : (s.withAgenda rest).statusWord.getLsbD 1 = s.done := statusWord_done _
  rw [hstep, waitDoneMove, hread]
  refine ⟨fun hd => if_pos hd, fun hd => ?_⟩
  rw [if_neg (by simp [hd])]
  obtain ⟨t, ht⟩ := (((h.withAgenda rest).hear s.statusWord).withAgenda (.waitDone :: rest)).fairMove_next
  exact ⟨t, ht, (fairMove_effect (by simpa using hr) ht).host_fields⟩

/-! ## Blocks of bytes -/

theorem Memory.writeList_append (m : Memory) (a : Nat) (xs ys : List Byte) :
    m.writeList a (xs ++ ys) = (m.writeList a xs).writeList (a + xs.length) ys := by
  induction xs generalizing m a with
  | nil => rfl
  | cons x xs ih =>
    rw [List.cons_append, List.length_cons, Nat.add_comm xs.length 1, ← Nat.add_assoc]
    exact ih _ _

/-- The first bytes of a block just stored read back. -/
theorem State.bytesAt_store_append (s : State) (base : Nat) (xs ys : List Byte) :
    (s.store base (xs ++ ys)).bytesAt base xs.length = xs := by
  apply List.ext_getElem
  · simp
  · intro i h1 h2
    rw [State.getElem_bytesAt, State.byteAt_store_inside _ _ _ _ (by simp; omega), List.getElem_append_left h2]

/-- The words `ldrx` and `ldtx` write: their bytes are the given ones, the last word filled up with others. -/
theorem flatMap_wordBytes_packWords (bytes : List Byte) :
    ∃ pad, (packWords bytes).flatMap wordBytes = bytes ++ pad ∧
      bytes.length + pad.length = 4 * ((bytes.length + 3) / 4) := by
  induction bytes using packWords.induct with
  | case1 => exact ⟨[], rfl, rfl⟩
  | case2 a => exact ⟨[0, 0, 0], by simp [packWords, wordBytes_le32], by simp⟩
  | case3 a b => exact ⟨[0, 0], by simp [packWords, wordBytes_le32], by simp⟩
  | case4 a b c => exact ⟨[0], by simp [packWords, wordBytes_le32], by simp⟩
  | case5 a b c d rest ih =>
    obtain ⟨pad, hpad, hlen⟩ := ih
    refine ⟨pad, by simp [packWords, wordBytes_le32, hpad], ?_⟩
    simp only [List.length_cons]
    omega

theorem length_flatMap_wordBytes (ws : List Word) : (ws.flatMap wordBytes).length = 4 * ws.length := by
  induction ws with
  | nil => rfl
  | cons w ws ih =>
    rw [List.flatMap_cons, List.length_append, ih, List.length_cons]
    show 4 + _ = _
    omega

/-! ## ldrx -/

/-- The writes of consecutive words into TXBUF or RXBUF of an idle engine store their bytes as one block. -/
theorem run_swAll {ws : List Word} {off : Offset} {s : State} {rest : List Event}
    (ha : s.agenda = swAll off ws ++ rest) (hr : s.inReset = false) (hb : s.busy = false)
    (h4 : off.toNat % 4 = 0) (h1 : 0x100 ≤ off.toNat) (h2 : off.toNat + 4 * ws.length ≤ 0x300) :
    Host.Core.run Sys2Proof.core (swAll off ws).length s =
      .next ((s.store off.toNat (ws.flatMap wordBytes)).withAgenda rest) := by
  induction ws generalizing off s with
  | nil =>
    obtain rfl : s.agenda = rest := ha
    rfl
  | cons w ws ih =>
    rw [List.length_cons] at h2
    have hreg := regionAt_frameBuffer h1 (by omega)
    have hcmd : regionAt off ≠ .cmd := by rcases hreg with h | h <;> simp [h]
    have hstep := step_hostWrite_idle (rest := swAll (off + 4) ws ++ rest) ha hr hb h4 hcmd
    rw [memWriteIdle_frameBuffer hreg] at hstep
    have hoff : (off + 4).toNat = off.toNat + 4 := by
      rw [BitVec.toNat_add_of_lt]
      · rfl
      · show off.toNat + 4 < 4096
        omega
    have hrest := ih (off := off + 4)
      (s := (s.withAgenda (swAll (off + 4) ws ++ rest)).store off.toNat (wordBytes w))
      rfl hr hb (by omega) (by omega) (by omega)
    rw [hoff] at hrest
    refine (run_step hstep).trans (hrest.trans ?_)
    simp only [List.flatMap_cons, State.store, Memory.writeList_append]
    rfl

/-- A write of RXLEN of an idle engine. -/
theorem step_rxlenWrite {s : State} {v : Word} {rest : List Event}
    (ha : s.agenda = .hostWrite 0x01C 4 v :: rest) (hr : s.inReset = false) (hb : s.busy = false) :
    step s = .next { s with agenda := rest, rxlen := clampLen v } :=
  step_hostWrite_idle ha hr hb (by decide) (by decide)

theorem clampLen_ofNat {n : Nat} (h : n ≤ 256) : (clampLen (BitVec.ofNat 32 n)).val = n := by
  rw [toNat_clampLen, BitVec.toNat_ofNat]
  omega

theorem hostProgram_ldrx (bytes : List Byte) : hostProgram [.ldrx bytes] =
    swAll 0x200 (packWords bytes) ++ [.hostWrite 0x01C 4 (BitVec.ofNat 32 bytes.length)] :=
  List.append_nil _

/-- Settles O50: the word writes store the bytes and their padding at RXBUF, and the last write stores their number. -/
theorem ldrxPresentsTheFrame : Obligations.LdrxPresentsTheFrame := by
  unfold Obligations.LdrxPresentsTheFrame
  intro s bytes rest ha hr hb hlen
  obtain ⟨pad, hpack, hpad⟩ := flatMap_wordBytes_packWords bytes
  have hblock : (bytes ++ pad).length = 4 * ((bytes.length + 3) / 4) := by rw [List.length_append, hpad]
  have hwords : 4 * (packWords bytes).length = (bytes ++ pad).length := by
    rw [← length_flatMap_wordBytes, hpack]
  rw [hostProgram_ldrx, List.append_assoc] at ha
  have hrun := run_swAll ha hr hb (by decide) (by decide)
    (show 0x200 + 4 * (packWords bytes).length ≤ 0x300 by omega)
  rw [hpack] at hrun
  refine ⟨{ s.store 0x200 (bytes ++ pad) with agenda := rest, rxlen := clampLen (BitVec.ofNat 32 bytes.length) }, ?_,
    rfl, clampLen_ofNat hlen, State.bytesAt_store_append s 0x200 bytes pad,
    fun a hout => State.byteAt_store_outside s 0x200 a _ (by rwa [hblock])⟩
  rw [hostProgram_ldrx, List.length_append]
  exact (run_add hrun).trans (run_step (step_rxlenWrite rfl hr hb))

end Sys2Proof.Machine
end

section
/-! PROOFS. The checksum (40_checksum.md): `ck16` as a number, the pair that carries it, `verify` on frames, and the
steps CKCOMP, CKVER and ENCODE that use them. -/

namespace Sys2Proof.Machine

/-! ## The sum -/

theorem byteSum_cons (b : Byte) (S : List Byte) : byteSum (b :: S) = b.toNat + byteSum S := rfl

theorem byteSum_perm {S T : List Byte} (h : S.Perm T) : byteSum S = byteSum T :=
  (h.map BitVec.toNat).sum_eq

/-- The sum of a whole buffer stays below 2^16 (40_checksum.md R143). -/
theorem byteSum_le (S : List Byte) : byteSum S ≤ 255 * S.length := by
  induction S with
  | nil => exact Nat.le_refl 0
  | cons b S ih =>
    have := b.isLt
    rw [byteSum_cons, List.length_cons]
    omega

/-- Replacing one byte changes the sum by the difference of the two bytes. -/
theorem byteSum_set {S : List Byte} {k : Nat} (h : k < S.length) (b : Byte) :
    byteSum (S.set k b) + S[k].toNat = byteSum S + b.toNat := by
  induction S generalizing k with
  | nil => cases h
  | cons x S ih =>
    cases k with
    | zero => simp only [List.set_cons_zero, List.getElem_cons_zero, byteSum_cons]; omega
    | succ k =>
      have := ih (Nat.lt_of_succ_lt_succ h)
      simp only [List.set_cons_succ, List.getElem_cons_succ, byteSum_cons]
      omega

theorem toNat_sum16 (S : List Byte) : (sum16 S).toNat = byteSum S % 0x10000 := by
  induction S with
  | nil => rfl
  | cons b S ih =>
    have := b.isLt
    rw [sum16, byteSum_cons, BitVec.toNat_add, ih, BitVec.toNat_setWidth]
    omega

/-! ## The checksum -/

theorem toNat_swap16 (x : Half) : (swap16 x).toNat = 0x100 * (x.toNat % 0x100) + x.toNat / 0x100 := by
  have := x.isLt
  simp only [swap16, loByte, hiByte, toNat_append_add, BitVec.extractLsb'_toNat, Nat.shiftRight_eq_div_pow]
  omega

theorem toNat_ck16 (S : List Byte) : (ck16 S).toNat =
    0x100 * ((0xFFFF - byteSum S % 0x10000) % 0x100) + (0xFFFF - byteSum S % 0x10000) / 0x100 := by
  have hxor : (sum16 S ^^^ 0xFFFF).toNat = 0xFFFF - byteSum S % 0x10000 := by
    rw [show (0xFFFF : Half) = BitVec.allOnes 16 from rfl, BitVec.xor_allOnes, BitVec.toNat_not, toNat_sum16]
  rw [ck16, toNat_swap16, hxor]

/-- Two spans have the same checksum exactly when their sums agree mod 2^16. -/
theorem ck16_eq_iff (S T : List Byte) : ck16 S = ck16 T ↔ byteSum S % 0x10000 = byteSum T % 0x10000 := by
  rw [← BitVec.toNat_inj, toNat_ck16, toNat_ck16]
  omega

/-- One byte of the span replaced by another one: the sum moves by less than 2^16. -/
theorem ck16_set_ne {S : List Byte} {k : Nat} (h : k < S.length) {b : Byte} (hb : b ≠ S[k]) :
    ck16 (S.set k b) ≠ ck16 S := by
  have hset := byteSum_set h b
  have hne : b.toNat ≠ S[k].toNat := fun he => hb (BitVec.eq_of_toNat_eq he)
  have := b.isLt
  have := S[k].isLt
  rw [Ne, ck16_eq_iff]
  omega

/-- Settles O21: the checksum as a number, from its sum as a number. -/
theorem checksumIsTheSwappedComplementOfTheSum : Obligations.ChecksumIsTheSwappedComplementOfTheSum := by
  unfold Obligations.ChecksumIsTheSwappedComplementOfTheSum
  exact fun S => ⟨toNat_sum16 S, toNat_ck16 S⟩

/-! ## The pair that carries a checksum -/

theorem le16_inj {a b c d : Byte} : le16 a b = le16 c d ↔ a = c ∧ b = d := by
  have := a.isLt
  have := c.isLt
  rw [← BitVec.toNat_inj, ← BitVec.toNat_inj (x := a), ← BitVec.toNat_inj (x := b), toNat_le16, toNat_le16]
  omega

/-- Different trailing pairs carry different checksums. -/
theorem recv_pair_inj (c : Bool) {y z y' z' : Byte} : recv c [y, z] = recv c [y', z'] ↔ y = y' ∧ z = z' := by
  cases c
  · exact le16_inj.trans And.comm
  · exact le16_inj

/-- Reconstruction inverts emission (40_checksum.md R144). -/
theorem recv_emit (c : Bool) (b : List Byte) (v : Half) : recv c (b ++ emit c v) = v := by
  cases c <;> exact (recv_append _ b _ _).trans (le16_lo_hi v)

/-- Settles O22: emission by CKORD, its inverse, and the received pair as a number. -/
theorem emitAndReconstructAgree : Obligations.EmitAndReconstructAgree := by
  unfold Obligations.EmitAndReconstructAgree
  refine fun b v => ⟨rfl, rfl, recv_emit false b v, recv_emit true b v, fun y z => ⟨?_, ?_⟩⟩
  · rw [recv_append, if_neg Bool.false_ne_true, toNat_le16, Nat.add_comm]
  · rw [recv_append, if_pos rfl, toNat_le16, Nat.add_comm]

/-! ## Verification -/

theorem verify_of_length_lt {b : List Byte} (h : b.length < 4) (c : Bool) : verify c b = false := by
  rw [verify, decide_eq_false (by omega), Bool.false_and]

theorem four_le_length_of_verify {c : Bool} {b : List Byte} (h : verify c b = true) : 4 ≤ b.length := by
  by_contra hlen
  rw [verify_of_length_lt (by omega)] at h
  cases h

/-- A frame verifies when its last two bytes are the checksum of the covered ones (40_checksum.md R146). -/
theorem verify_frame_iff {c : Bool} {m0 m1 y z : Byte} {S : List Byte} :
    verify c (m0 :: m1 :: (S ++ [y, z])) = true ↔ ck16 S = recv c [y, z] := by
  rw [verify_frame, decide_eq_true_iff]
  rfl

/-- A frame that ends in the emitted checksum of its covered bytes verifies (40_checksum.md R147). -/
theorem verify_emit (c : Bool) (m0 m1 : Byte) (S : List Byte) :
    verify c ([m0, m1] ++ S ++ emit c (ck16 S)) = true := by
  cases c <;> exact verify_frame_iff.mpr (recv_emit _ [] (ck16 S)).symm

/-- The first two bytes take no part (40_checksum.md R146). -/
theorem verify_magic (c : Bool) (m0 m1 n0 n1 y z : Byte) (S : List Byte) :
    verify c (m0 :: m1 :: (S ++ [y, z])) = verify c (n0 :: n1 :: (S ++ [y, z])) := by
  rw [verify_frame, verify_frame]

/-- The checksum of no bytes, as the pair FF FF under either order. -/
theorem ck16_nil (c : Bool) : ck16 [] = recv c [0xFF, 0xFF] := by
  cases c <;> rfl

/-- Settles O23: a short frame, the frame with nothing covered, and the magic. -/
theorem verifyOfShortFramesAndMagic : Obligations.VerifyOfShortFramesAndMagic := by
  unfold Obligations.VerifyOfShortFramesAndMagic
  refine fun c m0 m1 n0 n1 y z S b => ⟨fun h => verify_of_length_lt h c, ?_, verify_magic c m0 m1 n0 n1 y z S⟩
  refine (verify_frame_iff (S := [])).trans ?_
  rw [ck16_nil c, recv_pair_inj, eq_comm, @eq_comm _ z]

/-- Settles O24: the trailing pair is the emitted checksum, whatever the length. -/
theorem checksumRoundTrip : Obligations.ChecksumRoundTrip := by
  unfold Obligations.ChecksumRoundTrip
  exact fun c m0 m1 S _ => verify_emit c m0 m1 S

/-- Settles O26: the sum of the covered bytes is all that `sum16` and `verify` see of them. -/
theorem reorderingIsNotDetected : Obligations.ReorderingIsNotDetected := by
  unfold Obligations.ReorderingIsNotDetected
  intro c m0 m1 y z S T h
  have hsum : byteSum S = byteSum T := h.elim byteSum_perm id
  have hck : ck16 S = ck16 T := (ck16_eq_iff S T).mpr (by rw [hsum])
  refine ⟨BitVec.eq_of_toNat_eq (by rw [toNat_sum16, toNat_sum16, hsum]), ?_⟩
  show verify c (m0 :: m1 :: (S ++ [y, z])) = verify c (m0 :: m1 :: (T ++ [y, z]))
  rw [verify_frame, verify_frame, hck]

/-! ## One byte of a frame replaced -/

/-- Replacing a byte of the magic leaves the outcome as it was. -/
theorem verify_set_magic {c : Bool} {F : List Byte} {i : Nat} (hF : 4 ≤ F.length) (hi : i < 2) (b : Byte) :
    verify c (F.set i b) = verify c F := by
  obtain ⟨m0, m1, S, y, z, rfl, -⟩ := exists_parts F hF
  match i, hi with
  | 0, _ => exact verify_magic ..
  | 1, _ => exact verify_magic ..

/-- Replacing any other byte by a different one is detected: the covered sum changes, or the received pair. -/
theorem verify_set_of_ne {c : Bool} {F : List Byte} {i : Nat} (hv : verify c F = true) (hi : i < F.length)
    (h2 : 2 ≤ i) {b : Byte} (hb : b ≠ F[i]) : verify c (F.set i b) = false := by
  obtain ⟨m0, m1, S, y, z, rfl, hlen⟩ := exists_parts F (four_le_length_of_verify hv)
  obtain ⟨k, rfl⟩ := Nat.exists_eq_add_of_le' h2
  rw [verify_frame_iff] at hv
  simp only [List.getElem_cons_succ] at hb
  rw [List.set_cons_succ, List.set_cons_succ, ← Bool.not_eq_true]
  by_cases hk : k < S.length
  · rw [List.getElem_append_left hk] at hb
    rw [List.set_append_left k b hk, verify_frame_iff, ← hv]
    exact ck16_set_ne hk hb
  · rw [List.getElem_append_right (by omega)] at hb
    rw [List.set_append_right k b (by omega)]
    obtain h | h : k - S.length = 0 ∨ k - S.length = 1 := by omega
    · simp only [h, List.getElem_cons_zero] at hb
      rw [h, List.set_cons_zero, verify_frame_iff, hv, recv_pair_inj]
      exact fun heq => hb heq.1.symm
    · simp only [h, List.getElem_cons_succ, List.getElem_cons_zero] at hb
      rw [h, List.set_cons_succ, List.set_cons_zero, verify_frame_iff, hv, recv_pair_inj]
      exact fun heq => hb heq.2.symm

theorem xor_twoPow_ne {j : Nat} (hj : j < 8) (b : Byte) : b ^^^ BitVec.twoPow 8 j ≠ b := by
  intro h
  have := congrArg (BitVec.getLsbD · j) h
  simp [hj] at this

/-- Settles O25: the flip replaces the byte by a different one. -/
theorem singleBitCorruptionIsDetected : Obligations.SingleBitCorruptionIsDetected := by
  unfold Obligations.SingleBitCorruptionIsDetected
  intro c F i j hi _ hj hv
  exact ⟨fun h2 => verify_set_of_ne hv hi h2 (xor_twoPow_ne hj F[i]),
    fun h2 => (verify_set_magic (four_le_length_of_verify hv) h2 _).trans hv⟩

/-! ## The steps -/

/-- Settles O28: the CKCOMP step, and the bounds of its sum. -/
theorem ckcompWritesTheChecksum : Obligations.CkcompWritesTheChecksum := by
  unfold Obligations.CkcompWritesTheChecksum
  rintro s r p ⟨hb, ho, hp⟩
  refine ⟨_, exec_ckcomp_step hb r p ho hp, rfl, rfl, fun h0 => ?_, ?_⟩
  · show ck16 (s.bytesAt txBase s.txlen.val) = 0xFFFF
    rw [h0]
    exact ck16_nil false
  · have hsum := byteSum_le (s.bytesAt 0x100 s.txlen.val)
    have hlen := s.txlen.isLt
    rw [State.length_bytesAt] at hsum
    omega

theorem State.ckverStep_err (s : State) : s.ckverStep.err =
    if verify s.ckord (s.bytesAt 0x200 s.rxlen.val) then .none else .checksum := rfl

/-- Settles O29: the CKVER step by the outcome of the verification. -/
theorem ckverReportsTheVerification : Obligations.CkverReportsTheVerification := by
  unfold Obligations.CkverReportsTheVerification
  rintro s r p ⟨hb, ho, hp⟩
  refine ⟨_, exec_ckver_step hb r p ho hp, rfl, ?_⟩
  rw [State.ckverStep_err]
  cases hv : verify s.ckord (s.bytesAt 0x200 s.rxlen.val) with
  | false => exact ⟨by simp, .inr rfl, fun _ => rfl⟩
  | true =>
    have hlen := four_le_length_of_verify hv
    rw [State.length_bytesAt] at hlen
    exact ⟨by simp, .inl rfl, fun _ => by omega⟩

/-- Settles O31: TXBUF holds the request frame, which ends in the emitted checksum of its covered bytes. -/
theorem encodedFrameVerifies : Obligations.EncodedFrameVerifies := by
  unfold Obligations.EncodedFrameVerifies
  intro s u r p r' p' hs hu
  obtain ⟨t, ht, hframe, hbytes, -⟩ := (encodeBuildsTheRequestFrame s r p).1 hs
  obtain ⟨v, hv, -, hbytes', -⟩ := (encodeBuildsTheRequestFrame u r' p').1 hu
  have hck : t.ckord = s.ckord := by rw [hframe]
  have hlen : t.txlen = 9 := by rw [hframe]
  refine ⟨t, v, ht, hv, ?_, fun h1 h2 h3 h4 h5 h6 => ?_⟩
  · rw [hck, hlen]
    exact (congrArg (verify s.ckord) hbytes).trans (verify_emit ..)
  · rw [hbytes, hbytes', h1, h2, h3, h4, h5, h6]

end Sys2Proof.Machine
end

section
/-! PROOFS. A transport on a silent link under the fair schedule (42_transport.md R183, R186, R187), and the QUERY that
runs it (44_query_host.md R270). -/

namespace Sys2Proof.Machine

/-! ## One attempt on a silent link -/

/-- Outside WAIT the fair schedule gives the operation in progress its next step (42_transport.md R187). -/
theorem step_fair_engine {s : State} {i : Instr} (ha : s.agenda = []) (hr : s.inReset = false) (hb : s.busy = true)
    (hp : s.phase ≠ .wait) (hi : s.current = some i) : step s = exec i s := by
  have he : ¬ s.expireEnabled = true := fun he => hp (s.expireEnabled_iff.mp he).1
  rw [step_nil ha, unlessReset_live hr, fairMove, if_neg he, engineMove_busy hb hi]

theorem step_fair_expire {s : State} (ha : s.agenda = []) (hr : s.inReset = false) (hp : s.phase = .wait)
    (hf : s.rxfifo = []) : step s = .next s.expireStep := by
  have he : s.expireEnabled = true := s.expireEnabled_iff.mpr ⟨hp, hf⟩
  rw [step_nil ha, unlessReset_live hr, fairMove, if_pos he, deadlineMove, if_pos he]

/-- An XACT or a QUERY at a SEND step, no event left and no byte buffered. -/
structure State.SilentSend (s : State) : Prop where
  agenda : s.agenda = []
  live : s.inReset = false
  busy : s.busy = true
  op : s.curOp = .xact ∨ s.curOp = .query
  phase : s.phase = .send
  timer : s.timer = .stopped
  silent : s.rxfifo = []

/-- What a SEND and the EXPIRE after it leave (42_transport.md R183, R186): one more frame sent, one more try. -/
def State.attempted (s : State) : State :=
  { s.txPush s.txSpan with tries := s.tries + 1, phase := .send, timer := .stopped }

theorem State.SilentSend.step_eq_sendStep {s : State} (h : s.SilentSend) : step s = .next s.sendStep := by
  have hp : s.phase ≠ .wait := by simp [h.phase]
  rcases h.op with ho | ho
  · exact (step_fair_engine h.agenda h.live h.busy hp (by simp only [State.current, ho])).trans
      (exec_xact_send h.busy s.curReg s.curPlen ho h.phase)
  · exact (step_fair_engine h.agenda h.live h.busy hp (by simp only [State.current, ho])).trans
      (exec_query_send h.busy s.curReg s.curPlen ho h.phase)

theorem State.SilentSend.attempted {s : State} (h : s.SilentSend) : s.attempted.SilentSend :=
  ⟨h.agenda, h.live, h.busy, h.op, rfl, rfl, h.silent⟩

theorem State.SilentSend.run_attempt {s : State} (h : s.SilentSend) (ht : s.tries.toNat < s.maxTries.toNat) (n : Nat) :
    Host.Core.run Sys2Proof.core (n + 2) s = Host.Core.run Sys2Proof.core n s.attempted := by
  have hsend := h.step_eq_sendStep
  rw [State.sendStep_push ht] at hsend
  exact (run_step hsend).trans (run_step (step_fair_expire h.agenda h.live rfl h.silent))

/-- On a silent link the frame is sent once for each attempt left, and the operation then times out. -/
theorem State.SilentSend.run_timeout {n : Nat} {s : State} (h : s.SilentSend)
    (hn : s.tries.toNat + n = s.maxTries.toNat) :
    Host.Core.run Sys2Proof.core (2 * n + 1) s = .next (State.complete { s with
      tries := s.maxTries, timer := .stopped
      txchan := s.txchan ++ (List.replicate n s.txSpan).flatten } .timeout) := by
  induction n generalizing s with
  | zero =>
    have htries : s.tries = s.maxTries := BitVec.eq_of_toNat_eq hn
    have hstep := h.step_eq_sendStep
    rw [State.sendStep_timeout (by omega)] at hstep
    rw [run_step hstep, run_zero, List.replicate_zero, List.flatten_nil, List.append_nil]
    simp only [State.complete, htries, h.timer]
  | succ n ih =>
    have ht : s.tries.toNat < s.maxTries.toNat := by omega
    have hleft : s.attempted.tries.toNat + n = s.attempted.maxTries.toNat := by
      show (s.tries + 1).toNat + n = s.maxTries.toNat
      rw [toNat_tries_succ ht]
      omega
    have hspan : s.attempted.txSpan = s.txSpan := rfl
    rw [show 2 * (n + 1) + 1 = 2 * n + 1 + 2 by omega, h.run_attempt ht, ih h.attempted hleft, hspan,
      List.replicate_succ, List.flatten_cons, ← List.append_assoc]
    rfl

/-! ## The QUERY -/

theorem State.Inv.idle_fields {s : State} (h : s.Inv) (hb : s.busy = false) :
    s.phase = .idle ∧ s.curOp = .none ∧ s.timer = .stopped := by
  have hp := h.idle hb
  refine ⟨hp, ?_, h.timer_stopped (by simp [hp])⟩
  have hmem := h.phase_mem
  rw [hp] at hmem
  revert hmem
  cases s.curOp <;> simp [Op.phases]

theorem step_queryWrite {s : State} {r p : Byte} {rest : List Event}
    (ha : s.agenda = .hostWrite 0x008 4 (cmdWord 0x6 r p) :: rest) (hr : s.inReset = false) (hb : s.busy = false) :
    step s = .next ((s.withAgenda rest).accept .query r p) := by
  obtain ⟨-, -, -, -, -, hquery⟩ := decodeCmd_cmdWord r p
  rw [cmdWriteRunsTheDecodedCommand s _ rest ha hr hb, hquery]
  exact exec_query_idle (s := s.withAgenda rest) hb r p

/-- Settles O49: acceptance, the ENCODE step of O30, and the attempts on a silent link. -/
theorem silentQueryTimesOutWithoutDecode : Obligations.SilentQueryTimesOutWithoutDecode := by
  unfold Obligations.SilentQueryTimesOutWithoutDecode
  intro s r p hinv hb hr hf ha body request
  obtain ⟨hphase, hop, htimer⟩ := hinv.idle_fields hb
  have haccept := step_queryWrite ha hr hb
  obtain ⟨u, hu, hframe, hbytes, hout⟩ :=
    (encodeBuildsTheRequestFrame ((s.withAgenda []).accept .query r p) r p).2 ⟨rfl, rfl, rfl⟩
  have hencode := (step_fair_engine (s := (s.withAgenda []).accept .query r p) rfl hr rfl (by simp [Op.firstPhase])
    rfl).trans hu
  have hsend : u.SilentSend := by
    rw [hframe]
    exact ⟨rfl, hr, rfl, .inr rfl, rfl, htimer, hf⟩
  have hspan : u.txSpan = request := by
    rw [State.txSpan, show u.txlen = 9 by rw [hframe]]
    exact hbytes
  have hrun := hsend.run_timeout (n := s.maxTries.toNat) (by rw [hframe]; exact Nat.zero_add _)
  rw [hspan] at hrun
  refine ⟨_, (run_step haccept).trans ((run_step hencode).trans hrun), ?_, hbytes, hout⟩
  rw [hframe]
  simp only [State.complete, hphase, hop, hb, htimer]
  rfl

end Sys2Proof.Machine
end

section
/-! PROOFS. The transport's steps (42_transport.md): SEND, CAPTURE, waiting and EXPIRE, the fair schedule, and an XACT on a
silent link. -/

namespace Sys2Proof.Machine

/-! ## The engine's step in SEND and in WAIT -/

/-- Settles O32: both operations take the one SEND step, by its two cases. -/
theorem sendPushesTheFrameOrTimesOut : Obligations.SendPushesTheFrameOrTimesOut := by
  unfold Obligations.SendPushesTheFrameOrTimesOut
  intro s r p i hi
  have hstep : exec i s = .next s.sendStep := by
    obtain ⟨rfl, hb, ho, hp⟩ | ⟨rfl, hb, ho, hp⟩ := hi
    · exact exec_xact_send hb r p ho hp
    · exact exec_query_send hb r p ho hp
  refine ⟨fun ht => ⟨?_, toNat_tries_succ ht⟩, fun ht => ?_⟩
  · rw [hstep, State.sendStep_push ht]
    rfl
  · rw [hstep, State.sendStep_timeout ht]
    rfl

theorem State.captured_eq_take (s : State) : s.captured = s.rxfifo.take (min s.rxfifo.length 256) := by
  rw [Nat.min_comm]
  exact List.take_eq_take_min

/-- CAPTURE's buffer part: RXLEN, the bytes of RXBUF, and every other byte. -/
theorem State.captureStep_buffer (s : State) :
    s.captureStep.rxlen.val = min s.rxfifo.length 256 ∧
    s.captureStep.bytesAt 0x200 (min s.rxfifo.length 256) = s.rxfifo.take (min s.rxfifo.length 256) ∧
    SameBytesOutside 0x200 (min s.rxfifo.length 256) s s.captureStep := by
  have hlen : s.captured.length = min s.rxfifo.length 256 := by rw [s.length_captured, Nat.min_comm]
  refine ⟨?_, ?_, fun a ha => ?_⟩
  · rw [s.captureStep_frame]
    rfl
  · rw [← s.captured_eq_take, ← hlen]
    exact s.bytesAt_captureStep
  · rw [← hlen] at ha
    rw [s.byteAt_captureStep]
    exact s.byteAt_store_outside rxBase a s.captured ha

theorem State.rxfifo_drop_min (s : State) :
    s.rxfifo.drop (min s.rxfifo.length 256) = s.rxfifo.drop Config.rxbufSize := by
  rw [Nat.min_comm]
  exact List.drop_eq_drop_min.symm

/-- The CAPTURE step of an XACT, but for the two fields of `captureStep_buffer`: it completes with NONE. -/
theorem State.captureStep_of_xact {s : State} (ho : s.curOp = .xact) : s.captureStep = { s with
    mem := s.captureStep.mem, rxlen := s.captureStep.rxlen, rxfifo := s.rxfifo.drop (min s.rxfifo.length 256)
    timer := .stopped, err := .none, phase := .idle, busy := false, done := true, curOp := .none } := by
  rw [s.rxfifo_drop_min, State.captureStep, if_pos ho]
  rfl

/-- The CAPTURE step of any other operation, likewise: it hands on to DECODE. -/
theorem State.captureStep_of_not_xact {s : State} (ho : s.curOp ≠ .xact) : s.captureStep = { s with
    mem := s.captureStep.mem, rxlen := s.captureStep.rxlen, rxfifo := s.rxfifo.drop (min s.rxfifo.length 256)
    timer := .stopped, phase := .decode } := by
  rw [s.rxfifo_drop_min, State.captureStep, if_neg ho]
  rfl

/-- Settles O33: the CAPTURE step, ended as the operation in progress ends it. -/
theorem captureTakesWhatIsBuffered : Obligations.CaptureTakesWhatIsBuffered := by
  unfold Obligations.CaptureTakesWhatIsBuffered
  intro s r p hf k
  have hwait : s.waitStep = s.captureStep := State.waitStep_byte hf
  refine ⟨fun ⟨hb, ho, hp⟩ => ⟨s.captureStep, ?_, State.captureStep_of_xact ho, s.captureStep_buffer⟩,
    fun ⟨hb, ho, hp⟩ => ⟨s.captureStep, ?_, State.captureStep_of_not_xact (by simp [ho]), s.captureStep_buffer⟩⟩
  · rw [exec_xact_wait hb r p ho hp, hwait]
  · rw [exec_query_wait hb r p ho hp, hwait]

/-- Settles O34: in WAIT the engine's step is `waitStep`, which does nothing on an empty FIFO. -/
theorem waitWithoutAByteOnlyWaits : Obligations.WaitWithoutAByteOnlyWaits := by
  unfold Obligations.WaitWithoutAByteOnlyWaits
  intro s r p hf
  refine ⟨fun ⟨hb, ho, hp⟩ => ?_, fun ⟨hb, ho, hp⟩ => ?_⟩
  · rw [exec_xact_wait hb r p ho hp, State.waitStep_empty hf]
  · rw [exec_query_wait hb r p ho hp, State.waitStep_empty hf]

/-! ## EXPIRE and the fair schedule -/

/-- Outside WAIT, or with a byte buffered, EXPIRE is not enabled (42_transport.md R186). -/
theorem State.not_expireEnabled {s : State} (h : s.phase ≠ .wait ∨ s.rxfifo ≠ []) : ¬ s.expireEnabled = true := by
  rw [s.expireEnabled_iff]
  tauto

/-- Settles O35: the DEADLINE event takes EXPIRE exactly where it is enabled. -/
theorem deadlineAbandonsTheAttempt : Obligations.DeadlineAbandonsTheAttempt := by
  unfold Obligations.DeadlineAbandonsTheAttempt
  intro s rest ha hr
  have hstep : step s = deadlineMove (s.withAgenda rest) :=
    (step_cons ha).trans (unlessReset_live (s := s.withAgenda rest) hr _)
  refine ⟨fun hp hf => ?_, fun h => ?_⟩
  · have he : (s.withAgenda rest).expireEnabled = true := (State.expireEnabled_iff _).mpr ⟨hp, hf⟩
    rw [hstep, deadlineMove, if_pos he]
    rfl
  · have he : ¬ (s.withAgenda rest).expireEnabled = true := State.not_expireEnabled h
    rw [hstep, deadlineMove, if_neg he]
    rfl

/-- Settles O7: with EXPIRE not enabled the fair move is the engine's. -/
theorem emptyAgendaRunsTheFairSchedule : Obligations.EmptyAgendaRunsTheFairSchedule := by
  unfold Obligations.EmptyAgendaRunsTheFairSchedule
  intro s ha hr
  have hengine (h : s.phase ≠ .wait ∨ s.rxfifo ≠ []) : step s = engineMove s := by
    rw [step_nil ha, unlessReset_live hr, fairMove, if_neg (State.not_expireEnabled h)]
  exact ⟨fun hp hf => step_fair_expire ha hr hp hf, fun h hb => (hengine h).trans (engineMove_idle hb),
    fun i h hb hi => (hengine h).trans (engineMove_busy hb hi)⟩

/-! ## An XACT on a silent link -/

theorem step_xactWrite {s : State} {r p : Byte} {rest : List Event}
    (ha : s.agenda = .hostWrite 0x008 4 (cmdWord 0x4 r p) :: rest) (hr : s.inReset = false) (hb : s.busy = false) :
    step s = .next ((s.withAgenda rest).accept .xact r p) := by
  obtain ⟨-, -, -, hxact, -, -⟩ := decodeCmd_cmdWord r p
  rw [cmdWriteRunsTheDecodedCommand s _ rest ha hr hb, hxact]
  exact exec_xact_idle (s := s.withAgenda rest) hb r p

/-- Settles O36: acceptance leaves a silent SEND with no try counted, so MAX_TRIES attempts follow. -/
theorem silentLinkSendsExactlyMaxTries : Obligations.SilentLinkSendsExactlyMaxTries := by
  unfold Obligations.SilentLinkSendsExactlyMaxTries
  intro s r p hinv hb hr hf ha
  obtain ⟨hphase, hop, htimer⟩ := hinv.idle_fields hb
  have hsend : State.SilentSend ((s.withAgenda []).accept .xact r p) :=
    ⟨rfl, hr, rfl, .inl rfl, rfl, htimer, hf⟩
  have hrun := hsend.run_timeout (n := s.maxTries.toNat) (Nat.zero_add _)
  refine (run_step (step_xactWrite ha hr hb)).trans (hrun.trans ?_)
  simp only [State.complete, hphase, hop, hb, htimer]
  rfl

end Sys2Proof.Machine
end

section
/-! PROOFS. The DECODE step (43_decode.md): the validation of the frame, the codes without a decoder and the two-byte
decoders. -/

namespace Sys2Proof.Machine

/-! ## The validation -/

/-- The first failing check of a frame that does not pass the validation (43_decode.md R224). -/
theorem frameError_eq_some {s : State} {e : Cause}
    (h : (e = .truncated ∧ s.rxlen.val < 4) ∨
      (e = .checksum ∧ 4 ≤ s.rxlen.val ∧ verify s.ckord s.rxFrame = false) ∨
      (e = .regMismatch ∧ 4 ≤ s.rxlen.val ∧ verify s.ckord s.rxFrame = true ∧
        (s.rxlen.val < 6 ∨ s.rxByte 5 ≠ s.curReg))) : s.frameError = some e := by
  unfold State.frameError
  obtain ⟨rfl, h4⟩ | ⟨rfl, h4, hv⟩ | ⟨rfl, h4, hv, hecho⟩ := h
  · rw [if_pos h4]
  · rw [if_neg (by omega), if_pos hv]
  · rw [if_neg (by omega), if_neg (by simp [hv])]
    by_cases h6 : s.rxlen.val < 6
    · rw [if_pos h6]
    · rw [if_neg h6, if_pos (hecho.resolve_left h6)]

/-- Settles O37: the DECODE step on a frame whose first failing check is `e`. -/
theorem invalidFrameCompletesWithTheFirstCause : Obligations.InvalidFrameCompletesWithTheFirstCause := by
  unfold Obligations.InvalidFrameCompletesWithTheFirstCause
  intro s r p i e hi ok he
  have hstep : s.AtDecodeStep i := hi.imp (fun h => ⟨r, p, h⟩) (fun h => ⟨r, p, h⟩)
  rw [exec_atDecodeStep hstep, decodeStep_error (frameError_eq_some he)]
  rfl

theorem frameError_cause_mem {s : State} {e : Cause} (h : s.frameError = some e) :
    e ∈ [Cause.none, .checksum, .regMismatch, .truncated] := by
  unfold State.frameError at h
  split_ifs at h <;> cases h <;> decide

/-- A decoder gives NONE or, on a short scalar, TRUNCATED (43_decode.md R225). -/
theorem DecoderEffect.cause_mem {a t : State} (he : DecoderEffect a t) :
    t.err ∈ [Cause.none, .checksum, .regMismatch, .truncated] := by
  obtain h | rfl := he.cause
  · simp [h]
  · simp [State.shortScalar]

/-- Settles O38: by the two cases of the DECODE step. A decoder that gives an error is a short scalar, which writes
nothing. -/
theorem decodeCompletesOnEveryFrame : Obligations.DecodeCompletesOnEveryFrame := by
  unfold Obligations.DecodeCompletesOnEveryFrame
  intro s i hi
  obtain ⟨t, ht, ⟨e, he, rfl⟩ | ⟨-, he⟩⟩ := decodeStep_cases s <;>
    refine ⟨_, (exec_atDecodeStep hi).trans ht, ?_⟩
  · exact ⟨⟨rfl, rfl, rfl, rfl, rfl⟩, frameError_cause_mem he, rfl, fun _ _ => rfl,
      fun _ => ⟨fun _ => rfl, rfl, rfl, rfl, rfl, rfl, rfl, rfl, rfl, rfl⟩⟩
  · have htreg : t.treg = s.rxByte 5 := by rw [he.frame]; rfl
    refine ⟨?_, he.cause_mem, ?_, he.bytes, fun herr => ?_⟩
    · rw [he.frame]
      exact ⟨rfl, rfl, rfl, rfl, rfl⟩
    · rw [htreg]
      exact he.frame
    · obtain rfl := he.cause.resolve_left herr
      exact ⟨fun _ => rfl, rfl, rfl, rfl, rfl, rfl, rfl, rfl, rfl, rfl⟩

/-- Past the validation the DECODE step runs the decoder of CUR_REG, which byte 5 echoes (43_decode.md R221). -/
theorem exec_of_validFrame {s : State} {i : Instr} (hi : s.AtDecodeStep i) (h6 : 6 ≤ s.rxlen.val)
    (hv : verify s.ckord s.rxFrame = true) (hecho : s.rxByte 5 = s.curReg) :
    exec i s = exec (decodeRegCode s.curReg) s.atDispatch := by
  rw [exec_atDecodeStep hi, decodeStep_ok (frameError_eq_none h6 hv hecho), hecho]

theorem State.atDispatch_of_echo {s : State} (hecho : s.rxByte 5 = s.curReg) :
    s.atDispatch = { s.clearTlm with treg := s.curReg } := by
  rw [State.atDispatch, hecho]

/-! ## Register codes without a decoder -/

theorem mem_listedCodes_iff (c : Byte) : c ∈ listedCodes ↔ c.toNat ∈ 0x10 :: 0x40 :: scalarCodes := by
  simp [listedCodes, scalarCodes, ← BitVec.toNat_inj]
  tauto

/-- Settles O45: an unlisted code's decoder is DEC_NONE, which only completes. -/
theorem unlistedRegisterCodeIsIgnored : Obligations.UnlistedRegisterCodeIsIgnored := by
  unfold Obligations.UnlistedRegisterCodeIsIgnored
  refine ⟨fun s code => rfl, fun s i hi h6 hv hecho hcode => ?_⟩
  rw [exec_of_validFrame hi h6 hv hecho, State.atDispatch_of_echo hecho,
    decodeRegCode_of_unlisted (fun hc => hcode ((mem_listedCodes_iff _).mp hc))]
  rfl

/-! ## The two-byte decoders -/

/-- What a two-byte decoder with the given raw field and value leaves on a frame of at least ten bytes, but for its
writes beside them (43_decode.md R223). -/
def State.scalarDone (s : State) (raw : Half) (value : Word) : State :=
  { s with
    tlmValue := value, tlmRaw := raw, tvalid := true, tcount := 0
    err := .none, phase := .idle, busy := false, done := true, curOp := .none }

/-- The decoders of an unsigned field without a scale or flags (43_decode.md R230 to R232, R234, R235, R239). -/
def unsignedDecoders : List Instr := [.decFwver, .decFactcap, .decActcap, .decRemcapMah, .decRemcapPct, .decHealth]

theorem exec_unsigned_eq {i : Instr} (hi : i ∈ unsignedDecoders) (s : State) :
    exec i s = .next (s.scalarDecode unsignedValue) := by
  simp only [unsignedDecoders, List.mem_cons, List.not_mem_nil, or_false] at hi
  rcases hi with rfl | rfl | rfl | rfl | rfl | rfl <;> rfl

section tenBytes
variable {s : State} {raw : Half} (h : 10 ≤ s.rxlen.val) (hraw : s.rxField 6 = raw)
include h hraw

theorem exec_unsigned_ge {i : Instr} (hi : i ∈ unsignedDecoders) :
    exec i s = .next (s.scalarDone raw (zext32 raw)) := by
  rw [exec_unsigned_eq hi, State.scalarDecode_ge h, hraw]
  rfl

theorem exec_decStatus_ge : exec .decStatus s = .next { s.scalarDone raw (zext32 raw) with
    tlmFlags := Config.statusBitFn (s.rxByte 6) (s.rxByte 7) } := by
  rw [exec, execDecStatus, State.scalarDecode_ge h, hraw]
  rfl

theorem exec_decCurrent_ge : exec .decCurrent s = .next { s.scalarDone raw (sext32 raw * 10) with
    cacheI := sext32 raw * 10, civ := true } := by
  rw [exec, execDecCurrent, State.scalarDecode_ge h, hraw]
  rfl

theorem exec_decVoltage_ge : exec .decVoltage s = .next (s.scalarDone raw (zext32 raw * 10)) := by
  rw [exec, execDecVoltage, State.scalarDecode_ge h, hraw]
  rfl

end tenBytes

/-- A two-byte decoder on fewer than ten bytes writes no value (43_decode.md R223, R225). -/
theorem exec_scalar_lt {s : State} {i : Instr} {own : Half → State → State}
    (hi : exec i s = .next (s.scalarDecode own)) (h : s.rxlen.val < 10) : ∃ t, exec i s = .next t ∧
      t = { s with
        treg := t.treg, err := .truncated, phase := .idle, busy := false, done := true, curOp := .none } :=
  ⟨s.shortScalar, by rw [hi, State.scalarDecode_lt h], rfl⟩

/-- Settles O39: the six decoders of an unsigned field, by the length of the frame. -/
theorem unsignedScalarsDecode : Obligations.UnsignedScalarsDecode := by
  unfold Obligations.UnsignedScalarsDecode
  exact fun s i hi => ⟨fun h => ⟨_, exec_unsigned_ge h rfl hi, rfl, toNat_rxField_six s, toNat_zext32 _⟩,
    exec_scalar_lt (exec_unsigned_eq hi s)⟩

/-- Settles O40: 0x30 also writes the flags, the OPEN function of bytes 6 and 7. -/
theorem statusBitsDecode : Obligations.StatusBitsDecode := by
  unfold Obligations.StatusBitsDecode
  exact fun s => ⟨fun h => ⟨_, exec_decStatus_ge h rfl, rfl, toNat_rxField_six s, toNat_zext32 _⟩,
    exec_scalar_lt rfl⟩

/-- Settles O41: 0x33 scales the signed field by ten and writes it to CACHE_I too. -/
theorem currentDecodesSignedAndIsCached : Obligations.CurrentDecodesSignedAndIsCached := by
  unfold Obligations.CurrentDecodesSignedAndIsCached
  exact fun s => ⟨fun h => ⟨_, exec_decCurrent_ge h rfl, rfl, toNat_rxField_six s, toInt_sext32_mul_ten _⟩,
    exec_scalar_lt rfl⟩

/-- Settles O42: 0x34 scales the unsigned field by ten. -/
theorem voltageDecodesScaled : Obligations.VoltageDecodesScaled := by
  unfold Obligations.VoltageDecodesScaled
  exact fun s => ⟨fun h => ⟨_, exec_decVoltage_ge h rfl, rfl, toNat_rxField_six s, toNat_zext32_mul_ten _⟩,
    exec_scalar_lt rfl⟩

/-- The two-byte decoder a scalar code selects (30_encoding.md R111). -/
theorem decodeRegCode_scalar {c : Byte} (h : c.toNat ∈ scalarCodes) :
    (c.toNat ∉ [0x30, 0x33, 0x34] ∧ decodeRegCode c ∈ unsignedDecoders) ∨
      (c.toNat = 0x30 ∧ decodeRegCode c = .decStatus) ∨ (c.toNat = 0x33 ∧ decodeRegCode c = .decCurrent) ∨
      (c.toNat = 0x34 ∧ decodeRegCode c = .decVoltage) := by
  have hc : c = BitVec.ofNat 8 c.toNat := by simp
  simp only [scalarCodes, List.mem_cons, List.not_mem_nil, or_false] at h
  rcases h with h | h | h | h | h | h | h | h | h <;> rw [h] at hc <;> subst hc <;> decide

/-- Settles O46: the frame passes the validation, and the two-byte decoder of its code finds ten bytes. -/
theorem decodeOfAScalarFrame : Obligations.DecodeOfAScalarFrame := by
  unfold Obligations.DecodeOfAScalarFrame
  intro s i hi h10 hv hecho hcode
  have hdispatch := exec_of_validFrame hi (by omega) hv hecho
  have hlen : 10 ≤ s.atDispatch.rxlen.val := h10
  have hraw := toNat_rxField_six s
  obtain ⟨hc, hd⟩ | ⟨hc, hd⟩ | ⟨hc, hd⟩ | ⟨hc, hd⟩ := decodeRegCode_scalar hcode
  · refine ⟨_, hdispatch.trans (exec_unsigned_ge hlen rfl hd), ⟨rfl, rfl, rfl, rfl, rfl⟩, hecho, rfl, rfl, hraw,
      fun _ => toNat_zext32 _, fun h => absurd ?_ hc, fun h => absurd ?_ hc, fun _ => rfl,
      fun _ => ⟨rfl, rfl⟩⟩ <;> simp [h]
  all_goals rw [hd] at hdispatch
  · refine ⟨_, hdispatch.trans (exec_decStatus_ge hlen rfl), ⟨rfl, rfl, rfl, rfl, rfl⟩, hecho, rfl, rfl, hraw,
      fun _ => toNat_zext32 _, ?_, ?_, fun h => absurd hc h, fun _ => ⟨rfl, rfl⟩⟩ <;> simp [hc]
  · refine ⟨_, hdispatch.trans (exec_decCurrent_ge hlen rfl), ⟨rfl, rfl, rfl, rfl, rfl⟩, hecho, rfl, rfl, hraw,
      ?_, fun _ => ⟨toInt_sext32_mul_ten _, rfl, rfl⟩, ?_, fun _ => rfl, fun h => absurd hc h⟩ <;> simp [hc]
  · refine ⟨_, hdispatch.trans (exec_decVoltage_ge hlen rfl), ⟨rfl, rfl, rfl, rfl, rfl⟩, hecho, rfl, rfl, hraw,
      ?_, ?_, fun _ => toNat_zext32_mul_ten _, fun _ => rfl, fun _ => ⟨rfl, rfl⟩⟩ <;> simp [hc]

end Sys2Proof.Machine
end

section
/-! PROOFS. The two decoders that write TLM_ELEM (43_decode.md R240, R241). -/

namespace Sys2Proof.Machine

/-! ## The elements of 0x40 -/

/-- What DEC_CELLS leaves (43_decode.md R240). -/
def State.cellsDone (s : State) : State :=
  { s with
    mem := s.mem.writeList elemBase (elemBytes s.cells), tcount := BitVec.ofNat 8 s.cells.length, tvalid := true
    err := .none, phase := .idle, busy := false, done := true, curOp := .none }

theorem exec_decCells (s : State) : exec .decCells s = .next s.cellsDone := rfl

theorem State.cellsDone_frame (s : State) : s.cellsDone = { s with
    mem := s.cellsDone.mem, tcount := s.cellsDone.tcount, tvalid := true
    err := .none, phase := .idle, busy := false, done := true, curOp := .none } := rfl

theorem State.toNat_tcount_cellsDone (s : State) : s.cellsDone.tcount.toNat = s.cells.length :=
  (BitVec.toNat_ofNat _ _).trans (Nat.mod_eq_of_lt (by have := s.length_cells_le; omega))

theorem State.elem_cellsDone (s : State) {k : Nat} (hk : k < s.cells.length) : s.cellsDone.elem k = s.cells[k] :=
  s.elem_of_store s.cellsDone s.cells k hk fun _ _ _ => rfl

theorem State.getElem_cells (s : State) {k : Nat} (hk : k < s.cells.length) :
    s.cells[k] = s.rxField (s.cellStart + 2 * k) := by
  simp [State.cells]

/-- The pairs of the sequence lie in the payload span `6 .. N-3` (43_decode.md R240). -/
theorem State.cell_in_payload (s : State) {k : Nat} (hk : k < s.cells.length) :
    s.cellStart + 2 * k + 1 ≤ s.rxlen.val - 3 := by
  rw [s.length_cells] at hk
  omega

theorem State.cellsDone_bytesOutside (s : State) : SameBytesOutside 0x300 (2 * s.cells.length) s s.cellsDone := by
  intro a ha
  exact s.byteAt_store_outside elemBase a _ (by rwa [length_elemBytes])

theorem State.toNat_rxField (s : State) (i : Nat) :
    (s.rxField i).toNat = (s.byteAt (0x200 + i)).toNat + 0x100 * (s.byteAt (0x200 + i + 1)).toNat :=
  toNat_le16 _ _

theorem State.elems_cellsDone (s : State) : s.cellsDone.elems = s.cells := by
  apply List.ext_getElem
  · simp [State.elems, s.toNat_tcount_cellsDone]
  · intro k _ hk
    simp [State.elems, s.elem_cellsDone hk]

/-- Settles O43: TLM_ELEM is written with `s.cells`, whose length is the statement's count. -/
theorem cellVoltagesDecode : Obligations.CellVoltagesDecode := by
  unfold Obligations.CellVoltagesDecode
  intro s n st c
  have hst : s.cellStart = st := rfl
  have hc : s.cells.length = c := by
    rw [s.length_cells, hst]
    simp only [c]
    split <;> omega
  have hbytes := s.cellsDone_bytesOutside
  rw [hc] at hbytes
  refine ⟨s.cellsDone, exec_decCells s, s.cellsDone_frame, hc ▸ s.toNat_tcount_cellsDone,
    hc ▸ s.length_cells_le, fun k hk => ⟨s.cell_in_payload (hc ▸ hk), ?_⟩, hbytes⟩
  rw [s.elem_cellsDone (hc ▸ hk), s.getElem_cells, s.toNat_rxField, hst, Nat.add_assoc 0x200 st]

/-! ## The elements of 0x10 -/

/-- The elements of a serial number: its bytes, zero-extended (43_decode.md R241). -/
def State.serialElems (s : State) : List Half := s.serial.map fun b => b.zeroExtend 16

@[simp] theorem State.length_serialElems (s : State) : s.serialElems.length = s.serial.length := List.length_map _

theorem State.storeSerial_eq (s : State) :
    s.storeSerial = (s.store elemBase (elemBytes s.serialElems)).store snBase s.serial := rfl

/-- What DEC_SERIAL leaves (43_decode.md R241). -/
def State.serialDone (s : State) : State :=
  { s with
    mem := s.storeSerial.mem, tcount := BitVec.ofNat 8 s.serial.length, tvalid := true
    cslen := BitVec.ofNat 8 s.serial.length, csv := true
    err := .none, phase := .idle, busy := false, done := true, curOp := .none }

theorem exec_decSerial (s : State) : exec .decSerial s = .next s.serialDone := by
  rw [exec, execDecSerial_eq, State.serialDone]
  simp only [State.complete, State.storeSerial, State.store]

theorem State.byteAt_serialDone (s : State) (a : Nat) : s.serialDone.byteAt a = s.storeSerial.byteAt a :=
  State.byteAt_congr rfl rfl a

theorem State.serialDone_frame (s : State) : s.serialDone = { s with
    mem := s.serialDone.mem, tcount := s.serialDone.tcount, tvalid := true, cslen := s.serialDone.tcount, csv := true
    err := .none, phase := .idle, busy := false, done := true, curOp := .none } := rfl

theorem State.toNat_tcount_serialDone (s : State) : s.serialDone.tcount.toNat = s.serial.length :=
  (BitVec.toNat_ofNat _ _).trans (Nat.mod_eq_of_lt (by have := s.length_serial_le; omega))

theorem State.getElem_serial (s : State) {k : Nat} (hk : k < s.serial.length) :
    s.serial[k] = s.byteAt (0x206 + k) := by
  simp [State.serial, rxBase]

theorem State.getElem_serialElems (s : State) {k : Nat} (hk : k < s.serialElems.length) :
    s.serialElems[k] = (s.byteAt (0x206 + k)).zeroExtend 16 := by
  simp [State.serialElems, State.serial, rxBase]

/-- CACHE_SN lies past TLM_ELEM, so its bytes do not disturb the elements. -/
theorem State.elem_serialDone (s : State) {k : Nat} (hk : k < s.serialElems.length) :
    s.serialDone.elem k = s.serialElems[k] := by
  have hl := s.length_serial_le
  refine s.elem_of_store _ s.serialElems k hk fun a _ ha => ?_
  rw [s.length_serialElems] at ha
  rw [s.byteAt_serialDone, s.storeSerial_eq, State.byteAt_store_outside]
  simp only [snBase]
  omega

theorem State.cacheSn_serialDone (s : State) {k : Nat} (hk : k < s.serial.length) :
    s.serialDone.byteAt (0x500 + k) = s.serial[k] :=
  State.byteAt_store_inside _ snBase k s.serial hk

theorem State.serialDone_bytesOutside (s : State) {a : Nat}
    (he : ¬ (0x300 ≤ a ∧ a < 0x300 + 2 * s.serial.length))
    (hs : ¬ (0x500 ≤ a ∧ a < 0x500 + s.serial.length)) : s.serialDone.byteAt a = s.byteAt a := by
  rw [s.byteAt_serialDone, s.storeSerial_eq, State.byteAt_store_outside _ snBase a _ hs, State.byteAt_store_outside]
  rwa [length_elemBytes, s.length_serialElems]

theorem State.elems_serialDone (s : State) : s.serialDone.elems = s.serialElems := by
  apply List.ext_getElem
  · simp [State.elems, s.toNat_tcount_serialDone]
  · intro k _ hk
    simp [State.elems, s.elem_serialDone hk]

/-- Settles O44: TLM_ELEM and CACHE_SN are written with `s.serial`, whose length is the statement's count. -/
theorem serialNumberDecodesAndIsCached : Obligations.SerialNumberDecodesAndIsCached := by
  unfold Obligations.SerialNumberDecodesAndIsCached
  intro s n c
  have hc : c = s.serial.length := by
    rw [s.length_serial]
    simp only [c]
    split <;> omega
  rw [hc]
  refine ⟨s.serialDone, exec_decSerial s, s.serialDone_frame, s.toNat_tcount_serialDone, s.length_serial_le,
    fun k hk => ⟨?_, ?_, ?_⟩, fun a => s.serialDone_bytesOutside⟩
  · rw [s.length_serial] at hk
    omega
  · rw [← s.length_serialElems] at hk
    rw [s.elem_serialDone hk, s.getElem_serialElems]
  · rw [s.cacheSn_serialDone hk, s.getElem_serial]

end Sys2Proof.Machine
end

section
/-! PROOFS. What the results of a DECODE step depend on (43_decode.md R226, R244). -/

namespace Sys2Proof.Machine

/-- The two states agree on all that a DECODE step reads (43_decode.md R244). -/
structure State.SameFrame (s u : State) : Prop where
  rxlen : u.rxlen = s.rxlen
  curReg : u.curReg = s.curReg
  ckord : u.ckord = s.ckord
  celloff : u.celloff = s.celloff
  byte : ∀ k, k < s.rxlen.val → u.rxByte k = s.rxByte k

/-- The two states agree on the results of a DECODE step (43_decode.md R226). -/
def State.SameDecode (t v : State) : Prop :=
  v.err = t.err ∧ v.treg = t.treg ∧ v.tvalid = t.tvalid ∧ v.tcount = t.tcount ∧ v.tlmValue = t.tlmValue ∧
    v.tlmRaw = t.tlmRaw ∧ v.tlmFlags = t.tlmFlags ∧ v.elems = t.elems

theorem State.elems_of_tcount_zero {s : State} (h : s.tcount = 0) : s.elems = [] := by
  simp [State.elems, h]

/-- Results without elements. -/
theorem State.SameDecode.of_tcount_zero {t v : State} (err : v.err = t.err) (treg : v.treg = t.treg)
    (tvalid : v.tvalid = t.tvalid) (ht : t.tcount = 0) (hv : v.tcount = 0) (value : v.tlmValue = t.tlmValue)
    (raw : v.tlmRaw = t.tlmRaw) (flags : v.tlmFlags = t.tlmFlags) : t.SameDecode v :=
  ⟨err, treg, tvalid, hv.trans ht.symm, value, raw, flags,
    (State.elems_of_tcount_zero hv).trans (State.elems_of_tcount_zero ht).symm⟩

namespace State.SameFrame

variable {s u : State} (h : s.SameFrame u)
include h

theorem rxFrame_eq : u.rxFrame = s.rxFrame := by
  rw [State.rxFrame, h.rxlen]
  exact State.bytesAt_congr h.byte

theorem rxField_eq {i : Nat} (hi : i + 1 < s.rxlen.val) : u.rxField i = s.rxField i := by
  rw [State.rxField, h.byte i (by omega), h.byte (i + 1) hi, State.rxField]

theorem cells_eq : u.cells = s.cells := by
  have hstart : u.cellStart = s.cellStart := by rw [State.cellStart, h.celloff, State.cellStart]
  apply List.ext_getElem
  · rw [u.length_cells, s.length_cells, h.rxlen, hstart]
  · intro k hu hs
    have hin := s.length_cells ▸ hs
    rw [u.getElem_cells, s.getElem_cells, hstart, h.rxField_eq (by omega)]

theorem serial_eq : u.serial = s.serial := by
  rw [State.serial, State.serial, h.rxlen]
  refine State.bytesAt_congr fun k hk => ?_
  rw [Nat.add_assoc]
  exact h.byte (6 + k) (by omega)

/-- The validation looks at byte 5 only where the frame has it. -/
theorem frameError_eq : u.frameError = s.frameError := by
  unfold State.frameError
  rw [h.rxlen, h.ckord, h.rxFrame_eq, h.curReg]
  by_cases h6 : s.rxlen.val < 6
  · simp only [if_pos h6]
  · rw [h.byte 5 (by omega)]

theorem atDispatch_treg (h6 : 6 ≤ s.rxlen.val) : u.atDispatch.treg = s.atDispatch.treg := h.byte 5 (by omega)

/-- The two-byte decoders see bytes 6 and 7, and only of a frame of at least ten bytes. -/
theorem scalar_sameDecode (h6 : 6 ≤ s.rxlen.val) {c : Byte} (hc : c.toNat ∈ scalarCodes) :
    ∃ t v, exec (decodeRegCode c) s.atDispatch = .next t ∧ exec (decodeRegCode c) u.atDispatch = .next v ∧
      t.SameDecode v := by
  have htreg := h.atDispatch_treg h6
  by_cases h10 : 10 ≤ s.rxlen.val
  · have hs : 10 ≤ s.atDispatch.rxlen.val := h10
    have hu : 10 ≤ u.atDispatch.rxlen.val := h.rxlen ▸ h10
    have hf : u.atDispatch.rxField 6 = s.atDispatch.rxField 6 := h.rxField_eq (by omega)
    have hflags : Config.statusBitFn (u.atDispatch.rxByte 6) (u.atDispatch.rxByte 7) =
        Config.statusBitFn (s.atDispatch.rxByte 6) (s.atDispatch.rxByte 7) :=
      congrArg₂ _ (h.byte 6 (by omega)) (h.byte 7 (by omega))
    obtain ⟨-, hd⟩ | ⟨-, hd⟩ | ⟨-, hd⟩ | ⟨-, hd⟩ := decodeRegCode_scalar hc
    · exact ⟨_, _, exec_unsigned_ge hs rfl hd, exec_unsigned_ge hu hf hd,
        .of_tcount_zero rfl htreg rfl rfl rfl rfl rfl rfl⟩
    all_goals rw [hd]
    · exact ⟨_, _, exec_decStatus_ge hs rfl, exec_decStatus_ge hu hf,
        .of_tcount_zero rfl htreg rfl rfl rfl rfl rfl hflags⟩
    · exact ⟨_, _, exec_decCurrent_ge hs rfl, exec_decCurrent_ge hu hf,
        .of_tcount_zero rfl htreg rfl rfl rfl rfl rfl rfl⟩
    · exact ⟨_, _, exec_decVoltage_ge hs rfl, exec_decVoltage_ge hu hf,
        .of_tcount_zero rfl htreg rfl rfl rfl rfl rfl rfl⟩
  · obtain ⟨own, hs⟩ := exec_scalar_eq hc s.atDispatch
    obtain ⟨own', hu⟩ := exec_scalar_eq hc u.atDispatch
    have hls : s.atDispatch.rxlen.val < 10 := Nat.lt_of_not_le h10
    have hlu : u.atDispatch.rxlen.val < 10 := h.rxlen ▸ hls
    rw [State.scalarDecode_lt hls] at hs
    rw [State.scalarDecode_lt hlu] at hu
    exact ⟨_, _, hs, hu, .of_tcount_zero rfl htreg rfl rfl rfl rfl rfl rfl⟩

theorem atDispatch : s.atDispatch.SameFrame u.atDispatch := ⟨h.rxlen, h.curReg, h.ckord, h.celloff, h.byte⟩

theorem cellsDone_sameDecode (h6 : 6 ≤ s.rxlen.val) :
    s.atDispatch.cellsDone.SameDecode u.atDispatch.cellsDone := by
  have hcells := h.atDispatch.cells_eq
  refine ⟨rfl, h.atDispatch_treg h6, rfl, ?_, rfl, rfl, rfl, ?_⟩
  · exact congrArg (fun cs : List Half => BitVec.ofNat 8 cs.length) hcells
  · rw [State.elems_cellsDone, State.elems_cellsDone, hcells]

theorem serialDone_sameDecode (h6 : 6 ≤ s.rxlen.val) :
    s.atDispatch.serialDone.SameDecode u.atDispatch.serialDone := by
  have hserial := h.atDispatch.serial_eq
  refine ⟨rfl, h.atDispatch_treg h6, rfl, ?_, rfl, rfl, rfl, ?_⟩
  · exact congrArg (fun bs : List Byte => BitVec.ofNat 8 bs.length) hserial
  · rw [State.elems_serialDone, State.elems_serialDone, State.serialElems, hserial, State.serialElems]

/-- The decoders of the two states give the same results. -/
theorem decoder_sameDecode (h6 : 6 ≤ s.rxlen.val) (c : Byte) :
    ∃ t v, exec (decodeRegCode c) s.atDispatch = .next t ∧ exec (decodeRegCode c) u.atDispatch = .next v ∧
      t.SameDecode v := by
  by_cases hc : c ∈ listedCodes
  · rw [mem_listedCodes_iff, List.mem_cons, List.mem_cons] at hc
    obtain hc | hc | hc := hc
    · obtain rfl : c = 0x10 := BitVec.eq_of_toNat_eq hc
      exact ⟨_, _, exec_decSerial _, exec_decSerial _, h.serialDone_sameDecode h6⟩
    · obtain rfl : c = 0x40 := BitVec.eq_of_toNat_eq hc
      exact ⟨_, _, exec_decCells _, exec_decCells _, h.cellsDone_sameDecode h6⟩
    · exact h.scalar_sameDecode h6 hc
  · rw [decodeRegCode_of_unlisted hc]
    exact ⟨_, _, rfl, rfl, .of_tcount_zero rfl (h.atDispatch_treg h6) rfl rfl rfl rfl rfl rfl⟩

end State.SameFrame

/-- The validation passes only frames that hold byte 5 (43_decode.md R224). -/
theorem six_le_of_frameError_none {s : State} (h : s.frameError = none) : 6 ≤ s.rxlen.val := by
  unfold State.frameError at h
  split_ifs at h
  omega

theorem State.SameFrame.decodeStep_sameDecode {s u : State} (h : s.SameFrame u) :
    ∃ t v, s.decodeStep = .next t ∧ u.decodeStep = .next v ∧ t.SameDecode v := by
  have hfe := h.frameError_eq
  cases he : s.frameError with
  | some e =>
    rw [he] at hfe
    exact ⟨_, _, decodeStep_error he, decodeStep_error hfe, .of_tcount_zero rfl rfl rfl rfl rfl rfl rfl rfl⟩
  | none =>
    rw [he] at hfe
    have h6 := six_le_of_frameError_none he
    rw [decodeStep_ok he, decodeStep_ok hfe, h.byte 5 (by omega)]
    exact h.decoder_sameDecode h6 _

/-- Settles O47: the bytes of the two frames agree one by one, so the DECODE steps give the same results. -/
theorem decodeDependsOnTheFrameAlone : Obligations.DecodeDependsOnTheFrameAlone := by
  unfold Obligations.DecodeDependsOnTheFrameAlone
  intro s u i j hi hj hlen hreg hord hoff hbytes
  have hframe : s.SameFrame u := ⟨hlen, hreg, hord, hoff, fun k hk => by
    simpa [State.rxByte, rxBase] using List.getElem_of_eq hbytes (show k < _ by simpa using hk)⟩
  rw [exec_atDecodeStep hi, exec_atDecodeStep hj]
  exact hframe.decodeStep_sameDecode

end Sys2Proof.Machine
end

section
/-! PROOFS. A QUERY against the three operations it fuses (44_query_host.md R270, R273): both run the same transport but for
CUR_OP, so both capture the same frame, and the DECODE step reads neither CUR_OP nor TRIES. -/

namespace Sys2Proof.Machine

/-! ## The DECODE step from a fresh acceptance -/

/-- DECODE accepted on `s` with the operands that `s` has latched (60_exceptions.md R305). -/
def State.asDecode (s : State) : State := s.accept .decode s.curReg s.curPlen

/-- A two-byte decoder whose own writes commute with the acceptance of DECODE completes alike but for TRIES. -/
theorem State.scalarDecode_asDecode {s : State} {own : Half → State → State}
    (hown : ∀ raw u, own raw (State.asDecode u) = (own raw u).asDecode) :
    s.asDecode.scalarDecode own = { s.scalarDecode own with tries := 0 } := by
  by_cases h : s.rxlen.val < 10
  · rw [State.scalarDecode_lt h, State.scalarDecode_lt (s := s.asDecode) h]
    rfl
  · have h10 : 10 ≤ s.rxlen.val := Nat.le_of_not_lt h
    rw [State.scalarDecode_ge h10, State.scalarDecode_ge (s := s.asDecode) h10]
    have hcommute := hown (s.rxField 6) { s with tlmRaw := s.rxField 6, tvalid := true, tcount := 0 }
    exact congrArg (State.complete · .none) hcommute

/-- A completion overwrites what the acceptance of DECODE wrote, all but TRIES, and no decoder reads any of it. -/
theorem exec_decoder_asDecode (c : Byte) (s : State) : ∃ t, exec (decodeRegCode c) s = .next t ∧
    exec (decodeRegCode c) s.asDecode = .next { t with tries := 0 } := by
  unfold decodeRegCode
  split
  · exact ⟨_, rfl, rfl⟩
  iterate 9 exact ⟨_, rfl, congrArg Host.Outcome.next (State.scalarDecode_asDecode fun _ _ => rfl)⟩
  · exact ⟨_, rfl, rfl⟩
  · exact ⟨_, rfl, rfl⟩

theorem State.decodeStep_asDecode (s : State) :
    ∃ t, s.decodeStep = .next t ∧ s.asDecode.decodeStep = .next { t with tries := 0 } := by
  have hframe : s.asDecode.frameError = s.frameError := rfl
  cases he : s.frameError with
  | some e => exact ⟨_, decodeStep_error he, decodeStep_error (hframe.trans he)⟩
  | none =>
    rw [decodeStep_ok he, decodeStep_ok (hframe.trans he)]
    exact exec_decoder_asDecode _ s.atDispatch

/-- The DECODE step completes and leaves TRIES. -/
theorem decodeStep_completes {s t : State} (h : s.decodeStep = .next t) :
    t.tries = s.tries ∧ t.busy = false ∧ t.done = true := by
  obtain ⟨u, hu, hcases⟩ := decodeStep_cases s
  cases hu.symm.trans h
  obtain ⟨e, -, rfl⟩ | ⟨-, heffect⟩ := hcases
  · exact ⟨rfl, rfl, rfl⟩
  · rw [heffect.frame]
    exact ⟨rfl, rfl, rfl⟩

/-! ## The transport with one reply -/

theorem step_engine_current {s : State} {i : Instr} {rest : List Event} (ha : s.agenda = .engine :: rest)
    (hr : s.inReset = false) (hb : s.busy = true) (hi : s.current = some i) : step s = exec i (s.withAgenda rest) := by
  rw [step_engine ha hr]
  exact engineMove_busy hb hi

/-- The engine's step of an XACT or a QUERY in SEND and in WAIT (42_transport.md R183, R185). -/
theorem step_engine_transport {s : State} {rest : List Event} (ha : s.agenda = .engine :: rest)
    (hr : s.inReset = false) (hb : s.busy = true) (ho : s.curOp = .xact ∨ s.curOp = .query) :
    (s.phase = .send → step s = .next (s.withAgenda rest).sendStep) ∧
      (s.phase = .wait → step s = .next (s.withAgenda rest).waitStep) := by
  rcases ho with ho | ho
  · have hstep := step_engine_current ha hr hb (i := .xact s.curReg s.curPlen) (by simp only [State.current, ho])
    exact ⟨fun hp => hstep.trans (exec_xact_send (s := s.withAgenda rest) hb _ _ ho hp),
      fun hp => hstep.trans (exec_xact_wait (s := s.withAgenda rest) hb _ _ ho hp)⟩
  · have hstep := step_engine_current ha hr hb (i := .query s.curReg s.curPlen) (by simp only [State.current, ho])
    exact ⟨fun hp => hstep.trans (exec_query_send (s := s.withAgenda rest) hb _ _ ho hp),
      fun hp => hstep.trans (exec_query_wait (s := s.withAgenda rest) hb _ _ ho hp)⟩

/-- A performed write of a command's word to CMD while idle, by the command's meaning while idle. -/
theorem step_cmdWrite {s : State} {w : Word} {i : Instr} {op : Op} {r p : Byte} {rest : List Event}
    (ha : s.agenda = .hostWrite 0x008 4 w :: rest) (hr : s.inReset = false) (hb : s.busy = false)
    (hw : decodeCmd w = i) (hi : ∀ {u : State}, u.busy = false → exec i u = .next (u.accept op r p)) :
    step s = .next ((s.withAgenda rest).accept op r p) := by
  rw [cmdWriteRunsTheDecodedCommand s w rest ha hr hb, hw]
  exact hi hb

theorem State.withAgenda_captureStep (s : State) (es : List Event) :
    s.captureStep.withAgenda es = (s.withAgenda es).captureStep := by
  by_cases ho : s.curOp = .xact
  · rw [State.captureStep, if_pos ho, State.captureStep, if_pos (show (s.withAgenda es).curOp = .xact from ho)]
    rfl
  · rw [State.captureStep, if_neg ho, State.captureStep, if_neg (show (s.withAgenda es).curOp ≠ .xact from ho)]
    rfl

/-- The engine's step after the CAPTURE of a QUERY is the DECODE step (44_query_host.md R270). -/
theorem step_captured_query {s : State} {rest : List Event} (ha : s.agenda = .engine :: rest) (hr : s.inReset = false)
    (hb : s.busy = true) (ho : s.curOp = .query) :
    step s.captureStep = (s.withAgenda rest).captureStep.decodeStep := by
  have hnot : s.curOp ≠ .xact := by simp [ho]
  have hframe := State.captureStep_of_not_xact hnot
  have hagenda : s.captureStep.agenda = .engine :: rest := by rw [hframe]; exact ha
  have hlive : s.captureStep.inReset = false := by rw [hframe]; exact hr
  have hbusy : s.captureStep.busy = true := by rw [hframe]; exact hb
  have hop : s.captureStep.curOp = .query := by rw [hframe]; exact ho
  have hphase : s.captureStep.phase = .decode := by rw [hframe]
  have hcurrent : s.captureStep.current = some (.query s.captureStep.curReg s.captureStep.curPlen) := by
    simp only [State.current, hop]
  rw [step_engine_current hagenda hlive hbusy hcurrent, ← State.withAgenda_captureStep]
  exact exec_query_decode (s := s.captureStep.withAgenda rest) hbusy _ _ hop hphase

/-- The DECODE after the CAPTURE that ends an XACT (42_transport.md R185, 43_decode.md R220). -/
theorem run_captured_xact {s t : State} {r p : Byte} (ha : s.agenda = [.hostWrite 0x008 4 (cmdWord 0x5 r p), .engine])
    (hr : s.inReset = false) (ho : s.curOp = .xact)
    (ht : ((s.withAgenda []).captureStep.accept .decode r p).decodeStep = .next t) :
    Host.Core.run Sys2Proof.core 2 s.captureStep = .next t := by
  obtain ⟨-, -, -, -, hword, -⟩ := decodeCmd_cmdWord r p
  rw [← State.withAgenda_captureStep] at ht
  have hframe := State.captureStep_of_xact ho
  have hagenda : s.captureStep.agenda = [.hostWrite 0x008 4 (cmdWord 0x5 r p), .engine] := by rw [hframe]; exact ha
  have hlive : s.captureStep.inReset = false := by rw [hframe]; exact hr
  have hidle : s.captureStep.busy = false := by rw [hframe]
  have haccept := step_cmdWrite hagenda hlive hidle hword (exec_decode_idle · r p)
  have hdecode := (step_engine_current (s := (s.captureStep.withAgenda [.engine]).accept .decode r p)
    rfl hlive rfl rfl).trans (exec_decode_step rfl r p rfl rfl)
  exact (run_step haccept).trans (run_step (n := 0) (hdecode.trans ht))

/-- An abandoned attempt and the SEND after it, `n` times over (42_transport.md R183, R186). -/
def retryEvents (n : Nat) : List Event := (List.replicate n [Event.deadline, .engine]).flatten

/-- The first SEND, `k` retries, the delivery of the reply and its CAPTURE. -/
def replyEvents (k : Nat) (reply : List Byte) (rest : List Event) : List Event :=
  .engine :: (retryEvents k ++ Event.peerDeliver reply :: .engine :: rest)

/-- The transport that starts at `s`, with `n` frames sent, at its next SEND. -/
def State.sending (s : State) (n : Nat) (events : List Event) : State :=
  { s with
    agenda := events, tries := BitVec.ofNat 8 n, txchan := s.txchan ++ (List.replicate n s.txSpan).flatten }

/-- The transport that starts at `s`, with `n` frames sent, waiting for the reply to the last of them. -/
def State.waiting (s : State) (n : Nat) (events : List Event) : State :=
  { s.sending n events with phase := .wait, timer := .running }

/-- The reply's bytes are in the receive FIFO of a transport that has sent `n` frames. -/
def State.replied (s : State) (n : Nat) (reply : List Byte) (events : List Event) : State :=
  { s.waiting n events with rxfifo := reply }

theorem State.sending_zero {s : State} (h0 : s.tries = 0) (events : List Event) :
    s.sending 0 events = s.withAgenda events := by
  simp only [State.sending, State.withAgenda, List.replicate_zero, List.flatten_nil, List.append_nil, h0]
  rfl

section transport
variable {s : State} (h : s.SilentSend)
include h

theorem State.SilentSend.step_sending {n : Nat} (hn : n < s.maxTries.toNat) (events : List Event) :
    step (s.sending n (.engine :: events)) = .next (s.waiting (n + 1) events) := by
  have hlt : (BitVec.ofNat 8 n).toNat < s.maxTries.toNat := by
    rw [BitVec.toNat_ofNat]
    exact (Nat.mod_le _ _).trans_lt hn
  have hpush : (s.sending n events).sendStep = s.waiting (n + 1) events := by
    rw [State.sendStep_push hlt]
    simp only [State.waiting, State.sending, List.replicate_succ', List.flatten_concat, ← List.append_assoc,
      BitVec.ofNat_add]
    rfl
  rw [← hpush]
  exact (step_engine_transport (s := s.sending n (.engine :: events)) rfl h.live h.busy h.op).1 h.phase

theorem State.SilentSend.step_expire (n : Nat) (events : List Event) :
    step (s.waiting n (.deadline :: events)) = .next (s.sending n events) := by
  rw [(deadlineAbandonsTheAttempt (s.waiting n (.deadline :: events)) events rfl h.live).1 rfl h.silent]
  simp only [State.waiting, State.sending, h.phase, h.timer]

theorem State.SilentSend.run_retries (k : Nat) {n : Nat} (hn : n + k ≤ s.maxTries.toNat) (events : List Event) :
    Host.Core.run Sys2Proof.core (2 * k) (s.waiting n (retryEvents k ++ events)) =
      .next (s.waiting (n + k) events) := by
  induction k generalizing n with
  | zero => rfl
  | succ k ih =>
    have hexpire := h.step_expire n (.engine :: (retryEvents k ++ events))
    have hsend := h.step_sending (n := n) (by omega) (retryEvents k ++ events)
    rw [show n + (k + 1) = n + 1 + k by omega]
    exact (run_step hexpire).trans ((run_step hsend).trans (ih (by omega)))

theorem State.SilentSend.step_deliver (n : Nat) (reply : List Byte) (events : List Event) :
    step (s.waiting n (.peerDeliver reply :: events)) = .next (s.replied n reply events) := by
  rw [linkIsFifoBothWays.1 (s.waiting n (.peerDeliver reply :: events)) reply events rfl]
  simp only [State.replied, State.waiting, State.sending, h.silent, List.nil_append]

theorem State.SilentSend.step_capture (n : Nat) {reply : List Byte} (hreply : reply ≠ []) (events : List Event) :
    step (s.replied n reply (.engine :: events)) = .next (s.replied n reply events).captureStep := by
  have hwait : (s.replied n reply events).waitStep = (s.replied n reply events).captureStep :=
    State.waitStep_byte hreply
  rw [← hwait]
  exact (step_engine_transport (s := s.replied n reply (.engine :: events)) rfl h.live h.busy h.op).2 rfl

/-- The first SEND, `k` attempts abandoned, the reply to the next, and its CAPTURE (42_transport.md R183 to R186). -/
theorem State.SilentSend.run_reply (h0 : s.tries = 0) {k : Nat} (hk : k < s.maxTries.toNat) {reply : List Byte}
    (hreply : reply ≠ []) (events : List Event) :
    Host.Core.run Sys2Proof.core (2 * k + 3) (s.withAgenda (replyEvents k reply events)) =
      .next (s.replied (k + 1) reply events).captureStep := by
  rw [← State.sending_zero h0, replyEvents, Nat.add_comm k 1]
  have hretries := h.run_retries k (n := 1) (by omega) (.peerDeliver reply :: .engine :: events)
  calc Host.Core.run Sys2Proof.core (2 * k + 3) _
      = Host.Core.run Sys2Proof.core (2 * k + 2) (s.waiting 1 _) := run_step (h.step_sending (by omega) _)
    _ = Host.Core.run Sys2Proof.core 2 (s.waiting (1 + k) _) := run_add hretries
    _ = Host.Core.run Sys2Proof.core 1 (s.replied (1 + k) reply (.engine :: events)) := run_step (h.step_deliver _ _ _)
    _ = .next (s.replied (1 + k) reply events).captureStep := run_step (h.step_capture _ hreply _)

/-- A QUERY whose reply comes in attempt `k + 1`, from its first SEND to its DECODE step (44_query_host.md R270). -/
theorem State.SilentSend.run_reply_query (h0 : s.tries = 0) (ho : s.curOp = .query) {k : Nat}
    (hk : k < s.maxTries.toNat) {reply : List Byte} (hreply : reply ≠ []) {t : State}
    (hdecode : (s.replied (k + 1) reply []).captureStep.decodeStep = .next t) :
    Host.Core.run Sys2Proof.core (2 * k + 4) (s.withAgenda (replyEvents k reply [.engine])) = .next t := by
  have hlast := step_captured_query (s := s.replied (k + 1) reply [.engine]) rfl h.live h.busy ho
  exact (run_add (h.run_reply h0 hk hreply _)).trans (run_step (n := 0) (hlast.trans hdecode))

/-- An XACT whose reply comes in attempt `k + 1`, from its first SEND, and a DECODE after it. -/
theorem State.SilentSend.run_reply_xact (h0 : s.tries = 0) (ho : s.curOp = .xact) {k : Nat}
    (hk : k < s.maxTries.toNat) {reply : List Byte} (hreply : reply ≠ []) {r p : Byte} {t : State}
    (hdecode : ((s.replied (k + 1) reply []).captureStep.accept .decode r p).decodeStep = .next t) :
    Host.Core.run Sys2Proof.core (2 * k + 5)
      (s.withAgenda (replyEvents k reply [.hostWrite 0x008 4 (cmdWord 0x5 r p), .engine])) = .next t := by
  have hlast := run_captured_xact (s := s.replied (k + 1) reply [.hostWrite 0x008 4 (cmdWord 0x5 r p), .engine])
    rfl h.live ho hdecode
  exact (run_add (h.run_reply h0 hk hreply _)).trans hlast

end transport

/-! ## The two command sequences -/

/-- The transport of `op` at its first SEND, the request frame for `r` and `p` built (41_encode.md R160). -/
def State.requested (s : State) (op : Op) (r p : Byte) : State :=
  { ((s.withAgenda []).accept op r p).buildFrame with phase := .send }

theorem State.requested_silentSend {s : State} (hr : s.inReset = false) (ht : s.timer = .stopped) (hf : s.rxfifo = [])
    {op : Op} (ho : op = .xact ∨ op = .query) (r p : Byte) : (s.requested op r p).SilentSend :=
  ⟨rfl, hr, rfl, ho, rfl, ht, hf⟩

section sequences
variable {s : State} (hb : s.busy = false) (hr : s.inReset = false) (r p : Byte)
include hr

/-- The ENCODE step of an ENCODE or a QUERY just accepted (41_encode.md R160). -/
theorem step_encode_accepted {op : Op} (ho : op = .encode ∨ op = .query) (events : List Event) :
    step ((s.withAgenda (.engine :: events)).accept op r p) =
      .next ((s.withAgenda events).accept op r p).encodeStep := by
  rcases ho with rfl | rfl
  · rw [step_engine_current (s := (s.withAgenda (.engine :: events)).accept .encode r p) rfl hr rfl rfl]
    exact exec_encode_step (s := (s.withAgenda events).accept .encode r p) rfl r p rfl rfl
  · rw [step_engine_current (s := (s.withAgenda (.engine :: events)).accept .query r p) rfl hr rfl rfl]
    exact exec_query_encode (s := (s.withAgenda events).accept .query r p) rfl r p rfl rfl

include hb

/-- A QUERY up to its first SEND. -/
theorem run_query_requested (events : List Event) :
    Host.Core.run Sys2Proof.core 2 (s.withAgenda (.hostWrite 0x008 4 (cmdWord 0x6 r p) :: .engine :: events)) =
      .next ((s.requested .query r p).withAgenda events) := by
  have haccept := step_queryWrite (s := s.withAgenda (.hostWrite 0x008 4 (cmdWord 0x6 r p) :: .engine :: events))
    rfl hr hb
  exact (run_step haccept).trans (run_step (step_encode_accepted hr r p (.inr rfl) events))

/-- An ENCODE, and an XACT up to its first SEND. -/
theorem run_encode_xact_requested (events : List Event) :
    Host.Core.run Sys2Proof.core 3 (s.withAgenda (.hostWrite 0x008 4 (cmdWord 0x3 r p) :: .engine ::
      .hostWrite 0x008 4 (cmdWord 0x4 r p) :: events)) = .next ((s.requested .xact r p).withAgenda events) := by
  obtain ⟨-, -, hword, -, -, -⟩ := decodeCmd_cmdWord r p
  have haccept := step_cmdWrite (s := s.withAgenda (.hostWrite 0x008 4 (cmdWord 0x3 r p) :: .engine ::
    .hostWrite 0x008 4 (cmdWord 0x4 r p) :: events)) rfl hr hb hword (exec_encode_idle · r p)
  have hencode := step_encode_accepted hr r p (.inl rfl) (.hostWrite 0x008 4 (cmdWord 0x4 r p) :: events)
  have hxact := step_xactWrite (s := State.encodeStep
    ((s.withAgenda (.hostWrite 0x008 4 (cmdWord 0x4 r p) :: events)).accept .encode r p)) rfl hr rfl
  exact (run_step haccept).trans ((run_step hencode).trans (run_step hxact))

end sequences

/-- The two transports differ in CUR_OP alone, so both capture the same frame; what the XACT's completion writes, the
acceptance of DECODE overwrites (44_query_host.md R273). -/
theorem State.accept_decode_captured (s : State) (r p : Byte) (n : Nat) (reply : List Byte) (events : List Event) :
    ((s.requested .xact r p).replied n reply events).captureStep.accept .decode r p =
      ((s.requested .query r p).replied n reply events).captureStep.asDecode := rfl

section sequences
variable {s : State} (hb : s.busy = false) (hr : s.inReset = false) (ht : s.timer = .stopped) (hf : s.rxfifo = [])
  (r p : Byte) {k : Nat} (hk : k < s.maxTries.toNat) {reply : List Byte} (hreply : reply ≠ []) {t : State}
include hb hr ht hf hk hreply

/-- The QUERY of R273: its reply is captured in attempt `k + 1`, and then decoded. -/
theorem run_query (hdecode : ((s.requested .query r p).replied (k + 1) reply []).captureStep.decodeStep = .next t) :
    Host.Core.run Sys2Proof.core (2 * k + 6) (s.withAgenda
      (.hostWrite 0x008 4 (cmdWord 0x6 r p) :: .engine :: replyEvents k reply [.engine])) = .next t := by
  have hsend := run_query_requested hb hr r p (replyEvents k reply [.engine])
  have hrun := (State.requested_silentSend hr ht hf (.inr rfl) r p).run_reply_query rfl rfl hk hreply hdecode
  rw [show 2 * k + 6 = 2 + (2 * k + 4) by omega]
  exact (run_add hsend).trans hrun

/-- The three operations of R273 with the same reply. -/
theorem run_encode_xact_decode
    (hdecode : ((s.requested .query r p).replied (k + 1) reply []).captureStep.asDecode.decodeStep = .next t) :
    Host.Core.run Sys2Proof.core (2 * k + 8) (s.withAgenda
      (.hostWrite 0x008 4 (cmdWord 0x3 r p) :: .engine :: .hostWrite 0x008 4 (cmdWord 0x4 r p) ::
        replyEvents k reply [.hostWrite 0x008 4 (cmdWord 0x5 r p), .engine])) = .next t := by
  have hsend := run_encode_xact_requested hb hr r p
    (replyEvents k reply [.hostWrite 0x008 4 (cmdWord 0x5 r p), .engine])
  rw [← s.accept_decode_captured] at hdecode
  have hrun := (State.requested_silentSend hr ht hf (.inl rfl) r p).run_reply_xact rfl rfl hk hreply hdecode
  rw [show 2 * k + 8 = 3 + (2 * k + 5) by omega]
  exact (run_add hsend).trans hrun

end sequences

/-- Settles O48: both sequences reach the same DECODE step but for what its acceptance writes, and of that only TRIES
stays. -/
theorem queryEqualsEncodeXactDecode : Obligations.QueryEqualsEncodeXactDecode := by
  unfold Obligations.QueryEqualsEncodeXactDecode
  intro s r p k reply hinv hb hr hf hreply hk retries
  obtain ⟨-, -, htimer⟩ := hinv.idle_fields hb
  obtain ⟨t, hquery, hdecode⟩ := ((s.requested .query r p).replied (k + 1) reply []).captureStep.decodeStep_asDecode
  obtain ⟨htries, hbusy, hdone⟩ := decodeStep_completes hquery
  have hcount : t.tries = BitVec.ofNat 8 (k + 1) := htries
  refine ⟨t, { t with tries := 0 }, ?_, ?_, rfl, ?_, hbusy, hdone⟩
  · exact run_query hb hr htimer hf r p hk hreply hquery
  · exact run_encode_xact_decode hb hr htimer hf r p hk hreply hdecode
  · have hmax := s.maxTries.isLt
    rw [hcount, BitVec.toNat_ofNat]
    omega

end Sys2Proof.Machine
end

section
/-! PROOFS. The acceptance of a legal command word (60_exceptions.md R305). -/

namespace Sys2Proof.Machine

/-- CMD.REG and CMD.PLEN by division (30_encoding.md R101). -/
theorem operands_eq_ofNat (w : Word) :
    regField w = BitVec.ofNat 8 (w.toNat / 0x100) ∧ plenField w = BitVec.ofNat 8 (w.toNat / 0x10000) := by
  simp [regField, plenField, BitVec.extractLsb', Nat.shiftRight_eq_div_pow]

/-- The codes 1 to 6 are those of the operations (30_encoding.md R110). -/
theorem Op.exists_code_eq {n : BitVec 4} (h1 : 1 ≤ n.toNat) (h6 : n.toNat ≤ 6) :
    ∃ op : Op, op ≠ .none ∧ op.code = n := by
  have hn : n ∈ [Op.ckcomp, .ckver, .encode, .xact, .decode, .query].map Op.code := by
    revert n
    decide
  obtain ⟨op, hmem, hcode⟩ := List.mem_map.mp hn
  exact ⟨op, by rintro rfl; simp at hmem, hcode⟩

/-- CMD.OP of a legal word is the code of an operation, and the word is that operation's with its own operands
(30_encoding.md R110, R112). -/
theorem exists_op_of_legal {w : Word} (h : ¬ IllegalWord w) :
    ∃ op : Op, op ≠ .none ∧ op.code = opField w ∧ cmdWord op.code (regField w) (plenField w) = w := by
  obtain ⟨n, r, p, h1, h6, rfl⟩ := exists_cmdWord_of_legal h
  obtain ⟨hop, -, hreg, hplen, -⟩ := fields_cmdWord n r p
  obtain ⟨op, hne, rfl⟩ := Op.exists_code_eq h1 h6
  exact ⟨op, hne, hop.symm, by rw [hreg, hplen]⟩

/-- A performed write of an operation's word to CMD while idle accepts that operation. -/
theorem step_cmdWrite_op {s : State} {op : Op} {r p : Byte} {rest : List Event} (hop : op ≠ .none)
    (ha : s.agenda = .hostWrite 0x008 4 (cmdWord op.code r p) :: rest) (hr : s.inReset = false)
    (hb : s.busy = false) : step s = .next ((s.withAgenda rest).accept op r p) := by
  obtain ⟨hckcomp, hckver, hencode, hxact, hdecode, hquery⟩ := decodeCmd_cmdWord r p
  cases op with
  | none => exact absurd rfl hop
  | ckcomp => exact step_cmdWrite ha hr hb hckcomp (exec_ckcomp_idle · r p)
  | ckver => exact step_cmdWrite ha hr hb hckver (exec_ckver_idle · r p)
  | encode => exact step_cmdWrite ha hr hb hencode (exec_encode_idle · r p)
  | xact => exact step_cmdWrite ha hr hb hxact (exec_xact_idle · r p)
  | decode => exact step_cmdWrite ha hr hb hdecode (exec_decode_idle · r p)
  | query => exact step_cmdWrite ha hr hb hquery (exec_query_idle · r p)

/-- The case table of R305, from CMD.OP to the first phase. -/
theorem Op.code_firstPhase_mem {op : Op} (hop : op ≠ .none) :
    (op.code.toNat, op.firstPhase.code.toNat) ∈ [(1, 1), (2, 2), (3, 3), (4, 4), (5, 6), (6, 3)] := by
  cases op with
  | none => exact absurd rfl hop
  | ckcomp | ckver | encode | xact | decode | query => decide

/-- Settles O19: a legal word is the word of an operation and its two operands, and the write accepts that operation. -/
theorem legalCommandIsAccepted : Obligations.LegalCommandIsAccepted := by
  unfold Obligations.LegalCommandIsAccepted
  intro s w rest ha hr hb hw
  obtain ⟨op, hne, hcode, hword⟩ := exists_op_of_legal hw
  obtain ⟨hreg, hplen⟩ := operands_eq_ofNat w
  have hop : op.code.toNat = w.toNat % 16 := by rw [hcode, (toNat_fields w).1]
  refine ⟨(s.withAgenda rest).accept op (regField w) (plenField w), ?_, ?_, hop, ?_⟩
  · exact step_cmdWrite_op hne (by rw [hword, ha]) hr hb
  · rw [hreg, hplen]
    rfl
  · rw [← hop]
    exact Op.code_firstPhase_mem hne

end Sys2Proof.Machine
end

section
/-! PROOFS. Reset (70_reset_and_hazards.md R350, R351): its values, and what it holds back; and a frame sent with the
other checksum order (R367). -/

namespace Sys2Proof.Machine

/-! ## The other checksum order -/

theorem swap16_eq_self_iff (v : Half) : swap16 v = v ↔ hiByte v = loByte v :=
  calc swap16 v = v
    _ ↔ le16 (hiByte v) (loByte v) = le16 (loByte v) (hiByte v) := by rw [le16_lo_hi]; rfl
    _ ↔ hiByte v = loByte v := le16_inj.trans ⟨And.left, fun h => ⟨h, h.symm⟩⟩

/-- A checksum emitted under one order and received under the other is swapped (40_checksum.md R142, R144). -/
theorem recv_not_emit (c : Bool) (v : Half) : recv (!c) (emit c v) = swap16 v := by
  cases c <;> rfl

/-- `verify` on a frame that ends in a checksum emitted under either order. -/
theorem verify_append_emit_iff (c d : Bool) (m0 m1 : Byte) (S : List Byte) (v : Half) :
    verify d ([m0, m1] ++ S ++ emit c v) = true ↔ ck16 S = recv d (emit c v) := by
  cases c <;> exact verify_frame_iff

/-- Settles O27: the receiver has the sent checksum with its bytes swapped. -/
theorem profileMismatchVerifiesOnlyEqualBytes : Obligations.ProfileMismatchVerifiesOnlyEqualBytes := by
  unfold Obligations.ProfileMismatchVerifiesOnlyEqualBytes
  intro c m0 m1 S
  rw [verify_append_emit_iff, recv_not_emit, eq_comm]
  exact swap16_eq_self_iff (ck16 S)

/-! ## The state after reset -/

/-- A buffer byte not written since the last reset is its free draw. -/
theorem State.byteAt_of_mem_nil {s : State} (h : s.mem = []) (a : Nat) : s.byteAt a = Config.resetByte s.epoch a := by
  rw [State.byteAt, h]
  rfl

theorem State.reset_inv : State.reset.Inv :=
  .of_idle rfl rfl rfl rfl ⟨by decide, by decide, rfl, State.reset_mem_wf⟩

/-- Settles O53: each register's value is the field of `State.reset`, and nothing is written yet. -/
theorem resetMeetsTheInvariant : Obligations.ResetMeetsTheInvariant := by
  unfold Obligations.ResetMeetsTheInvariant
  exact ⟨State.reset_inv, ⟨rfl, rfl, rfl⟩, rfl, ⟨rfl, rfl, rfl⟩, ⟨rfl, rfl⟩, ⟨rfl, rfl, rfl⟩,
    ⟨rfl, rfl, rfl, rfl⟩, ⟨rfl, rfl⟩, ⟨rfl, rfl, rfl⟩, rfl, rfl, State.byteAt_of_mem_nil rfl⟩

/-- Reset asserted and released gives `State.reset` but for the link, the draws and the model's own fields. -/
theorem State.releaseReset_assertReset (s : State) : s.assertReset.releaseReset = { State.reset with
    txchan := s.txchan, rxfifo := s.rxfifo, epoch := s.epoch + 1, hostData := s.hostData, agenda := s.agenda } := rfl

theorem run_resetPulse {s : State} {rest : List Event} (ha : s.agenda = .resetAssert :: .resetRelease :: rest) :
    Host.Core.run Sys2Proof.core 2 s = .next (s.withAgenda rest).assertReset.releaseReset := by
  have hassert : step s = .next (s.withAgenda (.resetRelease :: rest)).assertReset := step_cons ha
  have hrelease : step (s.withAgenda (.resetRelease :: rest)).assertReset =
      .next (s.withAgenda rest).assertReset.releaseReset := step_cons (e := .resetRelease) rfl
  rw [run_step hassert, run_step hrelease, run_zero]

/-- Settles O55: the registers have the values of `State.reset`, which are those of O53. -/
theorem resetLeavesTheResetState : Obligations.ResetLeavesTheResetState := by
  unfold Obligations.ResetLeavesTheResetState
  intro s rest ha
  obtain ⟨-, hctrl, hstatus, hframecfg, htiming, hlengths, htlm, hcache, hlatches, htimer, hirq, -⟩ :=
    resetMeetsTheInvariant
  refine ⟨_, run_resetPulse ha, ?_⟩
  rw [State.releaseReset_assertReset]
  exact ⟨hctrl, hstatus, hframecfg, htiming, hlengths, htlm, hcache, hlatches, htimer, hirq, rfl, rfl, rfl, rfl,
    State.byteAt_of_mem_nil rfl⟩

/-! ## While reset is asserted -/

/-- Settles O56: by the agent whose event it is; reset holds back every agent but the PEER. -/
theorem underResetNothingTakesEffect : Obligations.UnderResetNothingTakesEffect := by
  unfold Obligations.UnderResetNothingTakesEffect
  intro s e rest hr ha hdeliver hconsume hassert hrelease
  have held : ∀ agent, unlessReset agent (s.withAgenda rest) = .next (s.withAgenda rest) := unlessReset_held hr
  rw [step_cons ha]
  cases e with
  | hostRead | hostWrite | waitDone | engine | deadline => exact held _
  | peerDeliver bytes => exact absurd rfl (hdeliver bytes)
  | peerConsume count => exact absurd rfl (hconsume count)
  | resetAssert => exact absurd rfl hassert
  | resetRelease => exact absurd rfl hrelease

end Sys2Proof.Machine
end
